-- ==== Sys2Proof/Word.lean ====
section
/-! DEFINITION. The machine's words and byte strings (spec 00_scope.md R15, R16): registers are unsigned 64-bit
integers, memory is bytes, a HashBlock is 32 bytes and a message block of the hash core is 64 bytes (R6). -/

namespace Sys2Proof

/-- One byte of memory or of a byte string (R16). -/
abbrev Byte := BitVec 8

/-- A register or integer operand: an unsigned 64-bit integer (R15, R33). -/
abbrev Word := BitVec 64

/-- A 32-byte string: a HashBlock, a digest, or the generation signature (R6, R25). -/
abbrev HashBlock := Vector Byte 32

/-- A 64-byte message block of the hash core (R6: MSG_BLOCK). -/
abbrev Block := Vector Byte 64

end Sys2Proof
end

