-- ==== Sys2Proof/Config.lean ====
section
/-! DEFINITION. What an implementation or platform fixes (spec 00_scope.md R6 to R13, 20_memory.md R78, R89), and the
free values: constants with no body, of which no proof can know anything but their type. -/

namespace Sys2Proof

/-- NONCE_SIZE: the bytes of one nonce buffer (R6). -/
abbrev nonceSize : Nat := 262144

/-- NB: the HashBlocks of one nonce buffer (R6). -/
abbrev blocksPerNonce : Nat := 8192

/-- SCOOP_COUNT (R6). -/
abbrev scoopCount : Nat := 4096

/-- The bytes of an instance's register window (R12, R32). -/
abbrev windowSize : Nat := 256

/-- DEADLINE_ORDER: the order in which digest bytes 0 to 7 are read as the deadline (R9). -/
inductive ByteOrder where
  | le
  | be
  deriving DecidableEq, Repr

/-- A range of addresses, `[base, base + len)`. -/
structure Range where
  base : Nat
  len : Nat
  deriving DecidableEq, Repr

/-- The parameters of one engine instance (R7 to R12). They never change, not even at reset (R34). -/
structure EngineConfig where
  /-- WINDOW_CAP_BYTES, written C (R7). -/
  windowCap : Nat
  /-- FINAL_SEED_TAIL (R8). -/
  finalSeedTail : Bool
  /-- DEADLINE_ORDER (R9). -/
  deadlineOrder : ByteOrder
  /-- LANES, written W (R10). -/
  lanes : Nat
  /-- ADDR_BITS (R11). -/
  addrBits : Nat
  /-- MMIO_BASE: the host-bus address of the register window (R12). -/
  mmioBase : Nat
  deriving DecidableEq, Repr

/-- What the platform fixes beside the instances (R70, R74, R78, R79, R89). -/
structure Platform where
  /-- DMA_COHERENT (R89). -/
  dmaCoherent : Bool
  /-- Addresses at which the memory system refuses every access (R74, R75). -/
  absent : List Range
  /-- Device memory other than the engines' own register windows (R78). -/
  devices : List Range
  deriving DecidableEq, Repr

/-- The configuration CFG_DOC of R7 and R8, with the defaults of R9 and R11. DESIGN CHOICE (log 1): 8 lanes, the value the
spec's examples use. DESIGN CHOICE (log 2): the register window lies beyond the engine's address space. -/
def EngineConfig.doc : EngineConfig where
  windowCap := 131072
  finalSeedTail := false
  deadlineOrder := .le
  lanes := 8
  addrBits := 64
  mmioBase := 2 ^ 64

/-- The configuration CFG_NET of R7 and R8, otherwise as `EngineConfig.doc`. -/
def EngineConfig.net : EngineConfig :=
  { EngineConfig.doc with windowCap := 4096, finalSeedTail := true }

/-- The platform at reset. DESIGN CHOICE (logs 4, 13, 14): coherent, every address answers, no other device. -/
def Platform.default : Platform where
  dmaCoherent := true
  absent := []
  devices := []

/-- BH, the block hash core: its result depends on its argument alone and nothing else is known of it (R13, R19). It is
only ever applied to a non-empty list. -/
opaque Config.bh : List Block → HashBlock

/-- The free value of a byte the spec leaves at any value (R83, R91, R183, R206, U28; log 8). -/
opaque Config.freeByte : Nat → Byte

/-- The free value of a 64-bit register the spec leaves at any value (R83, R91, U28; log 8). -/
opaque Config.freeWord : Nat → Word

end Sys2Proof
end

