-- ==== Sys2Proof/Machine/Bytes.lean ====
section
/-! DEFINITION. Byte strings, integer encoders, constant blocks, padding and the hash primitives (spec 00_scope.md R14,
R16 to R21; 41_init.md R131). The hash core is an argument `bh` here; the machine passes `Config.bh`. -/

namespace Sys2Proof.Machine

/-- `BE64(v)`: most significant byte first (R17). -/
def be64 (v : Word) : Vector Byte 8 :=
  Vector.ofFn fun i => v.extractLsb' (56 - 8 * i.val) 8

/-- `LE64(v)`: least significant byte first (R17). -/
def le64 (v : Word) : Vector Byte 8 :=
  Vector.ofFn fun i => v.extractLsb' (8 * i.val) 8

/-- `BE64dec(b)` (R17). -/
def be64dec (b : Vector Byte 8) : Word :=
  b[0] ++ b[1] ++ b[2] ++ b[3] ++ b[4] ++ b[5] ++ b[6] ++ b[7]

/-- `LE64dec(b)` (R17). -/
def le64dec (b : Vector Byte 8) : Word :=
  b[7] ++ b[6] ++ b[5] ++ b[4] ++ b[3] ++ b[2] ++ b[1] ++ b[0]

/-- TERM_BYTE (R14; log 9). -/
def termByte : Byte := 0x80

/-- `S16(a, n) = BE64(a) ‖ BE64(n)` (R18). -/
def s16 (a n : Word) : Vector Byte 16 :=
  be64 a ++ be64 n

/-- `Seed32(a, n) = S16(a, n) ‖ [TERM_BYTE] ‖ 0^15` (R18). -/
def seed32 (a n : Word) : HashBlock :=
  s16 a n ++ (#v[termByte] ++ Vector.replicate 15 (0 : Byte))

/-- `Term32 = [TERM_BYTE] ‖ 0^31` (R18). -/
def term32 : HashBlock :=
  #v[termByte] ++ Vector.replicate 31 (0 : Byte)

/-- `Zero32 = 0^32` (R18). -/
def zero32 : HashBlock :=
  Vector.replicate 32 0

/-- The final block T1 of a message that ends 16 bytes into a block with the seed (R20). -/
def blockT1 (a n : Word) : Block :=
  seed32 a n ++ zero32

/-- The final block T2 of a message that ends 48 bytes into a block with the first-round output and the seed (R20). -/
def blockT2 (x8191 : HashBlock) (a n : Word) : Block :=
  x8191 ++ seed32 a n

/-- The final block T3 of an aligned message (R20). -/
def blockT3 : Block :=
  term32 ++ zero32

/-- The final block T4 of a message that ends 32 bytes into a block (R20). -/
def blockT4 (b : HashBlock) : Block :=
  b ++ term32

/-- Bytewise exclusive or (R16). -/
def xorBlock (x y : HashBlock) : HashBlock :=
  Vector.ofFn fun i => x[i] ^^^ y[i]

/-- The concatenation of HashBlocks, in list order. -/
def concatBlocks (xs : List HashBlock) : List Byte :=
  xs.flatMap Vector.toList

/-- `Pad(m) = m ‖ [TERM_BYTE] ‖ 0^z`, the least z that reaches a multiple of 64 bytes (R19; log 9). -/
def pad (m : List Byte) : List Byte :=
  m ++ termByte :: List.replicate (63 - m.length % 64) 0

/-- The first `n` 64-byte blocks of a byte string. -/
def blocksOf : Nat → List Byte → List Block
  | 0, _ => []
  | n + 1, bs => (Vector.ofFn fun i : Fin 64 => bs.getD i.val 0) :: blocksOf n (bs.drop 64)

/-- The 64-byte blocks of a padded message. -/
def paddedBlocks (m : List Byte) : List Block :=
  blocksOf ((pad m).length / 64) (pad m)

/-- `Hash(m) = BH(blocks of Pad(m))` (R19). -/
def hash (bh : List Block → HashBlock) (m : List Byte) : HashBlock :=
  bh (paddedBlocks m)

/-- `HashFast(TPL, D, k, T)` with `k = |D|` full blocks and the final block T: `BH(D_1, ..., D_k, T)` (R131). The
template is a constant of the hash core and so part of `bh` (R126; log 19). -/
def hashFast (bh : List Block → HashBlock) (d : List Block) (t : Block) : HashBlock :=
  bh (d ++ [t])

/-- Digest bytes 0 to 7, the bytes the deadline is read from (R21). -/
def lowBytes (d : HashBlock) : Vector Byte 8 :=
  Vector.ofFn fun i => d[i.val]

/-- `Deadline(d)` (R21). -/
def deadline (order : ByteOrder) (d : HashBlock) : Word :=
  match order with
  | .le => le64dec (lowBytes d)
  | .be => be64dec (lowBytes d)

end Sys2Proof.Machine
end

