-- ==== Sys2Proof/Syntax.lean ====
section
/-! DEFINITION. The commands of the engine: one constructor per row of the opcode table (spec 30_encoding.md R97). -/

namespace Sys2Proof

/-- A command. It has no operand field: operands come from the operand registers (R95, R98). -/
inductive Instr where
  /-- INIT, OPCODE 0x01: build the hash template (R125). -/
  | init
  /-- GEN, OPCODE 0x02: generate COUNT nonce buffers (R144). -/
  | gen
  /-- SCAN, OPCODE 0x03: find the least deadline over COUNT nonces for one scoop (R166). -/
  | scan
  deriving DecidableEq, Repr

end Sys2Proof
end

