-- ==== Sys2Proof/WellFormed.lean ====
section
/-! DEFINITION. Well-formedness: which command words, instance parameters and register accesses are legal (spec
00_scope.md R7 to R12, 10_state.md R50, 30_encoding.md R95, R99). -/

namespace Sys2Proof

/-- A command word is legal when its reserved field is 0 and its OPCODE is one of the three (R95, R97, R99). -/
def wordWf (v : Word) : Bool :=
  v.extractLsb' 8 56 == 0#56 &&
    (v.extractLsb' 0 8 == 1#8 || v.extractLsb' 0 8 == 2#8 || v.extractLsb' 0 8 == 3#8)

/-- No command has an operand field that could be out of range (R95), so every command is well formed. -/
def Instr.wf : Instr → Bool
  | .init => true
  | .gen => true
  | .scan => true

/-- The legal parameters of an instance (R7, R10, R11, R12). -/
abbrev EngineConfig.Legal (c : EngineConfig) : Prop :=
  c.windowCap % 64 = 0 ∧ 64 ≤ c.windowCap ∧ c.windowCap ≤ 262144 ∧
    1 ≤ c.lanes ∧ c.lanes ≤ 65535 ∧
    1 ≤ c.addrBits ∧ c.addrBits ≤ 64 ∧
    c.mmioBase % windowSize = 0

/-- An admitted register access: 8 bytes wide and naturally aligned (R50). -/
def registerAccessWf (addr size : Nat) : Bool :=
  size == 8 && addr % 8 == 0

end Sys2Proof
end

