-- ==== Sys2Proof/Decode.lean ====
section
/-! DEFINITION. The decoder of a command word, total on every 64-bit value (spec 30_encoding.md R95 to R100), and the
encoder written from the same table. -/

namespace Sys2Proof

/-- Why a word is ILLEGAL (R99). Both reasons end the command with ILLEGAL_CMD. -/
inductive Illegal where
  /-- v[63:8] is not 0. -/
  | reservedField
  /-- OPCODE is 0x00 or one of 0x04 to 0xFF. -/
  | reservedOpcode
  deriving DecidableEq, Repr

/-- OPCODE = v[7:0] (R95). -/
def opcodeField (v : Word) : BitVec 8 :=
  v.extractLsb' 0 8

/-- RSVD = v[63:8] (R95). -/
def reservedField (v : Word) : BitVec 56 :=
  v.extractLsb' 8 56

/-- The opcode map (R97); every other OPCODE is reserved (R99). -/
def opcodeCommand (op : BitVec 8) : Except Illegal Instr :=
  if op = 0x01#8 then .ok .init
  else if op = 0x02#8 then .ok .gen
  else if op = 0x03#8 then .ok .scan
  else .error .reservedOpcode

/-- Decoding of the value written to CMD (R95, R99, R100). -/
def decode (v : Word) : Except Illegal Instr :=
  if reservedField v = 0#56 then opcodeCommand (opcodeField v) else .error .reservedField

/-- The OPCODE of a command (R97). -/
def opcodeOf : Instr → BitVec 8
  | .init => 0x01#8
  | .gen => 0x02#8
  | .scan => 0x03#8

/-- The word of a command: OPCODE in v[7:0], RSVD = 0 (R95). -/
def encode (i : Instr) : Word :=
  0#56 ++ opcodeOf i

/-- The command word of an instruction given by its low `nbits` bits, every bit above them 0. -/
def tableWord (nbits w : Nat) : Nat :=
  w % 2 ^ nbits

/-- The decoder's reading of an opcode-table word: a command is exactly one 64-bit word (R96). -/
def decodeTableWord (nbits w : Nat) : Option Instr :=
  if tableWord nbits w < 2 ^ 64 then (decode (BitVec.ofNat 64 (tableWord nbits w))).toOption else none

end Sys2Proof
end

