-- ==== Sys2Proof/Machine/State.lean ====
section
/-! DEFINITION. The machine's state: every engine instance with the state of spec 10_state.md R29, the platform and the
host's memory (20_memory.md R70), and the model's own record of what the host does next. -/

namespace Sys2Proof.Machine

/-- The outcomes a launch check or a refused access gives: the codes of R180. No other code is ever produced. -/
inductive ErrCode where
  | none
  | illegalCmd
  | noTemplate
  | scoopRange
  | addrRange
  | busError
  deriving DecidableEq, Repr

/-- The stored bits of STATUS but BUSY, which is RUN being present (R36, R53). ERRCODE holds the code of an `ErrCode`
(R41, R180), or any value once the platform lost it (U28; log 30). -/
structure Status where
  tplValid : Bool
  done : Bool
  err : Bool
  errcode : BitVec 8
  reject : Bool
  deriving DecidableEq, Repr

/-- The operand registers, stored exactly as written (R44, R45). -/
structure Operands where
  bufAddr : Word
  accountId : Word
  startNonce : Word
  count : Word
  scoop : Word
  gensig0 : Word
  gensig1 : Word
  gensig2 : Word
  gensig3 : Word
  deriving DecidableEq, Repr

/-- The latched operands L (R51). -/
structure Latched where
  buf : Word
  acct : Word
  start : Word
  count : Word
  scoop : Word
  g : HashBlock
  deriving DecidableEq, Repr

/-- The position of a running INIT (R125). -/
inductive InitPos where
  /-- Next: `CS <- HashInit(32)`. -/
  | hashInit
  /-- Next: `TPL <- DeriveFast(CS)`. -/
  | deriveFast
  /-- Next: completion. -/
  | finish
  deriving DecidableEq, Repr

/-- The registers of one lane of a running GEN (R55): the nonce of its seed, the chain blocks produced so far with the
newest (the lowest index) first, and the final digest. -/
structure Lane where
  nonce : Word
  chain : List HashBlock
  digest : HashBlock
  deriving DecidableEq, Repr

/-- The position of a running GEN inside one batch. -/
inductive GenPos where
  /-- `k` rounds are done; next is round `k + 1` (R136). -/
  | round (k : Nat)
  /-- All rounds are done; next is the final hash (R141). -/
  | final
  /-- Next is the masked HashBlock `j` of lane `l` to memory (R142, R144). -/
  | write (l j : Nat)
  deriving DecidableEq, Repr

/-- A running GEN: the index of its batch's first nonce buffer, the position in the batch, the lanes (R53, R149). -/
structure GenRun where
  first : Nat
  pos : GenPos
  lanes : List Lane
  deriving DecidableEq, Repr

/-- The position of a running SCAN inside one batch. -/
inductive ScanPos where
  /-- Next: every lane reads its scoop and hashes it (R163, R164). -/
  | fetch
  /-- Next: the batch's digests are reduced in ascending index (R171). -/
  | reduce
  deriving DecidableEq, Repr

/-- The running pair of SCAN's reduction: the least deadline so far and the buffer index that has it (R166). -/
structure Best where
  value : Word
  index : Nat
  deriving DecidableEq, Repr

/-- A running SCAN: the index of its batch's first nonce buffer, the position, the lanes' digests and the running pair
(R53, R166). -/
structure ScanRun where
  first : Nat
  pos : ScanPos
  digests : List HashBlock
  best : Best
  deriving DecidableEq, Repr

/-- RUN, the in-flight command (R53). -/
inductive Run where
  | init (p : InitPos)
  | gen (g : GenRun)
  | scan (r : ScanRun)
  /-- BUSY reads as 1 and no command is known: the platform lost the instance's state (U28). DESIGN CHOICE (log 30): it
  never ends, and it touches neither memory nor a register. -/
  | lost
  deriving DecidableEq, Repr

/-- One engine instance (R29). `raced` is the model's own: the ranges on which a race with the running command
happened (R83, R91; log 16). -/
structure Engine where
  cfg : EngineConfig
  status : Status
  doneIe : Bool
  operands : Operands
  bestDeadline : Word
  bestOffset : Word
  latched : Latched
  run : Option Run
  raced : List Range
  deriving DecidableEq, Repr

/-- The host's memory: the bytes that differ from what an unlisted address reads as, addresses strictly rising (R70). -/
abbrev Memory := List Host.Cell

/-- A byte the host holds in its cache where DMA_COHERENT = false (R89). -/
structure CacheByte where
  addr : Nat
  value : Byte
  /-- The host wrote it and has not cleaned it. -/
  dirty : Bool
  deriving DecidableEq, Repr

/-- What the last host read returned (R48, R74). -/
inductive Answer where
  | nothing
  | register (v : Word)
  | bytes (bs : List Byte)
  deriving DecidableEq, Repr

/-- One access or event from outside the engines. -/
inductive Access where
  /-- A host write of `size` bytes, value `v`, at a bus address in a register window (R47). -/
  | regWrite (addr size : Nat) (v : Word)
  /-- A host read of `size` bytes at a bus address in a register window (R48). -/
  | regRead (addr size : Nat)
  /-- A host write to memory (R82). -/
  | memWrite (addr : Nat) (bytes : List Byte)
  /-- A host read of memory (R81). -/
  | memRead (addr len : Nat)
  /-- The host cleans its cached bytes of a range (R89). -/
  | cacheClean (addr len : Nat)
  /-- The host invalidates its cached bytes of a range (R89). -/
  | cacheInvalidate (addr len : Nat)
  /-- The platform resets the instance whose window holds the bus address (R205). -/
  | reset (addr : Nat)
  /-- The platform gates the clock or the power of the instance whose window holds the bus address without keeping its
  state (R199, U28). Gating that keeps it changes nothing and is no event (log 18). -/
  | powerLoss (addr : Nat)
  /-- The host does nothing while turns of that instance pass: the `wait` of R102. -/
  | elapse (addr : Nat)
  deriving DecidableEq, Repr

/-- How many turns the addressed instance gets after an access and before the host's next one (R80, R190). -/
inductive Pace where
  | turns (n : Nat)
  /-- As many as its running command has left. -/
  | untilDone
  deriving DecidableEq, Repr

/-- A pending host access with the turns that pass after it. -/
structure Input where
  access : Access
  pace : Pace
  deriving DecidableEq, Repr

/-- The machine. `eng` is the instance the current access addresses, `peers` the others. -/
structure State where
  eng : Engine
  peers : List Engine
  plat : Platform
  mem : Memory
  hostCache : List CacheByte
  answer : Answer
  draws : Nat
  inputs : List Input
  pace : Pace
  deriving DecidableEq, Repr

/-- Why the machine stops. -/
inductive Fault where
  /-- Raised by a host memory access (never by an engine) to an address outside the memory address space (R70), or at
  which the platform's memory refuses every access: the spec does not say what the host then sees. Safe. -/
  | hostMemoryAbsent
  deriving DecidableEq, Repr

/-- What the model declines. -/
inductive Refusal where
  /-- Raised by `exec`'s arm of an instruction that has no meaning yet; no arm does. Safe. -/
  | notModelled (mnemonic : String)
  /-- Raised by a host register access that is not 8 bytes wide and naturally aligned: the spec leaves its effect
  unspecified and has a model refuse it (R50, U21). Safe. -/
  | registerAccessForm
  /-- Raised by a host register access, reset, loss of power or wait at a bus address in no instance's window. Safe. -/
  | noSuchWindow
  /-- Raised by a GEN or SCAN whose checks pass and whose REGION overlaps device memory or a register window: the spec
  has a model refuse the launch (R78, U22). Safe. -/
  | deviceRegion
  /-- Raised by a host memory access to device memory, whose behaviour the spec does not give (R79). Safe. -/
  | hostDeviceAccess
  deriving DecidableEq, Repr

/-- The latched operands at reset. DESIGN CHOICE (log 5): the spec leaves them unspecified (R51, R205). -/
def Latched.reset : Latched where
  buf := 0
  acct := 0
  start := 0
  count := 0
  scoop := 0
  g := Vector.replicate 32 0

/-- An instance right after reset (R205, R207): every register 0, CAPS its constant, IDLE, no template. -/
def Engine.reset (cfg : EngineConfig) : Engine where
  cfg := cfg
  status := { tplValid := false, done := false, err := false, errcode := 0x00, reject := false }
  doneIe := false
  operands :=
    { bufAddr := 0, accountId := 0, startNonce := 0, count := 0, scoop := 0
      gensig0 := 0, gensig1 := 0, gensig2 := 0, gensig3 := 0 }
  bestDeadline := 0
  bestOffset := 0
  latched := Latched.reset
  run := none
  raced := []

/-- The machine right after reset: one instance (R12), no host access pending, no byte of memory listed (log 6). -/
def State.reset : State where
  eng := Engine.reset EngineConfig.doc
  peers := []
  plat := Platform.default
  mem := []
  hostCache := []
  answer := .nothing
  draws := 0
  inputs := []
  pace := .turns 0

end Sys2Proof.Machine
end

