-- ==== Sys2Proof/Machine/Deadline.lean ====
section
/-! DEFINITION. The scoop digest, its deadline and the minimum reduction of SCAN (spec 43_scan.md R164 to R168). -/

namespace Sys2Proof.Machine

/-- `Hash(G ‖ A ‖ B)`, the scoop digest as the rule names it (R164). -/
def scoopDigest (bh : List Block → HashBlock) (g a b : HashBlock) : HashBlock :=
  hash bh (g.toList ++ a.toList ++ b.toList)

/-- The hash-core call of the scoop digest: `HashFast(TPL, [G ‖ A], 1, T4)` (R164). -/
def scoopCall (bh : List Block → HashBlock) (g a b : HashBlock) : HashBlock :=
  hashFast bh [g ++ a] (blockT4 b)

/-- The initial pair of the reduction (R166, R170). -/
def Best.initial : Best where
  value := BitVec.allOnes 64
  index := 0

/-- One step of the reduction: replaced only by a strictly smaller deadline (R167). -/
def Best.update (p : Best) (n : Nat) (d : Word) : Best :=
  if d < p.value then { value := d, index := n } else p

/-- The reduction over the deadlines of the buffers `n`, `n + 1`, ... in ascending index (R166, R171). -/
def reduceFrom (p : Best) (n : Nat) : List Word → Best
  | [] => p
  | d :: ds => reduceFrom (p.update n d) (n + 1) ds

end Sys2Proof.Machine
end

