-- ==== Sys2Proof/Machine/Flags.lean ====
section
/-! DEFINITION. The status bits and the words that show them: STATUS, IRQ_EN, CAPS and the interrupt output (spec
10_state.md R34, R36 to R43; 60_exceptions.md R180, R188). -/

namespace Sys2Proof.Machine

/-- The value of an error code (R180). -/
def ErrCode.code : ErrCode → BitVec 8
  | .none => 0x00
  | .illegalCmd => 0x01
  | .noTemplate => 0x02
  | .scoopRange => 0x03
  | .addrRange => 0x04
  | .busError => 0x05

/-- STATUS.BUSY: 1 while a command runs (R37, R53). -/
def Engine.busy (e : Engine) : Bool :=
  e.run.isSome

/-- STATUS as the host reads it; reserved bits read as 0 (R36). -/
def Engine.statusWord (e : Engine) : Word :=
  0#47 ++ BitVec.ofBool e.status.reject ++ e.status.errcode ++ 0#4 ++ BitVec.ofBool e.status.err ++
    BitVec.ofBool e.status.done ++ BitVec.ofBool e.status.tplValid ++ BitVec.ofBool e.busy

/-- A host write to STATUS: bit 2 clears DONE, bit 3 clears ERR and ERRCODE, bit 16 clears REJECT (R36, R39 to R42). -/
def Status.writeOneToClear (s : Status) (v : Word) : Status where
  tplValid := s.tplValid
  done := s.done && !v.getLsbD 2
  err := s.err && !v.getLsbD 3
  errcode := if v.getLsbD 3 then 0x00 else s.errcode
  reject := s.reject && !v.getLsbD 16

/-- What an accepted launch request clears (R39, R40, R111). -/
def Status.clearOutcome (s : Status) : Status :=
  { s with done := false, err := false, errcode := 0x00 }

/-- What an error sets (R181). -/
def Status.withError (s : Status) (code : ErrCode) : Status :=
  { s with done := true, err := true, errcode := code.code }

/-- The stored bits of STATUS that a word shows (R36). -/
def Status.ofWord (v : Word) : Status where
  tplValid := v.getLsbD 1
  done := v.getLsbD 2
  err := v.getLsbD 3
  errcode := v.extractLsb' 8 8
  reject := v.getLsbD 16

/-- IRQ_EN as the host reads it (R43). -/
def Engine.irqEnWord (e : Engine) : Word :=
  0#63 ++ BitVec.ofBool e.doneIe

/-- The interrupt output (R188). -/
def Engine.irq (e : Engine) : Bool :=
  e.doneIe && e.status.done

/-- CAPS[16] (R34). -/
def orderBit : ByteOrder → BitVec 1
  | .le => 0#1
  | .be => 1#1

/-- CAPS as the host reads it: WINDOW_CAP_BYTES, ADDR_BITS, VERSION 1, two reserved bits, FINAL_SEED_TAIL,
DEADLINE_ORDER, LANES (R34). -/
def capsWord (c : EngineConfig) : Word :=
  BitVec.ofNat 32 c.windowCap ++ BitVec.ofNat 8 c.addrBits ++ 1#4 ++ 0#2 ++ BitVec.ofBool c.finalSeedTail ++
    orderBit c.deadlineOrder ++ BitVec.ofNat 16 c.lanes

end Sys2Proof.Machine
end

