-- ==== Sys2Proof/Machine/Operands.lean ====
section
/-! DEFINITION. The register map, host reads and writes of registers, the latched operands, and the addresses formed from
them (spec 10_state.md R32, R44 to R51; 20_memory.md R72, R93; 42_generate.md R143). -/

namespace Sys2Proof.Machine

/-- The defined registers (R32): the fifteen rows of its table that are not reserved (log 25). -/
inductive Register where
  | caps
  | cmd
  | status
  | irqEn
  | bufAddr
  | accountId
  | startNonce
  | count
  | scoop
  | bestDeadline
  | bestOffset
  | gensig0
  | gensig1
  | gensig2
  | gensig3
  deriving DecidableEq, Repr

/-- The register at an offset of the window; `none` at a reserved offset (R32, R49). -/
def registerAt (off : Nat) : Option Register :=
  match off with
  | 0x00 => some .caps
  | 0x08 => some .cmd
  | 0x10 => some .status
  | 0x18 => some .irqEn
  | 0x20 => some .bufAddr
  | 0x28 => some .accountId
  | 0x30 => some .startNonce
  | 0x38 => some .count
  | 0x40 => some .scoop
  | 0x50 => some .bestDeadline
  | 0x58 => some .bestOffset
  | 0x60 => some .gensig0
  | 0x68 => some .gensig1
  | 0x70 => some .gensig2
  | 0x78 => some .gensig3
  | _ => none

/-- The value a host read of a register returns (R34 to R36, R43 to R46, R48). -/
def Engine.readRegister (e : Engine) : Register → Word
  | .caps => capsWord e.cfg
  | .cmd => 0
  | .status => e.statusWord
  | .irqEn => e.irqEnWord
  | .bufAddr => e.operands.bufAddr
  | .accountId => e.operands.accountId
  | .startNonce => e.operands.startNonce
  | .count => e.operands.count
  | .scoop => e.operands.scoop
  | .bestDeadline => e.bestDeadline
  | .bestOffset => e.bestOffset
  | .gensig0 => e.operands.gensig0
  | .gensig1 => e.operands.gensig1
  | .gensig2 => e.operands.gensig2
  | .gensig3 => e.operands.gensig3

/-- A host read at an offset: a reserved offset reads as 0 (R49). -/
def Engine.readOffset (e : Engine) (off : Nat) : Word :=
  match registerAt off with
  | some r => e.readRegister r
  | none => 0

/-- A host write to an operand register (R44, R45); no other register is one. -/
def Operands.write (o : Operands) (r : Register) (v : Word) : Operands :=
  match r with
  | .bufAddr => { o with bufAddr := v }
  | .accountId => { o with accountId := v }
  | .startNonce => { o with startNonce := v }
  | .count => { o with count := v }
  | .scoop => { o with scoop := v }
  | .gensig0 => { o with gensig0 := v }
  | .gensig1 => { o with gensig1 := v }
  | .gensig2 => { o with gensig2 := v }
  | .gensig3 => { o with gensig3 := v }
  | .caps | .cmd | .status | .irqEn | .bestDeadline | .bestOffset => o

/-- The effect of a host write to a register other than CMD (R47): STATUS clears, IRQ_EN takes its one defined bit, an
operand register takes the value, CAPS and the result registers ignore it. -/
def Engine.writeRegister (e : Engine) (r : Register) (v : Word) : Engine :=
  match r with
  | .status => { e with status := e.status.writeOneToClear v }
  | .irqEn => { e with doneIe := v.getLsbD 0 }
  | r => { e with operands := e.operands.write r v }

/-- A host write at an offset other than CMD's: a reserved offset ignores it (R49). -/
def Engine.writeOffset (e : Engine) (off : Nat) (v : Word) : Engine :=
  match registerAt off with
  | some r => e.writeRegister r v
  | none => e

/-- The generation signature: byte `8q + b` is byte b of GENSIGq, least significant first (R45). -/
def gensigBytes (o : Operands) : HashBlock :=
  le64 o.gensig0 ++ le64 o.gensig1 ++ le64 o.gensig2 ++ le64 o.gensig3

/-- What an accepted launch request latches (R51, R111). -/
def latch (o : Operands) : Latched where
  buf := o.bufAddr
  acct := o.accountId
  start := o.startNonce
  count := o.count
  scoop := o.scoop
  g := gensigBytes o

/-- REGION, in exact arithmetic (R72). -/
def Latched.region (l : Latched) : Range where
  base := l.buf.toNat
  len := l.count.toNat * nonceSize

/-- The REGION fits the address space (R73). -/
def Latched.fits (l : Latched) (addrBits : Nat) : Bool :=
  l.buf.toNat + l.count.toNat * nonceSize ≤ 2 ^ addrBits

/-- A GEN passes ADDR_RANGE: its REGION fits (R182), or is empty, at any base (R153; log 26). -/
def Latched.genFits (l : Latched) (addrBits : Nat) : Bool :=
  l.count == 0 || l.fits addrBits

/-- `NBASE(n)` (R72). -/
def Latched.nonceBase (l : Latched) (n : Nat) : Nat :=
  l.buf.toNat + n * nonceSize

/-- Nonce buffer `n` (R72). -/
def Latched.buffer (l : Latched) (n : Nat) : Range where
  base := l.nonceBase n
  len := nonceSize

/-- The address of HashBlock `j` of nonce buffer `n` (R72). -/
def Latched.blockAddr (l : Latched) (n j : Nat) : Nat :=
  l.nonceBase n + 32 * j

/-- The nonce value of buffer `n`: `(L.START + n) mod 2^64` (R143). -/
def Latched.nonceValue (l : Latched) (n : Nat) : Word :=
  l.start + BitVec.ofNat 64 n

/-- The address of HashBlock `2s` of nonce buffer `n`, with s = L.SCOOP (R93, R163). -/
def Latched.scoopAddrA (l : Latched) (n : Nat) : Nat :=
  l.nonceBase n + 64 * l.scoop.toNat

/-- The address of HashBlock `2(4095 - s) + 1` of nonce buffer `n` (R93, R163). -/
def Latched.scoopAddrB (l : Latched) (n : Nat) : Nat :=
  l.nonceBase n + 32 * (8191 - 2 * l.scoop.toNat)

/-- The address range of an instance's register window (R12, R32). -/
def registerWindow (c : EngineConfig) : Range where
  base := c.mmioBase
  len := windowSize

end Sys2Proof.Machine
end

