-- ==== Sys2Proof/Machine/Ops.lean ====
section
/-! DEFINITION. The shared operations: memory, address ranges, free values, races, the launch checks and what they latch,
ending a command with an error (the engine's only exception, spec 60_exceptions.md R181) and without one, reset, and loss of power. An
error has no return to model: the host acknowledges it through STATUS (R191, R192). -/

namespace Sys2Proof.Machine

/-! Memory -/

/-- What an address that is not listed reads as. DESIGN CHOICE (log 6): the spec gives memory no initial content. -/
def unlistedByte : Byte := 0x00

/-- The canonical form: addresses strictly rising, no entry equal to what an unlisted address reads as. -/
abbrev Memory.wf (m : Memory) : Prop :=
  m.Pairwise (fun x y => x.1 < y.1) ∧ ∀ c ∈ m, c.2 ≠ unlistedByte

/-- The byte at an address. -/
def Memory.read : Memory → Nat → Byte
  | [], _ => unlistedByte
  | (k, b) :: rest, a => if k = a then b else Memory.read rest a

/-- A cell in front of a memory, left out when it equals what an unlisted address reads as. -/
def Memory.consCell (a : Nat) (b : Byte) (m : Memory) : Memory :=
  if b = unlistedByte then m else (a, b) :: m

/-- Memory with one byte written; the canonical form is kept. -/
def Memory.write : Memory → Nat → Byte → Memory
  | [], a, b => Memory.consCell a b []
  | (k, c) :: rest, a, b =>
    if a < k then Memory.consCell a b ((k, c) :: rest)
    else if a = k then Memory.consCell a b rest
    else (k, c) :: Memory.write rest a b

/-- Memory with a byte string written: byte i at `a + i` (R75). -/
def Memory.writeBytes (m : Memory) (a : Nat) : List Byte → Memory
  | [] => m
  | b :: bs => Memory.writeBytes (m.write a b) (a + 1) bs

/-- The HashBlock at an address: byte i is the byte at `a + i` (R74). -/
def Memory.readBlock (m : Memory) (a : Nat) : HashBlock :=
  Vector.ofFn fun i => m.read (a + i.val)

/-- Memory with free bytes `freeByte d, freeByte (d + 1), ...` at those addresses of a range that `answers` holds for. -/
def Memory.fillFree (answers : Nat → Bool) (base d : Nat) : Nat → Memory → Memory
  | 0, m => m
  | n + 1, m =>
    let filled := Memory.fillFree answers base d n m
    if answers (base + n) then filled.write (base + n) (Config.freeByte (d + n)) else filled

/-! Address ranges -/

/-- The range holds the address. -/
def Range.holds (r : Range) (a : Nat) : Bool :=
  r.base ≤ a && a < r.base + r.len

/-- The bytes two ranges share. -/
def Range.meet (r q : Range) : Range where
  base := max r.base q.base
  len := min (r.base + r.len) (q.base + q.len) - max r.base q.base

/-- The ranges share a byte. -/
def Range.overlaps (r q : Range) : Bool :=
  0 < (Range.meet r q).len

/-- The REGION of an instance's latched operands (R72). -/
def Engine.region (e : Engine) : Range :=
  e.latched.region

/-- A byte of the range is one of those a SCAN of these operands reads (R93). -/
def Latched.scanReads (l : Latched) (r : Range) : Bool :=
  (List.range l.count.toNat).any fun n =>
    Range.overlaps r { base := l.scoopAddrA n, len := 32 } || Range.overlaps r { base := l.scoopAddrB n, len := 32 }

/-- The nonce buffers of a REGION that share a byte with a range that overlaps it, as the one range they make up: from the
buffer of the range's first byte, or buffer 0 where that byte lies below the REGION, to the buffer of its last byte, or the
last buffer where that byte lies above. -/
def Latched.buffersOver (l : Latched) (r : Range) : Range :=
  let first := (r.base - l.buf.toNat) / nonceSize
  let stop := min l.count.toNat ((r.base + r.len - 1 - l.buf.toNat) / nonceSize + 1)
  { base := l.nonceBase first, len := (stop - first) * nonceSize }

/-- Every instance of the platform. -/
def State.engines (s : State) : List Engine :=
  s.eng :: s.peers

/-- The memory system answers an access to this address (R74, R75). -/
def State.answersAt (s : State) (a : Nat) : Bool :=
  !s.plat.absent.any fun r => Range.holds r a

/-- The memory system admits a 32-byte engine access at this address (R74, R75). -/
def State.admitsBlock (s : State) (a : Nat) : Bool :=
  !s.plat.absent.any fun r => Range.overlaps r { base := a, len := 32 }

/-- Device memory: the platform's devices and every instance's register window (R78). -/
def State.deviceRanges (s : State) : List Range :=
  s.plat.devices ++ s.engines.map fun e => registerWindow e.cfg

/-- The range overlaps device memory (R78). -/
def State.touchesDevice (s : State) (r : Range) : Bool :=
  s.deviceRanges.any fun d => Range.overlaps d r

/-! Named updates of the state -/

/-- The state with the addressed instance replaced. -/
def State.withEng (s : State) (e : Engine) : State :=
  { s with eng := e }

/-- The state with memory replaced. -/
def State.withMem (s : State) (m : Memory) : State :=
  { s with mem := m }

/-- The state with an answer for the host. -/
def State.withAnswer (s : State) (a : Answer) : State :=
  { s with answer := a }

/-- The state with free values used up. -/
def State.drawn (s : State) (n : Nat) : State :=
  { s with draws := s.draws + n }

/-- The state with every address of the range that the memory system answers at set to a free byte (R83, R183, R206). -/
def State.freeRange (s : State) (r : Range) : State :=
  { s with mem := s.mem.fillFree s.answersAt r.base s.draws r.len, draws := s.draws + r.len }

/-- The state with several ranges set to free bytes. -/
def State.freeRanges (s : State) : List Range → State
  | [] => s
  | r :: rest => (s.freeRange r).freeRanges rest

/-! Races -/

/-- The effect on a running command of a write by another agent to a range: the whole REGION of a GEN, or the result of
a SCAN that reads there, becomes unspecified (R83). -/
def Engine.raceWrite (r : Range) (e : Engine) : Engine :=
  match e.run with
  | some (.gen _) => if Range.overlaps r e.region then { e with raced := e.region :: e.raced } else e
  | some (.scan _) => if e.latched.scanReads r then { e with raced := r :: e.raced } else e
  | some (.init _) | some .lost | none => e

/-- The effect on a running command of a command running beside it on another instance (R91; log 16): a GEN loses the nonce
buffers that share a byte with the other REGION, because every stored byte of a nonce buffer depends on every chain block of
it (R148) and on no other buffer; a SCAN that reads where a GEN writes loses its result. Two SCANs do not race. -/
def Engine.contend (e other : Engine) : Engine :=
  match e.run, other.run with
  | some (.gen _), some (.gen _) | some (.gen _), some (.scan _) =>
    if Range.overlaps e.region other.region then { e with raced := e.latched.buffersOver other.region :: e.raced } else e
  | some (.scan _), some (.gen _) =>
    if e.latched.scanReads other.region then { e with raced := other.region :: e.raced } else e
  | _, _ => e

/-- The races between the addressed instance's command, just started, and the commands running on its peers (R91). -/
def State.contend (s : State) : State :=
  { s with eng := s.peers.foldl Engine.contend s.eng, peers := s.peers.map fun p => p.contend s.eng }

/-- A write by the host to memory, as every instance sees it (R83). -/
def State.raceWrite (s : State) (r : Range) : State :=
  { s with eng := s.eng.raceWrite r, peers := s.peers.map (Engine.raceWrite r) }

/-- The address is in the REGION of a running GEN of some instance: a host read there returns any value (R83). -/
def State.genOwned (s : State) (a : Nat) : Bool :=
  s.engines.any fun e =>
    match e.run with
    | some (.gen _) => Range.holds e.region a
    | some (.scan _) | some (.init _) | some .lost | none => false

/-! The command lifecycle -/

/-- LaunchCheck: the first failing check, in this order, gives the code; `none` for the operation is ILLEGAL (R182). An
empty GEN passes ADDR_RANGE at any base, as R153 says of GEN alone (log 26). -/
def launchCheck (op : Option Instr) (l : Latched) (tplValid : Bool) (addrBits : Nat) : ErrCode :=
  match op with
  | none => .illegalCmd
  | some .init => .none
  | some .gen =>
    if !tplValid then .noTemplate
    else if !l.genFits addrBits then .addrRange
    else .none
  | some .scan =>
    if !tplValid then .noTemplate
    else if 4095 < l.scoop.toNat then .scoopRange
    else if !l.fits addrBits then .addrRange
    else .none

/-- An accepted launch request clears the last outcome and latches the operands (R111). -/
def Engine.accept (e : Engine) : Engine :=
  { e with status := e.status.clearOutcome, latched := latch e.operands }

/-- A CMD write while BUSY = 1 sets REJECT and changes nothing else (R112). -/
def Engine.refuse (e : Engine) : Engine :=
  { e with status := { e.status with reject := true } }

/-- The start of a command (R113). -/
def Engine.start (e : Engine) (r : Run) : Engine :=
  { e with run := some r, raced := [] }

/-- The position of a running command moves on. -/
def Engine.moveTo (e : Engine) (r : Run) : Engine :=
  { e with run := some r }

/-- `raise Error(code)`: the command ends in one step with ERR, ERRCODE and DONE set and BUSY clear; RUN is discarded, the
template and the result registers stay (R111, R181). -/
def Engine.raise (e : Engine) (code : ErrCode) : Engine :=
  { e with status := e.status.withError code, run := none, raced := [] }

/-- Completion without an error: DONE is set, BUSY clear, RUN discarded (R117). -/
def Engine.complete (e : Engine) : Engine :=
  { e with status := { e.status with done := true }, run := none, raced := [] }

/-- The template is built (R125, R127). -/
def Engine.buildTemplate (e : Engine) : Engine :=
  { e with status := { e.status with tplValid := true } }

/-- The result registers of a SCAN (R46, R166). -/
def Engine.withBest (e : Engine) (value offset : Word) : Engine :=
  { e with bestDeadline := value, bestOffset := offset }

/-! Reset and loss of power -/

/-- What memory is left with when the running command is abandoned: of a GEN, every byte of the REGION at any value
(R206). -/
def State.abandon (s : State) : State :=
  match s.eng.run with
  | some (.gen _) => s.freeRange s.eng.region
  | some (.scan _) | some (.init _) | some .lost | none => s

/-- Reset of the addressed instance (R205, R206). -/
def State.resetEngine (s : State) : State :=
  s.abandon.withEng (Engine.reset s.eng.cfg)

/-- The operand registers at the free values `freeWord d, ..., freeWord (d + 8)`. -/
def Operands.free (d : Nat) : Operands where
  bufAddr := Config.freeWord d
  accountId := Config.freeWord (d + 1)
  startNonce := Config.freeWord (d + 2)
  count := Config.freeWord (d + 3)
  scoop := Config.freeWord (d + 4)
  gensig0 := Config.freeWord (d + 5)
  gensig1 := Config.freeWord (d + 6)
  gensig2 := Config.freeWord (d + 7)
  gensig3 := Config.freeWord (d + 8)

/-- The latched operands at five free words and 32 free bytes. -/
def Latched.free (d : Nat) : Latched where
  buf := Config.freeWord d
  acct := Config.freeWord (d + 1)
  start := Config.freeWord (d + 2)
  count := Config.freeWord (d + 3)
  scoop := Config.freeWord (d + 4)
  g := Vector.ofFn fun i => Config.freeByte (d + 5 + i.val)

/-- How many free values an instance that lost its state takes. -/
abbrev unretainedDraws : Nat := 50

/-- An instance whose state the platform lost: every register at any value (U28), CAPS its constant (R34), and BUSY by
itself: no command is known. Where TPL_VALID comes out 1, GEN and SCAN hash from the template's constant as after INIT (R52,
R126). DESIGN CHOICE (log 30) for both. -/
def Engine.unretained (e : Engine) (d : Nat) : Engine where
  cfg := e.cfg
  status := Status.ofWord (Config.freeWord d)
  doneIe := (Config.freeWord (d + 1)).getLsbD 0
  operands := Operands.free (d + 2)
  bestDeadline := Config.freeWord (d + 11)
  bestOffset := Config.freeWord (d + 12)
  latched := Latched.free (d + 13)
  run := if (Config.freeWord d).getLsbD 0 then some .lost else none
  raced := []

/-- The addressed instance loses its state (R199, U28). A GEN this abandons leaves every byte of its REGION at any value,
as a reset does (R206; DESIGN CHOICE, log 30). -/
def State.losePower (s : State) : State :=
  (s.abandon.withEng (s.eng.unretained s.abandon.draws)).drawn unretainedDraws

end Sys2Proof.Machine
end

