-- ==== Sys2Proof/Machine/Plot.lean ====
section
/-! DEFINITION. The per-nonce chain of GEN (spec 42_generate.md R133 to R145): the logical round message and PlotNonce as the
pseudocode gives them, and the hash-core call of each round as the block schedule gives it. -/

namespace Sys2Proof.Machine

/-- CB: the window cap in HashBlocks (R7). -/
def capBlocks (c : EngineConfig) : Nat :=
  c.windowCap / 32

/-- M_k, the logical message of round `k`, from the chain above (`X[j+1]` first) and the seed (R136). -/
def roundMessage (cb k : Nat) (above : List HashBlock) (seed : Vector Byte 16) : List Byte :=
  if k ≤ cb then concatBlocks above ++ seed.toList else concatBlocks (above.take cb)

/-- The chain after `k` rounds, `X[8192 - k]` first (R135, R136, R144). -/
def chainAfter (bh : List Block → HashBlock) (cb : Nat) (seed : Vector Byte 16) : Nat → List HashBlock
  | 0 => []
  | k + 1 =>
    let above := chainAfter bh cb seed k
    hash bh (roundMessage cb (k + 1) above seed) :: above

/-- The message of the final hash (R141). -/
def finalMessage (tail : Bool) (chain : List HashBlock) (seed : Vector Byte 16) : List Byte :=
  concatBlocks chain ++ (if tail then seed.toList else [])

/-- `PlotNonce(a, v)`: the 8192 stored HashBlocks `P[0], ..., P[8191]` (R142, R144). -/
def plotNonce (bh : List Block → HashBlock) (cfg : EngineConfig) (a v : Word) : List HashBlock :=
  let chain := chainAfter bh (capBlocks cfg) (s16 a v) blocksPerNonce
  let digest := hash bh (finalMessage cfg.finalSeedTail chain (s16 a v))
  chain.map fun x => xorBlock x digest

/-- Consecutive HashBlocks paired into 64-byte message blocks; an odd last one is left out. -/
def pairBlocks : List HashBlock → List Block
  | x :: y :: rest => (x ++ y) :: pairBlocks rest
  | _ => []

/-- V(k), the shape of round k's final block: a function of the round index only (R139). -/
inductive FinalShape where
  | t1
  | t2
  | t3
  deriving DecidableEq, Repr

/-- The final-block shape of round `k` (R139). -/
def roundShape (cb k : Nat) : FinalShape :=
  if cb < k then .t3 else if k % 2 = 1 then .t1 else .t2

/-- K(k), the number of full data blocks of round `k` (R139). -/
def roundBlocks (cb k : Nat) : Nat :=
  if cb < k then cb / 2 else (k - 1) / 2

/-- The final block of a shape, for account `a`, nonce `v` and the chain above, whose last block is the first-round
output (R20, R139). -/
def finalBlock (shape : FinalShape) (a v : Word) (above : List HashBlock) : Block :=
  match shape with
  | .t1 => blockT1 a v
  | .t2 => blockT2 (above.getLastD zero32) a v
  | .t3 => blockT3

/-- D(k), the full data blocks of round `k` (R139): the whole chain above, the chain but X[8191], or the capped window. -/
def roundData (cb k : Nat) (above : List HashBlock) : List Block :=
  match roundShape cb k with
  | .t1 => pairBlocks above
  | .t2 => pairBlocks above.dropLast
  | .t3 => pairBlocks (above.take cb)

/-- The hash-core call of round `k`: `X[8192 - k] = HashFast(TPL, D(k), K(k), V(k))` (R139). -/
def roundCall (bh : List Block → HashBlock) (cb k : Nat) (a v : Word) (above : List HashBlock) : HashBlock :=
  hashFast bh (roundData cb k above) (finalBlock (roundShape cb k) a v above)

/-- The hash-core call of the final hash (R141). -/
def finalCall (bh : List Block → HashBlock) (tail : Bool) (a v : Word) (chain : List HashBlock) : HashBlock :=
  hashFast bh (pairBlocks chain) (finalBlock (if tail then .t1 else .t3) a v chain)

/-- The 64-byte compressions of one GEN nonce: the data blocks and the final block of the hash-core call of each of the
8192 rounds (`roundCall`), and of that of the final hash (`finalCall`), over the nonce's own chain (R220). -/
def nonceCompressions (bh : List Block → HashBlock) (cb : Nat) (a v : Word) : Nat :=
  ((List.range blocksPerNonce).map fun k =>
      (roundData cb (k + 1) (chainAfter bh cb (s16 a v) k)).length + 1).sum +
    ((pairBlocks (chainAfter bh cb (s16 a v) blocksPerNonce)).length + 1)

end Sys2Proof.Machine
end

