-- ==== Sys2Proof/Machine/Run.lean ====
section
/-! DEFINITION. The engine's own turns: what one turn does to a running INIT, GEN or SCAN, its completion and its bus error
(spec 40_lifecycle.md R114 to R118; 41_init.md R125; 42_generate.md R139 to R150; 43_scan.md R163 to R171; 60_exceptions.md
R183), how many turns are left, and the launch of a command with the turns that follow it (R111 to R113). -/

namespace Sys2Proof.Machine

/-! INIT -/

/-- One turn of a running INIT: `CS <- HashInit(32)`, then `TPL <- DeriveFast(CS)`, then completion with TPL_VALID = 1
(R125). The content of CS and TPL is a constant of the hash core and is not state (R52, R126; log 19). -/
def initTurn (p : InitPos) (s : State) : State :=
  match p with
  | .hashInit => s.withEng (s.eng.moveTo (.init .deriveFast))
  | .deriveFast => s.withEng (s.eng.moveTo (.init .finish))
  | .finish => s.withEng s.eng.buildTemplate.complete

/-! Batches of lanes -/

/-- The lanes of the batch whose first nonce buffer is `first`: W, or what is left of COUNT (R149, R171). -/
def batchLanes (cfg : EngineConfig) (l : Latched) (first : Nat) : Nat :=
  min cfg.lanes (l.count.toNat - first)

/-! GEN -/

/-- A lane before round 1, its seed holding the nonce of buffer `n` (R134, R143). -/
def Lane.fresh (l : Latched) (n : Nat) : Lane where
  nonce := l.nonceValue n
  chain := []
  digest := zero32

/-- Round `k` on one lane (R139). -/
def Lane.round (bh : List Block → HashBlock) (cb k : Nat) (acct : Word) (x : Lane) : Lane :=
  { x with chain := roundCall bh cb k acct x.nonce x.chain :: x.chain }

/-- The final hash on one lane (R141). -/
def Lane.finish (bh : List Block → HashBlock) (tail : Bool) (acct : Word) (x : Lane) : Lane :=
  { x with digest := finalCall bh tail acct x.nonce x.chain }

/-- The masked HashBlock `j` of a lane (R142). -/
def Lane.stored (x : Lane) (j : Nat) : HashBlock :=
  xorBlock (x.chain.getD j zero32) x.digest

/-- A GEN at the start of the batch whose first nonce buffer is `first`: lane `i` holds buffer `first + i` (R149). -/
def genBatch (cfg : EngineConfig) (l : Latched) (first : Nat) : GenRun where
  first := first
  pos := .round 0
  lanes := (List.range (batchLanes cfg l first)).map fun i => Lane.fresh l (first + i)

/-- Where a GEN goes after the HashBlock `j` of lane `i` is written: the lane's next HashBlock, the next lane, or the next
batch. -/
def genAfterWrite (cfg : EngineConfig) (l : Latched) (g : GenRun) (i j : Nat) : GenRun :=
  if j + 1 < blocksPerNonce then { g with pos := .write i (j + 1) }
  else if i + 1 < batchLanes cfg l g.first then { g with pos := .write (i + 1) 0 }
  else genBatch cfg l (g.first + batchLanes cfg l g.first)

/-- Completion of a GEN (R117): no result register. Bytes on which a race happened are at any value (R83, R91). -/
def genComplete (s : State) : State :=
  let freed := s.freeRanges s.eng.raced
  freed.withEng freed.eng.complete

/-- The memory system refuses a write of a GEN: BUS_ERROR, and every byte of the REGION is at any value (R75, R183; log
13). -/
def genBusError (s : State) : State :=
  let freed := s.freeRange s.eng.region
  freed.withEng (freed.eng.raise .busError)

/-- One turn of a running GEN: a round on all lanes, the final hash on all lanes, one 32-byte write, or completion. DESIGN
CHOICE (log 28): chain blocks stay in the lanes until the mask, and only masked HashBlocks reach memory; R84 and U19 leave
open whether the chain reaches memory before. -/
def genTurn (g : GenRun) (s : State) : State :=
  let l := s.eng.latched
  if g.first < l.count.toNat then
    match g.pos with
    | .round k =>
      let lanes := g.lanes.map (Lane.round Config.bh (capBlocks s.eng.cfg) (k + 1) l.acct)
      let pos := if k + 1 < blocksPerNonce then GenPos.round (k + 1) else GenPos.final
      s.withEng (s.eng.moveTo (.gen { g with pos := pos, lanes := lanes }))
    | .final =>
      let lanes := g.lanes.map (Lane.finish Config.bh s.eng.cfg.finalSeedTail l.acct)
      s.withEng (s.eng.moveTo (.gen { g with pos := .write 0 0, lanes := lanes }))
    | .write i j =>
      let a := l.blockAddr (g.first + i) j
      if s.admitsBlock a then
        let block := (g.lanes.getD i (Lane.fresh l (g.first + i))).stored j
        (s.withMem (s.mem.writeBytes a block.toList)).withEng
          (s.eng.moveTo (.gen (genAfterWrite s.eng.cfg l g i j)))
      else genBusError s
  else genComplete s

/-! SCAN -/

/-- A SCAN at the start of the batch whose first nonce buffer is `first`. -/
def scanBatch (first : Nat) (best : Best) : ScanRun where
  first := first
  pos := .fetch
  digests := []
  best := best

/-- The memory system admits both reads of nonce buffer `n` (R74, R163). -/
def State.admitsScoop (s : State) (n : Nat) : Bool :=
  s.admitsBlock (s.eng.latched.scoopAddrA n) && s.admitsBlock (s.eng.latched.scoopAddrB n)

/-- The scoop digest of nonce buffer `n` (R163, R164). -/
def State.scoopDigestOf (s : State) (n : Nat) : HashBlock :=
  scoopCall Config.bh s.eng.latched.g (s.mem.readBlock (s.eng.latched.scoopAddrA n))
    (s.mem.readBlock (s.eng.latched.scoopAddrB n))

/-- Completion of a SCAN: the result registers take the running pair (R117, R166), or any value after a race (R83, R91). -/
def scanComplete (best : Best) (s : State) : State :=
  if s.eng.raced.isEmpty then s.withEng (s.eng.withBest best.value (BitVec.ofNat 64 best.index)).complete
  else
    { s.withEng (s.eng.withBest (Config.freeWord s.draws) (Config.freeWord (s.draws + 1))).complete with
      draws := s.draws + 2 }

/-- One turn of a running SCAN: the reads and digests of a batch, the batch's reduction, or completion. A refused read is
BUS_ERROR, with the result registers and memory as they were (R74, R174, R183). -/
def scanTurn (r : ScanRun) (s : State) : State :=
  let lanes := batchLanes s.eng.cfg s.eng.latched r.first
  if r.first < s.eng.latched.count.toNat then
    match r.pos with
    | .fetch =>
      if (List.range lanes).all fun i => s.admitsScoop (r.first + i) then
        let digests := (List.range lanes).map fun i => s.scoopDigestOf (r.first + i)
        s.withEng (s.eng.moveTo (.scan { r with pos := .reduce, digests := digests }))
      else s.withEng (s.eng.raise .busError)
    | .reduce =>
      let best := reduceFrom r.best r.first (r.digests.map (deadline s.eng.cfg.deadlineOrder))
      s.withEng (s.eng.moveTo (.scan (scanBatch (r.first + lanes) best)))
  else scanComplete r.best s

/-! Turns and launches -/

/-- One turn of the addressed instance; idle, it does nothing (R199), nor with its command lost (log 30). -/
def turn (s : State) : State :=
  match s.eng.run with
  | none => s
  | some (.init p) => initTurn p s
  | some (.gen g) => genTurn g s
  | some (.scan r) => scanTurn r s
  | some .lost => s

/-- `n` turns; an idle instance stays as it is. -/
def runTurns : Nat → State → State
  | 0, s => s
  | n + 1, s => if s.eng.busy then runTurns n (turn s) else s

/-- The batches of `n` nonce buffers (R149). -/
def batches (cfg : EngineConfig) (n : Nat) : Nat :=
  (n + cfg.lanes - 1) / cfg.lanes

/-- The turns of a GEN from the start of a batch, with `n` nonce buffers still to make. -/
def genTurns (cfg : EngineConfig) (n : Nat) : Nat :=
  batches cfg n * (blocksPerNonce + 1) + n * blocksPerNonce + 1

/-- The turns a running GEN has left. -/
def genTurnsLeft (cfg : EngineConfig) (l : Latched) (g : GenRun) : Nat :=
  if g.first < l.count.toNat then
    let lanes := batchLanes cfg l g.first
    let after := genTurns cfg (l.count.toNat - (g.first + lanes))
    match g.pos with
    | .round k => (blocksPerNonce - 1 - k) + 2 + lanes * blocksPerNonce + after
    | .final => 1 + lanes * blocksPerNonce + after
    | .write i j => (lanes - 1 - i) * blocksPerNonce + (blocksPerNonce - 1 - j) + 1 + after
  else 1

/-- The turns a running SCAN has left. -/
def scanTurnsLeft (cfg : EngineConfig) (l : Latched) (r : ScanRun) : Nat :=
  let here := 2 * batches cfg (l.count.toNat - r.first) + 1
  match r.pos with
  | .fetch => here
  | .reduce => if r.first < l.count.toNat then here - 1 else here

/-- The turns the running command has left if no access is refused: a function of the command, COUNT and the position only,
never of data (R115, R118). -/
def turnsLeft (e : Engine) : Nat :=
  match e.run with
  | none => 0
  | some (.init .hashInit) => 3
  | some (.init .deriveFast) => 2
  | some (.init .finish) => 1
  | some (.gen g) => genTurnsLeft e.cfg e.latched g
  | some (.scan r) => scanTurnsLeft e.cfg e.latched r
  | some .lost => 0

/-- The turns the pace of the current access grants the addressed instance. -/
def grantedTurns (s : State) : Nat :=
  match s.pace with
  | .turns n => n
  | .untilDone => turnsLeft s.eng

/-- The turns that pass after an access and before the host's next one (R80, R190; log 11). -/
def grant (s : State) : Host.Outcome State Fault Refusal :=
  .next (runTurns (grantedTurns s) s)

/-- A launch request (R110 to R113): refused while BUSY; else it latches and checks; a failed check ends it at once, and
otherwise `begin` starts the command. The granted turns follow. -/
def launch (op : Option Instr) (begin : State → Host.Outcome State Fault Refusal) (s : State) :
    Host.Outcome State Fault Refusal :=
  if s.eng.busy then grant (s.withEng s.eng.refuse)
  else
    let e := s.eng.accept
    match launchCheck op e.latched e.status.tplValid e.cfg.addrBits with
    | .none => begin (s.withEng e)
    | code => grant (s.withEng (e.raise code))

/-- The start of a GEN or SCAN whose checks passed: a REGION that overlaps device memory is refused (R78), races with
commands running on other instances are marked (R91), and the granted turns follow. -/
def startOnRegion (r : Run) (s : State) : Host.Outcome State Fault Refusal :=
  if s.touchesDevice s.eng.region then .refused .deviceRegion
  else grant (s.withEng (s.eng.start r)).contend

/-- A CMD write of an ILLEGAL word: ILLEGAL_CMD and no other effect (R99, R182). -/
def illegalCommand (s : State) : Host.Outcome State Fault Refusal :=
  launch none grant s

end Sys2Proof.Machine
end

