-- ==== Sys2Proof/Machine/Gen.lean ====
section
/-! DEFINITION. The meaning of GEN (spec 42_generate.md R144). -/

namespace Sys2Proof.Machine

/-- GEN: generate COUNT nonce buffers (R144), from the batch that starts at buffer 0. -/
def execGen (s : State) : Host.Outcome State Fault Refusal :=
  launch (some .gen) (fun t => startOnRegion (.gen (genBatch t.eng.cfg t.eng.latched 0)) t) s

end Sys2Proof.Machine
end

