-- ==== Sys2Proof/Machine/Init.lean ====
section
/-! DEFINITION. The meaning of INIT (spec 41_init.md R125). -/

namespace Sys2Proof.Machine

/-- INIT: build the hash template (R125). It has no operand and no check; while BUSY it is refused (R112). -/
def execInit (s : State) : Host.Outcome State Fault Refusal :=
  launch (some .init) (fun t => grant (t.withEng (t.eng.start (.init .hashInit)))) s

end Sys2Proof.Machine
end

