-- ==== Sys2Proof/Machine/Scan.lean ====
section
/-! DEFINITION. The meaning of SCAN (spec 43_scan.md R166). -/

namespace Sys2Proof.Machine

/-- SCAN: find the least deadline over COUNT nonces for one scoop (R166), from the initial pair at buffer 0. -/
def execScan (s : State) : Host.Outcome State Fault Refusal :=
  launch (some .scan) (startOnRegion (.scan (scanBatch 0 Best.initial))) s

end Sys2Proof.Machine
end

