-- ==== Sys2Proof/Machine/Access.lean ====
section
/-! DEFINITION. What an access from outside the engines does: register writes and reads, host memory accesses with the
host's cache where the platform is not coherent, reset, loss of power, and turns passing (spec 10_state.md R47 to R50;
20_memory.md R81 to R83, R89; 60_exceptions.md R199; 70_reset_and_hazards.md R205, R206). -/

namespace Sys2Proof.Machine

/-! The addressed instance -/

/-- The first peer that meets a test, with the peers as they stand once `e` takes its place. -/
def swapIn (p : Engine → Bool) (e : Engine) : List Engine → Option (Engine × List Engine)
  | [] => none
  | q :: qs => if p q then some (q, e :: qs) else (swapIn p e qs).map fun x => (x.1, q :: x.2)

/-- The bus address lies in the instance's register window (R12, R32). -/
def Engine.windowHolds (a : Nat) (e : Engine) : Bool :=
  Range.holds (registerWindow e.cfg) a

/-- The state in which the instance that meets the test is the addressed one. -/
def State.focusOn (p : Engine → Bool) (s : State) : Option State :=
  if p s.eng then some s else (swapIn p s.eng s.peers).map fun x => { s with eng := x.1, peers := x.2 }

/-- The state in which the instance whose window holds the bus address is the addressed one (R12, R197). -/
def State.focus (s : State) (a : Nat) : Option State :=
  s.focusOn (Engine.windowHolds a)

/-- What follows when the bus address is in some window, with its offset in it. -/
def State.atWindow (s : State) (a : Nat) (k : Nat → State → Host.Outcome State Fault Refusal) :
    Host.Outcome State Fault Refusal :=
  match s.focus a with
  | none => .refused .noSuchWindow
  | some t => k (a - t.eng.cfg.mmioBase) t

/-! Registers -/

/-- A host write to CMD (R35, R110): the word is decoded and the command requested. While BUSY every word is refused in the
same way (R112). -/
def commandWrite (v : Word) (s : State) : Host.Outcome State Fault Refusal :=
  match decode v with
  | .ok i => exec i s
  | .error _ => illegalCommand s

/-- The offset of CMD (R32). -/
def cmdOffset : Nat := 0x08

/-- A host register write (R47, R50). -/
def registerWrite (a size : Nat) (v : Word) (s : State) : Host.Outcome State Fault Refusal :=
  s.atWindow a fun off t =>
    if registerAccessWf a size then
      if off = cmdOffset then commandWrite v t else grant (t.withEng (t.eng.writeOffset off v))
    else .refused .registerAccessForm

/-- A host register read: no side effect on the engine (R48, R50). -/
def registerRead (a size : Nat) (s : State) : Host.Outcome State Fault Refusal :=
  s.atWindow a fun off t =>
    if registerAccessWf a size then grant (t.withAnswer (.register (t.eng.readOffset off)))
    else .refused .registerAccessForm

/-! Host memory accesses -/

/-- The host's cached byte of an address. -/
def cacheLookup (a : Nat) (cache : List CacheByte) : Option CacheByte :=
  cache.find? fun c => c.addr == a

/-- The cache with a byte put in, in place of what it held for that address. -/
def cachePut (c : CacheByte) (cache : List CacheByte) : List CacheByte :=
  c :: cache.filter fun d => d.addr != c.addr

/-- A byte of the host reaches memory, racing with what runs there (R82, R83). -/
def storeByte (s : State) (a : Nat) (b : Byte) : State :=
  (s.raceWrite { base := a, len := 1 }).withMem (s.mem.write a b)

/-- A host write of a byte string: to memory, or to the host's cache where the platform is not coherent (R89). Either way
it races with a command that owns the byte (R83). -/
def hostStore (s : State) (a : Nat) : List Byte → State
  | [] => s
  | b :: bs =>
    let t :=
      if s.plat.dmaCoherent then storeByte s a b
      else
        { s.raceWrite { base := a, len := 1 } with
          hostCache := cachePut { addr := a, value := b, dirty := true } s.hostCache }
    hostStore t (a + 1) bs

/-- The host's cached byte of an address; none where the platform is coherent (R89). -/
def State.cached (s : State) (a : Nat) : Option CacheByte :=
  if s.plat.dmaCoherent then none else cacheLookup a s.hostCache

/-- What a host read that returned `b` leaves in the host's cache: a clean byte at an address not cached before, nothing
where the platform is coherent. DESIGN CHOICE (logs 4, 29): the spec does not say what a read leaves there. -/
def State.cacheFill (s : State) (a : Nat) (b : Byte) : State :=
  if s.plat.dmaCoherent || (cacheLookup a s.hostCache).isSome then s
  else { s with hostCache := cachePut { addr := a, value := b, dirty := false } s.hostCache }

/-- A host read of one byte: any value in the REGION of a running GEN (R83); else the host's cached byte, or memory (R89).
DESIGN CHOICE (log 29; R27, R83, R89 and R213 leave it open): where the platform is not coherent the any-value byte of a
running GEN's REGION stays in the cache like every byte read, so that a read after DONE returns it again unless the host
invalidates first; an address cached before keeps its cached byte. -/
def hostLoadByte (s : State) (a : Nat) : Byte × State :=
  if s.genOwned a then
    (Config.freeByte s.draws, (s.cacheFill a (Config.freeByte s.draws)).drawn 1)
  else
    match s.cached a with
    | some c => (c.value, s)
    | none => (s.mem.read a, s.cacheFill a (s.mem.read a))

/-- A host read of `n` bytes in address order. -/
def hostLoad (s : State) (a : Nat) : Nat → List Byte × State
  | 0 => ([], s)
  | n + 1 =>
    let x := hostLoadByte s a
    let y := hostLoad x.2 (a + 1) n
    (x.1 :: y.1, y.2)

/-- The dirty cached bytes of a range reach memory (R89). -/
def cleanBytes (r : Range) (s : State) : List CacheByte → State
  | [] => s
  | c :: rest =>
    cleanBytes r (if c.dirty && Range.holds r c.addr then storeByte s c.addr c.value else s) rest

/-- The host cleans a range: its dirty bytes reach memory and stay cached. Nothing to do where the platform is coherent
(R89). -/
def cacheClean (s : State) (r : Range) : State :=
  let t := cleanBytes r s s.hostCache
  { t with hostCache := t.hostCache.map fun c => if Range.holds r c.addr then { c with dirty := false } else c }

/-- The host invalidates a range: its cached bytes there are gone (R89). -/
def cacheInvalidate (s : State) (r : Range) : State :=
  { s with hostCache := s.hostCache.filter fun c => !Range.holds r c.addr }

/-- The end of the memory address space: 2^ADDR_BITS, the widest one where instances differ (R11, R70). -/
def State.memoryEnd (s : State) : Nat :=
  s.engines.foldl (fun m e => max m (2 ^ e.cfg.addrBits)) 0

/-- A host memory access goes on when every byte of it is memory that exists, answers and is not a device (R70, R79). -/
def State.atMemory (s : State) (r : Range) (k : State → Host.Outcome State Fault Refusal) :
    Host.Outcome State Fault Refusal :=
  if s.touchesDevice r then .refused .hostDeviceAccess
  else if s.memoryEnd < r.base + r.len || s.plat.absent.any (fun d => Range.overlaps d r) then .fault .hostMemoryAbsent
  else k s

/-! Every access -/

/-- One access from outside the engines, followed by the turns its pace grants. -/
def performAccess (x : Access) (s : State) : Host.Outcome State Fault Refusal :=
  match x with
  | .regWrite a size v => registerWrite a size v s
  | .regRead a size => registerRead a size s
  | .memWrite a bs => s.atMemory { base := a, len := bs.length } fun t => grant (hostStore t a bs)
  | .memRead a n =>
    s.atMemory { base := a, len := n } fun t => grant ((hostLoad t a n).2.withAnswer (.bytes (hostLoad t a n).1))
  | .cacheClean a n => grant (cacheClean s { base := a, len := n })
  | .cacheInvalidate a n => grant (cacheInvalidate s { base := a, len := n })
  | .reset a => s.atWindow a fun _ t => grant t.resetEngine
  | .powerLoss a => s.atWindow a fun _ t => grant t.losePower
  | .elapse a => s.atWindow a fun _ t => grant t

/-- A command runs on the instance and its turns do something. -/
def Engine.advances (e : Engine) : Bool :=
  match e.run with
  | some (.init _) | some (.gen _) | some (.scan _) => true
  | some .lost | none => false

/-- With no access pending the engines run alone: the addressed instance, or the first peer with a command (R118, R199;
log 24). -/
def runAlone (s : State) : State :=
  match s.focusOn Engine.advances with
  | some t => turn t
  | none => s

/-- The state once its first input is taken, its pace the current one. -/
def State.take (s : State) (x : Input) (rest : List Input) : State :=
  { s with inputs := rest, pace := x.pace }

/-- One step of the machine: the next access with the turns granted after it, or a turn of the engines alone. -/
def stepMachine (s : State) : Host.Outcome State Fault Refusal :=
  match s.inputs with
  | [] => .next (runAlone s)
  | x :: rest => performAccess x.access (s.take x rest)

/-- The host's CMD write of a word to the addressed instance, followed by a wait for its completion. -/
def commandInput (e : Engine) (v : Word) : Input where
  access := .regWrite (e.cfg.mmioBase + cmdOffset) 8 v
  pace := .untilDone

/-- The state with an opcode-table word as the host's next CMD write (R31, R88; log 11). -/
def placeCommand (s : State) (nbits w : Nat) : State :=
  { s with inputs := commandInput s.eng (BitVec.ofNat 64 (tableWord nbits w)) :: s.inputs }

end Sys2Proof.Machine
end

