-- ==== Sys2Proof/Machine/Step.lean ====
section
/-! DEFINITION. One step of the machine, and an opcode-table word placed where the next step takes it from. -/

namespace Sys2Proof.Machine

/-- One step: the next access from outside the engines, or a turn of the engines alone. -/
def step (s : State) : Host.Outcome State Fault Refusal :=
  stepMachine s

/-- `s` with the word as the host's next CMD write: the engine fetches nothing, a command is a register write (R31,
R88). -/
def State.withFetchWord (s : State) (nbits w : Nat) : State :=
  placeCommand s nbits w

end Sys2Proof.Machine
end

