-- ==== Sys2Proof/Safety.lean ====
section
/-! DEFINITION. The terms claims use: what holds of every engine and every state, the pseudocode of GEN and SCAN as plain
functions of memory, what of a running command depends on no data, and which outcomes the source software calls undefined. -/

namespace Sys2Proof.Machine

/-! GEN and SCAN as their pseudocode gives them -/

/-- Memory with the buffer of nonce index `n` written (R144). -/
def writeNonce (cfg : EngineConfig) (l : Latched) (m : Memory) (n : Nat) : Memory :=
  m.writeBytes (l.nonceBase n) (concatBlocks (plotNonce Config.bh cfg l.acct (l.nonceValue n)))

/-- Memory with the first `n` buffers written, in order (R144). -/
def writeNonces (cfg : EngineConfig) (l : Latched) (m : Memory) (n : Nat) : Memory :=
  (List.range n).foldl (writeNonce cfg l) m

/-- The deadline of nonce buffer `n` in memory (R163 to R165). -/
def deadlineOf (cfg : EngineConfig) (l : Latched) (m : Memory) (n : Nat) : Word :=
  deadline cfg.deadlineOrder
    (scoopDigest Config.bh l.g (m.readBlock (l.scoopAddrA n)) (m.readBlock (l.scoopAddrB n)))

/-- The result of a SCAN (R166). -/
def scanResult (cfg : EngineConfig) (l : Latched) (m : Memory) : Best :=
  reduceFrom Best.initial 0 ((List.range l.count.toNat).map (deadlineOf cfg l m))

/-! What holds of a running command -/

/-- The lane of buffer `n` after `k` rounds (R136). -/
def laneAfter (cfg : EngineConfig) (l : Latched) (k n : Nat) : Lane where
  nonce := l.nonceValue n
  chain := chainAfter Config.bh (capBlocks cfg) (s16 l.acct (l.nonceValue n)) k
  digest := zero32

/-- The lane of buffer `n` after the final hash (R141). -/
def laneDone (cfg : EngineConfig) (l : Latched) (n : Nat) : Lane :=
  let x := laneAfter cfg l blocksPerNonce n
  { x with digest := hash Config.bh (finalMessage cfg.finalSeedTail x.chain (s16 l.acct (l.nonceValue n))) }

/-- The lanes of a batch, lane `i` holding buffer `first + i` (R149). -/
def batchOf (cfg : EngineConfig) (l : Latched) (first : Nat) (lane : Nat → Lane) : List Lane :=
  (List.range (batchLanes cfg l first)).map fun i => lane (first + i)

/-- A running GEN is at a position of its sequence, and its lanes hold exactly the chain and digests of that position. -/
def GenRun.Ok (cfg : EngineConfig) (l : Latched) (g : GenRun) : Prop :=
  g.first ≤ l.count.toNat ∧
    match g.pos with
    | .round k => k < blocksPerNonce ∧ g.lanes = batchOf cfg l g.first (laneAfter cfg l k)
    | .final => g.lanes = batchOf cfg l g.first (laneAfter cfg l blocksPerNonce)
    | .write i j =>
      i < batchLanes cfg l g.first ∧ j < blocksPerNonce ∧ g.lanes = batchOf cfg l g.first (laneDone cfg l)

/-- A running SCAN is at a position of its sequence, and the index it keeps is that of a buffer it has reduced. -/
def ScanRun.Ok (cfg : EngineConfig) (l : Latched) (r : ScanRun) : Prop :=
  r.first ≤ l.count.toNat ∧ (r.best = Best.initial ∨ r.best.index < r.first) ∧
    match r.pos with
    | .fetch => True
    | .reduce => r.digests.length = batchLanes cfg l r.first

/-- One range lies inside another. -/
def Range.inside (r q : Range) : Prop :=
  q.base ≤ r.base ∧ r.base + r.len ≤ q.base + q.len

/-- RUN and the latched operands agree with the checks the launch made (R113, R182) and with the command's sequence; the
command is known. -/
def Engine.RunOk (e : Engine) : Prop :=
  match e.run with
  | none => e.raced = []
  | some (.init _) => True
  | some .lost => False
  | some (.gen g) =>
    e.status.tplValid = true ∧ e.latched.genFits e.cfg.addrBits = true ∧ GenRun.Ok e.cfg e.latched g ∧
      ∀ r ∈ e.raced, Range.inside r e.region
  | some (.scan r) =>
    e.status.tplValid = true ∧ e.latched.fits e.cfg.addrBits = true ∧ e.latched.scoop.toNat ≤ 4095 ∧
      ScanRun.Ok e.cfg e.latched r

/-- What holds of every instance that keeps its state: legal parameters (R7 to R12), ERRCODE 0x00 exactly when ERR = 0 (R41)
and never above 0x05 (R180), DONE and ERR clear while BUSY (R39, R40), and RUN in order. -/
structure Engine.Ok (e : Engine) : Prop where
  legal : e.cfg.Legal
  errcode : (e.status.err = true ↔ e.status.errcode ≠ 0x00) ∧ e.status.errcode ≤ 0x05
  busy : e.busy = true → e.status.done = false ∧ e.status.err = false
  run : e.RunOk

/-- The form every state keeps, whatever the registers hold: memory in its canonical form, legal parameters (R7 to R12), a
window of its own for each instance (R12), and at most one byte per address in the host's cache. -/
structure State.Formed (s : State) : Prop where
  mem : s.mem.wf
  legal : ∀ e ∈ s.engines, e.cfg.Legal
  windows : (s.engines.map fun e => e.cfg.mmioBase).Nodup
  cache : (s.hostCache.map CacheByte.addr).Nodup

/-- What holds of every state while no instance loses its state: its form, and every instance in order (R197). -/
structure State.Ok (s : State) : Prop where
  formed : s.Formed
  engines : ∀ e ∈ s.engines, e.Ok

/-- A GEN runs on the instance. -/
def Engine.generates (e : Engine) : Bool :=
  match e.run with
  | some (.gen _) => true
  | some (.scan _) | some (.init _) | some .lost | none => false

/-- A GEN or a SCAN runs on the instance. -/
def Engine.usesRegion (e : Engine) : Bool :=
  match e.run with
  | some (.gen _) | some (.scan _) => true
  | some (.init _) | some .lost | none => false

/-- No GEN runs on another instance over bytes of this range (R91). -/
def State.NoGenOver (s : State) (r : Range) : Prop :=
  ∀ p ∈ s.peers, p.generates = true → Range.overlaps r p.region = false

/-- Neither a GEN nor a SCAN runs on another instance over bytes of this range (R91, R215). -/
def State.Exclusive (s : State) (r : Range) : Prop :=
  ∀ p ∈ s.peers, p.usesRegion = true → Range.overlaps r p.region = false

/-! When a command starts and when it runs to completion -/

/-- A GEN written now starts: idle, template built, a REGION that fits or is empty, is ordinary memory, and that no other
instance's command works on (R113, R153, R182, R214, R215). -/
structure State.GenStarts (s : State) : Prop where
  ok : s.Ok
  idle : s.eng.busy = false
  template : s.eng.status.tplValid = true
  fits : (latch s.eng.operands).genFits s.eng.cfg.addrBits = true
  ordinary : s.touchesDevice (latch s.eng.operands).region = false
  exclusive : s.Exclusive (latch s.eng.operands).region

/-- A SCAN written now starts (R113, R182, R214, R215). -/
structure State.ScanStarts (s : State) : Prop where
  ok : s.Ok
  idle : s.eng.busy = false
  template : s.eng.status.tplValid = true
  scoop : s.eng.operands.scoop.toNat ≤ 4095
  fits : (latch s.eng.operands).fits s.eng.cfg.addrBits = true
  ordinary : s.touchesDevice (latch s.eng.operands).region = false
  exclusive : s.NoGenOver (latch s.eng.operands).region

/-- The memory system admits every write of a GEN of these operands (R75). -/
def State.AdmitsGen (s : State) (l : Latched) : Prop :=
  ∀ n < l.count.toNat, ∀ j < blocksPerNonce, s.admitsBlock (l.blockAddr n j) = true

/-- The memory system admits every read of a SCAN of these operands (R74, R93). -/
def State.AdmitsScan (s : State) (l : Latched) : Prop :=
  ∀ n < l.count.toNat, s.admitsBlock (l.scoopAddrA n) = true ∧ s.admitsBlock (l.scoopAddrB n) = true

/-- An instance whose command ended without an error, TPL_VALID and the result registers as they were: the operands are
latched, DONE is set, ERR and ERRCODE are clear, nothing runs (R111, R117). -/
def Engine.succeeded (e : Engine) : Engine :=
  { e with
    status := { tplValid := e.status.tplValid, done := true, err := false, errcode := 0x00, reject := e.status.reject }
    latched := latch e.operands
    run := none
    raced := [] }

/-- An instance whose launch request failed or whose command ended with an error (R111, R181). -/
def Engine.failed (e : Engine) (code : ErrCode) : Engine :=
  { e with
    status := { tplValid := e.status.tplValid, done := true, err := true, errcode := code.code, reject := e.status.reject }
    latched := latch e.operands
    run := none
    raced := [] }

/-- An instance whose command has just started (R111, R113). -/
def Engine.started (e : Engine) (r : Run) : Engine :=
  { e with
    status := { tplValid := e.status.tplValid, done := false, err := false, errcode := 0x00, reject := e.status.reject }
    latched := latch e.operands
    run := some r
    raced := [] }

/-- An instance with the model's record of races left out. -/
def Engine.unraced (e : Engine) : Engine :=
  { e with raced := [] }

/-! What of a running command depends on no data (R115) -/

/-- The position of a running command, its lanes' data left out. -/
inductive Position where
  | idle
  | init (p : InitPos)
  | gen (first : Nat) (pos : GenPos)
  | scan (first : Nat) (pos : ScanPos)
  | lost
  deriving DecidableEq, Repr

/-- The position of an instance. -/
def Engine.position (e : Engine) : Position :=
  match e.run with
  | none => .idle
  | some (.init p) => .init p
  | some (.gen g) => .gen g.first g.pos
  | some (.scan r) => .scan r.first r.pos
  | some .lost => .lost

/-! The source software's view -/

/-- The last command's outcome is one the source software leaves undefined (an unchecked precondition): a claim that also
speaks for the source takes this as a fault (R28, R129, R162; log 20). -/
def sourceFault (e : Engine) : Bool :=
  e.status.errcode == ErrCode.noTemplate.code || e.status.errcode == ErrCode.scoopRange.code ||
    e.status.errcode == ErrCode.addrRange.code

end Sys2Proof.Machine
end

