-- ==== Sys2Proof/Certificates/Slice0/Obligations.lean ====
section
/-! DEFINITION. The statements for the provers, family by family: the command word, the registers, the command lifecycle,
INIT, GEN, SCAN, errors, memory and races, reset, and the whole machine. -/

open Sys2Proof Sys2Proof.Machine

/-! The command word -/

/-- Every 64-bit value is exactly one of INIT, GEN, SCAN or ILLEGAL (R100, which the spec marks as derived). -/
def Obligations.EveryWordIsOneCommand : Prop :=
  ∀ v : Word,
    (decode v = .ok .init ↔ v = 0x01#64) ∧ (decode v = .ok .gen ↔ v = 0x02#64) ∧ (decode v = .ok .scan ↔ v = 0x03#64) ∧
      ((∃ e, decode v = .error e) ↔ v ≠ 0x01#64 ∧ v ≠ 0x02#64 ∧ v ≠ 0x03#64)

/-- R97: the words of the opcode map, and words one field away from them. -/
def Obligations.OpcodeMapWordsDecode : Prop :=
  decodeTableWord 64 0x01 = some .init ∧ decodeTableWord 64 0x02 = some .gen ∧ decodeTableWord 64 0x03 = some .scan ∧
    decode 0x00#64 = .error .reservedOpcode ∧ decode 0x04#64 = .error .reservedOpcode ∧
    decode 0xFF#64 = .error .reservedOpcode ∧ decode 0x0102#64 = .error .reservedField ∧
    decode 0x8000000000000001#64 = .error .reservedField

/-- The encoder and the decoder agree on every well-formed command, and a command has one word only (R95 to R97). -/
def Obligations.EncodeAndDecodeAgree : Prop :=
  ∀ i : Instr, i.wf = true →
    decode (encode i) = .ok i ∧ wordWf (encode i) = true ∧ ∀ v : Word, decode v = .ok i → v = encode i

/-- R99: a reserved field that is not 0, OPCODE 0x00 and OPCODE 0x04 to 0xFF are illegal; written while idle, such a word
ends with ILLEGAL_CMD at once and has no other effect. -/
def Obligations.IllegalWordEndsAtOnce : Prop :=
  ∀ (v : Word) (s : State),
    v.extractLsb' 8 56 ≠ 0#56 ∨ v.extractLsb' 0 8 = 0x00#8 ∨ 0x04#8 ≤ v.extractLsb' 0 8 →
      s.eng.busy = false → commandWrite v s = .next (s.withEng (s.eng.failed .illegalCmd))

/-! Registers -/

/-- R34: the fields of CAPS; host writes are ignored, and neither a step nor a reset changes the value; the rule's example. -/
def Obligations.CapsReportsTheConfiguration : Prop :=
  (∀ e : Engine, e.cfg.Legal →
    ((e.readOffset 0x00).extractLsb' 0 16).toNat = e.cfg.lanes ∧
    ((e.readOffset 0x00).getLsbD 16 = true ↔ e.cfg.deadlineOrder = .be) ∧
    (e.readOffset 0x00).getLsbD 17 = e.cfg.finalSeedTail ∧
    (e.readOffset 0x00).extractLsb' 18 2 = 0#2 ∧
    (e.readOffset 0x00).extractLsb' 20 4 = 1#4 ∧
    ((e.readOffset 0x00).extractLsb' 24 8).toNat = e.cfg.addrBits ∧
    ((e.readOffset 0x00).extractLsb' 32 32).toNat = e.cfg.windowCap ∧
    (∀ v, e.writeOffset 0x00 v = e) ∧
    (Engine.reset e.cfg).readOffset 0x00 = e.readOffset 0x00) ∧
    (∀ s t : State, step s = .next t →
      (t.engines.map fun e => e.readOffset 0x00).Perm (s.engines.map fun e => e.readOffset 0x00)) ∧
    capsWord .doc = 0x0002000040100008#64

/-- R36: the fields of STATUS as the host reads it; a host write clears DONE where bit 2 is 1, ERR with ERRCODE where bit 3
is 1, REJECT where bit 16 is 1, and nothing else; the reset value is 0. -/
def Obligations.StatusFieldsAndWriteOneToClear : Prop :=
  ∀ (e : Engine) (v : Word),
    ((e.readOffset 0x10).getLsbD 0 = e.run.isSome ∧
      (e.readOffset 0x10).getLsbD 1 = e.status.tplValid ∧
      (e.readOffset 0x10).getLsbD 2 = e.status.done ∧
      (e.readOffset 0x10).getLsbD 3 = e.status.err ∧
      (e.readOffset 0x10).extractLsb' 4 4 = 0#4 ∧
      (e.readOffset 0x10).extractLsb' 8 8 = e.status.errcode ∧
      (e.readOffset 0x10).getLsbD 16 = e.status.reject ∧
      (e.readOffset 0x10).extractLsb' 17 47 = 0#47) ∧
    ((e.writeOffset 0x10 v).status.done = true ↔ e.status.done = true ∧ v.getLsbD 2 = false) ∧
    ((e.writeOffset 0x10 v).status.err = true ↔ e.status.err = true ∧ v.getLsbD 3 = false) ∧
    (e.writeOffset 0x10 v).status.errcode = (if v.getLsbD 3 = true then 0x00#8 else e.status.errcode) ∧
    ((e.writeOffset 0x10 v).status.reject = true ↔ e.status.reject = true ∧ v.getLsbD 16 = false) ∧
    (e.writeOffset 0x10 v).status.tplValid = e.status.tplValid ∧
    { e.writeOffset 0x10 v with status := e.status } = e ∧
    (Engine.reset e.cfg).readOffset 0x10 = 0#64

/-- R43, R44, R45, R47, R48: an operand register reads back the value last written, IRQ_EN its bit 0 only, and a write to
one of them changes no other register. -/
def Obligations.WrittenRegisterReadsBack : Prop :=
  ∀ (e : Engine) (v : Word) (off other : Nat),
    (off ∈ [0x20, 0x28, 0x30, 0x38, 0x40, 0x60, 0x68, 0x70, 0x78] →
      (e.writeOffset off v).readOffset off = v ∧
        (other ≠ off → (e.writeOffset off v).readOffset other = e.readOffset other)) ∧
    ((e.writeOffset 0x18 v).readOffset 0x18 = (if v.getLsbD 0 = true then 1#64 else 0#64) ∧
      (other ≠ 0x18 → (e.writeOffset 0x18 v).readOffset other = e.readOffset other))

/-- R49: the reserved offsets and the reserved fields read as 0 and ignore writes. And CMD reads as 0 (R35); CAPS,
BEST_DEADLINE and BEST_OFFSET ignore writes (R47). -/
def Obligations.OtherOffsetsIgnoreWrites : Prop :=
  ∀ (e : Engine) (v : Word),
    e.readOffset 0x08 = 0#64 ∧
    (∀ off ∈ [0x00, 0x50, 0x58], e.writeOffset off v = e) ∧
    (∀ k < 32, 8 * k = 0x48 ∨ 0x80 ≤ 8 * k → e.readOffset (8 * k) = 0#64 ∧ e.writeOffset (8 * k) v = e) ∧
    ((e.readOffset 0x00).extractLsb' 18 2 = 0#2 ∧ (e.readOffset 0x10).extractLsb' 4 4 = 0#4 ∧
      (e.readOffset 0x10).extractLsb' 17 47 = 0#47 ∧ (e.readOffset 0x18).extractLsb' 1 63 = 0#63) ∧
    e.writeOffset 0x10 v = e.writeOffset 0x10 (v &&& 0x1000C#64) ∧
    e.writeOffset 0x18 v = e.writeOffset 0x18 (v &&& 0x1#64)

/-- R45: GENSIG0 to GENSIG3 are read-write with reset value 0, and byte `8q + b` of the generation signature a launch latches
is byte `b` of GENSIGq, least significant first. -/
def Obligations.GensigBytesAreLittleEndian : Prop :=
  ∀ (e : Engine) (v : Word) (b : Fin 8),
    (∀ off ∈ [0x60, 0x68, 0x70, 0x78],
      (e.writeOffset off v).readOffset off = v ∧ (Engine.reset e.cfg).readOffset off = 0#64) ∧
    (latch e.operands).g[b.val]'(by omega) = (e.readOffset 0x60).extractLsb' (8 * b.val) 8 ∧
    (latch e.operands).g[8 + b.val]'(by omega) = (e.readOffset 0x68).extractLsb' (8 * b.val) 8 ∧
    (latch e.operands).g[16 + b.val]'(by omega) = (e.readOffset 0x70).extractLsb' (8 * b.val) 8 ∧
    (latch e.operands).g[24 + b.val]'(by omega) = (e.readOffset 0x78).extractLsb' (8 * b.val) 8

/-- R188, R189: the interrupt output is DONE_IE and DONE; enabling it with DONE already 1 asserts it at once, masking it
leaves DONE and drops the output, and clearing DONE, by the host or by the next accepted launch request, drops it. -/
def Obligations.InterruptIsEnableAndDone : Prop :=
  ∀ (e : Engine) (v : Word),
    (e.irq = true ↔ e.doneIe = true ∧ e.status.done = true) ∧
    ((e.writeOffset 0x18 v).irq = true ↔ v.getLsbD 0 = true ∧ e.status.done = true) ∧
    (e.writeOffset 0x18 v).status = e.status ∧
    (v.getLsbD 2 = true → (e.writeOffset 0x10 v).irq = false) ∧
    e.accept.irq = false ∧
    (Engine.reset e.cfg).irq = false

/-! Byte strings and the hash messages -/

/-- R17: BE64 and LE64 byte by byte, and their inverses. -/
def Obligations.IntegerEncodersAreInverse : Prop :=
  ∀ (v : Word) (b : Vector Byte 8),
    (∀ i : Fin 8, (be64 v)[i.val] = v.extractLsb' (56 - 8 * i.val) 8 ∧ (le64 v)[i.val] = v.extractLsb' (8 * i.val) 8) ∧
    be64dec (be64 v) = v ∧ le64dec (le64 v) = v ∧ be64 (be64dec b) = b ∧ le64 (le64dec b) = b

/-- R21: the deadline of a digest is the value of its bytes 0 to 7 in the configured order. -/
def Obligations.DeadlineReadsDigestBytesZeroToSeven : Prop :=
  ∀ d : HashBlock,
    deadline .le d = le64dec #v[d[0], d[1], d[2], d[3], d[4], d[5], d[6], d[7]] ∧
    deadline .be d = be64dec #v[d[0], d[1], d[2], d[3], d[4], d[5], d[6], d[7]] ∧
    (deadline .le d).toNat = d[0].toNat + 2 ^ 8 * d[1].toNat + 2 ^ 16 * d[2].toNat + 2 ^ 24 * d[3].toNat +
      2 ^ 32 * d[4].toNat + 2 ^ 40 * d[5].toNat + 2 ^ 48 * d[6].toNat + 2 ^ 56 * d[7].toNat ∧
    (deadline .be d).toNat = d[7].toNat + 2 ^ 8 * d[6].toNat + 2 ^ 16 * d[5].toNat + 2 ^ 24 * d[4].toNat +
      2 ^ 32 * d[3].toNat + 2 ^ 40 * d[2].toNat + 2 ^ 48 * d[1].toNat + 2 ^ 56 * d[0].toNat

/-- R18: the account fills the first eight seed bytes and the nonce the next eight, both most significant byte first; Seed32
adds the terminator byte and zeros; Term32 is the terminator byte and zeros; Zero32 is zeros. -/
def Obligations.SeedHoldsAccountThenNonce : Prop :=
  ∀ (a v : Word),
    (∀ i : Fin 8, (s16 a v)[i.val]'(by omega) = a.extractLsb' (56 - 8 * i.val) 8 ∧
      (s16 a v)[8 + i.val]'(by omega) = v.extractLsb' (56 - 8 * i.val) 8) ∧
    (∀ i : Fin 16, (seed32 a v)[i.val]'(by omega) = (s16 a v)[i.val]) ∧
    (seed32 a v)[16] = termByte ∧ (∀ i : Fin 15, (seed32 a v)[17 + i.val]'(by omega) = 0x00#8) ∧
    term32[0] = termByte ∧ (∀ i : Fin 31, term32[1 + i.val]'(by omega) = 0x00#8) ∧
    ∀ i : Fin 32, zero32[i.val] = 0x00#8

/-- TERM_BYTE is 0x80 (R14, from general knowledge by the spec's own mark, log 9). Pad adds the terminator byte and the
fewest zeros that reach a multiple of 64 bytes, so that an aligned message gains the block `Term32 ‖ Zero32`; Hash applies BH
to the 64-byte blocks of the padded message (R19, whose padding of an aligned message the spec marks as from general
knowledge, log 9). -/
def Obligations.HashPadsToWholeBlocks : Prop :=
  termByte = 0x80#8 ∧
  ∀ (bh : List Block → HashBlock) (m : List Byte),
    (∃ z, pad m = m ++ termByte :: List.replicate z 0x00#8 ∧ (pad m).length % 64 = 0 ∧
      ∀ y, (m.length + 1 + y) % 64 = 0 → z ≤ y) ∧
    (m.length % 64 = 0 → pad m = m ++ term32.toList ++ zero32.toList) ∧
    ∃ bs : List Block, Machine.hash bh m = bh bs ∧ bs.flatMap Vector.toList = pad m

/-- R139, which the spec marks as derived: in every round the block schedule is the padded logical message, with K(k) full data blocks and the final block
that the round index alone selects. -/
def Obligations.RoundCallIsTheHashOfItsMessage : Prop :=
  ∀ (bh : List Block → HashBlock) (cb k : Nat) (a v : Word) (above : List HashBlock),
    cb % 2 = 0 → 2 ≤ cb → 1 ≤ k → k ≤ 8192 → above.length = k - 1 →
    ∃ (d : List Block) (t : Block),
      roundCall bh cb k a v above = hashFast bh d t ∧
      hashFast bh d t = Machine.hash bh (roundMessage cb k above (s16 a v)) ∧
      d.length = (roundMessage cb k above (s16 a v)).length / 64 ∧
      (d ++ [t]).flatMap Vector.toList = pad (roundMessage cb k above (s16 a v)) ∧
      (k ≤ cb → k % 2 = 1 →
        d.length = (k - 1) / 2 ∧ d.flatMap Vector.toList = concatBlocks above ∧ t = seed32 a v ++ zero32) ∧
      (k ≤ cb → k % 2 = 0 →
        d.length = (k - 2) / 2 ∧ d.flatMap Vector.toList = concatBlocks above.dropLast ∧
          t = above.getLastD zero32 ++ seed32 a v) ∧
      (cb < k → d.length = cb / 2 ∧ d.flatMap Vector.toList = concatBlocks (above.take cb) ∧ t = term32 ++ zero32)

/-- R141: the final hash in both forms of FINAL_SEED_TAIL. That the call without the tail is the hash of the chain rests on the
padding of an aligned message, which the spec marks as from general knowledge (GK3, log 9). -/
def Obligations.FinalCallIsTheHashOfTheChain : Prop :=
  ∀ (bh : List Block → HashBlock) (a v : Word) (chain : List HashBlock), chain.length = 8192 →
    (finalCall bh false a v chain = Machine.hash bh (concatBlocks chain) ∧
      finalCall bh false a v chain = hashFast bh (pairBlocks chain) blockT3) ∧
    (finalCall bh true a v chain = Machine.hash bh (concatBlocks chain ++ (s16 a v).toList) ∧
      finalCall bh true a v chain = hashFast bh (pairBlocks chain) (blockT1 a v)) ∧
    (pairBlocks chain).length = 4096

/-- R136: with X[j] the blocks of the chain after 8192 rounds, X[j] = X[8192 - k] is the hash of every block above it and the
seed, 32(k - 1) + 16 bytes, when k is at most CB, and of the CB blocks above it, C = 32 CB bytes, when k is greater. -/
def Obligations.ChainBlockHashesTheBlocksAbove : Prop :=
  ∀ (bh : List Block → HashBlock) (cb : Nat) (seed : Vector Byte 16) (j : Nat), j < 8192 →
    let chain := chainAfter bh cb seed 8192
    let message := if 8192 - j ≤ cb then concatBlocks (chain.drop (j + 1)) ++ seed.toList
      else concatBlocks ((chain.drop (j + 1)).take cb)
    chain.length = 8192 ∧ chain.getD j zero32 = Machine.hash bh message ∧
      message.length = if 8192 - j ≤ cb then 32 * (8191 - j) + 16 else 32 * cb

/-- R142: byte `b` of every stored HashBlock is the chain byte xor byte `b` of the final digest. -/
def Obligations.StoredBlockIsMaskedChainBlock : Prop :=
  ∀ (bh : List Block → HashBlock) (cfg : EngineConfig) (a v : Word) (j : Nat) (b : Fin 32), j < 8192 →
    ((plotNonce bh cfg a v).getD j zero32)[b] =
      ((chainAfter bh (capBlocks cfg) (s16 a v) 8192).getD j zero32)[b] ^^^
        (Machine.hash bh (finalMessage cfg.finalSeedTail (chainAfter bh (capBlocks cfg) (s16 a v) 8192) (s16 a v)))[b]

/-- R147, which the spec marks as derived: a capped round reads neither the seed nor any block beyond the CB blocks above the one it produces. -/
def Obligations.CappedRoundReadsOnlyItsWindow : Prop :=
  ∀ (bh : List Block → HashBlock) (cb k : Nat) (a a' v v' : Word) (above above' : List HashBlock),
    cb < k → above.take cb = above'.take cb → roundCall bh cb k a v above = roundCall bh cb k a' v' above'

/-- R220, which the spec marks as derived: the 64-byte compressions of one GEN nonce, in closed form, counted over the
hash-core calls of the rounds and of the final hash on the nonce's own chain, whatever the hash core, account and nonce; a
call compresses its data blocks and its final block. -/
def Obligations.CompressionsPerNonce : Prop :=
  ∀ (bh : List Block → HashBlock) (a v : Word),
    (∀ m : Nat, 1 ≤ m → m ≤ 4096 →
      nonceCompressions bh (2 * m) a v = m * m + m + (8192 - 2 * m) * (m + 1) + 4097 ∧
        ∀ k, 1 ≤ k → k ≤ 8192 →
          (roundData (2 * m) k (chainAfter bh (2 * m) (s16 a v) (k - 1))).length = roundBlocks (2 * m) k) ∧
    nonceCompressions bh (capBlocks .doc) a v = 12593153 ∧ nonceCompressions bh (capBlocks .net) a v = 532417 ∧
    (∀ cb k above, ∃ t : Block, roundCall bh cb k a v above = bh (roundData cb k above ++ [t])) ∧
    ∀ tail chain, ∃ t : Block, finalCall bh tail a v chain = bh (pairBlocks chain ++ [t])

/-! The command lifecycle -/

/-- R112: while BUSY = 1 a CMD write of any value sets REJECT and changes nothing else; the running command continues
unaffected: every number of its turns does the same with and without REJECT set. -/
def Obligations.BusyEngineRejectsEveryCommandWrite : Prop :=
  ∀ (v : Word) (s : State), s.eng.busy = true →
    commandWrite v s =
      .next (runTurns (grantedTurns s)
        (s.withEng { s.eng with status := { s.eng.status with reject := true } })) ∧
    turn (s.withEng s.eng.refuse) = (turn s).withEng (turn s).eng.refuse ∧
    ∀ n, runTurns n (s.withEng s.eng.refuse) = (runTurns n s).withEng (runTurns n s).eng.refuse

/-- R111, R182: the launch checks in their order; a launch that fails one is finished in the same step and has no effect but
STATUS and the latched operands. A GEN with COUNT = 0 passes ADDR_RANGE at any BUF_ADDR (R153; log 26, DEDUCED for ADDR_BITS
below 64), so that clause is about COUNT other than 0 for GEN; for SCAN it is about every COUNT. -/
def Obligations.LaunchChecksInOrder : Prop :=
  ∀ s : State, s.eng.busy = false →
    (s.eng.status.tplValid = false →
      exec .gen s = .next (s.withEng (s.eng.failed .noTemplate)) ∧
      exec .scan s = .next (s.withEng (s.eng.failed .noTemplate))) ∧
    (s.eng.status.tplValid = true → 4095 < s.eng.operands.scoop.toNat →
      exec .scan s = .next (s.withEng (s.eng.failed .scoopRange))) ∧
    (s.eng.status.tplValid = true →
      2 ^ s.eng.cfg.addrBits < s.eng.operands.bufAddr.toNat + s.eng.operands.count.toNat * 262144 →
      (s.eng.operands.count ≠ 0#64 → exec .gen s = .next (s.withEng (s.eng.failed .addrRange))) ∧
      (s.eng.operands.scoop.toNat ≤ 4095 → exec .scan s = .next (s.withEng (s.eng.failed .addrRange))))

/-- R113: a launch whose checks pass sets BUSY and starts the command at its initial position; with no turn granted that is
all it does. -/
def Obligations.PassedLaunchStartsTheCommand : Prop :=
  ∀ s : State, s.pace = .turns 0 →
    (s.eng.busy = false → exec .init s = .next (s.withEng (s.eng.started (.init .hashInit)))) ∧
    (s.GenStarts →
      exec .gen s = .next (s.withEng (s.eng.started (.gen (genBatch s.eng.cfg (latch s.eng.operands) 0))))) ∧
    (s.ScanStarts → exec .scan s = .next (s.withEng (s.eng.started (.scan (scanBatch 0 Best.initial)))))

/-- R118: a running command needs exactly the turns `turnsLeft` says, a number fixed by its position and COUNT, or fewer if
an access is refused; it then stops, and more turns change nothing. -/
def Obligations.EveryCommandEnds : Prop :=
  ∀ (s : State) (n : Nat), s.eng.Ok →
    (s.eng.busy = true → turnsLeft (turn s).eng + 1 = turnsLeft s.eng ∨ (turn s).eng.busy = false) ∧
    (turnsLeft s.eng ≤ n → (runTurns n s).eng.busy = false ∧ runTurns n s = runTurns (turnsLeft s.eng) s)

/-- R115: which operation comes next depends on no data: two instances with the same parameters, BUF, COUNT and SCOOP at the
same position, over the same memory map, are at the same position after a turn, whatever memory and their lanes hold. -/
def Obligations.SequenceDependsOnNoData : Prop :=
  ∀ s s' : State,
    s.eng.cfg = s'.eng.cfg → s.plat.absent = s'.plat.absent → s.eng.latched.buf = s'.eng.latched.buf →
    s.eng.latched.count = s'.eng.latched.count → s.eng.latched.scoop = s'.eng.latched.scoop →
    s.eng.position = s'.eng.position → (turn s).eng.position = (turn s').eng.position

/-- R47, R51, R217: a host write to an operand register while a command runs never affects that command: the turn does the
same with and without it. -/
def Obligations.OperandWriteLeavesTheRunningCommand : Prop :=
  ∀ (s : State) (off : Nat) (v : Word), s.eng.busy = true →
    off ∈ [0x20, 0x28, 0x30, 0x38, 0x40, 0x60, 0x68, 0x70, 0x78] →
    turn (s.withEng (s.eng.writeOffset off v)) = (turn s).withEng ((turn s).eng.writeOffset off v)

/-! INIT -/

/-- R125: the word 0x01 is INIT, and INIT completes from every idle state, whatever the operand registers hold and whether or not the template is
built; it sets TPL_VALID and DONE, ERR stays 0, and it changes neither memory nor the result registers. -/
def Obligations.InitBuildsTheTemplate : Prop :=
  decode 0x0000000000000001#64 = .ok .init ∧
  ∀ s : State, s.eng.busy = false → (s.pace = .untilDone ∨ ∃ n, s.pace = .turns n ∧ 3 ≤ n) →
    exec .init s = .next (s.withEng
      { s.eng.succeeded with
        status := { tplValid := true, done := true, err := false, errcode := 0x00, reject := s.eng.status.reject } })

/-! GEN -/

/-- R144, R117: GEN completes: every nonce buffer is written as its pseudocode says, STATUS shows DONE without an error, and
nothing else changes. -/
def Obligations.GenWritesEveryNonceBuffer : Prop :=
  ∀ s : State, s.GenStarts → s.AdmitsGen (latch s.eng.operands) → s.pace = .untilDone →
    exec .gen s =
      .next ((s.withMem
        (writeNonces s.eng.cfg (latch s.eng.operands) s.mem s.eng.operands.count.toNat)).withEng s.eng.succeeded)

/-- R92, R143: after a successful GEN, HashBlock `j` of buffer `n` is that of PlotNonce for the nonce
`(START_NONCE + n) mod 2^64`, whatever memory held before, and every byte outside the REGION is as it was. -/
def Obligations.GenLeavesPlotsInItsRegion : Prop :=
  ∀ s t : State, s.GenStarts → s.AdmitsGen (latch s.eng.operands) → s.pace = .untilDone → exec .gen s = .next t →
    (∀ n < s.eng.operands.count.toNat, ∀ j < 8192,
      t.mem.readBlock (s.eng.operands.bufAddr.toNat + n * 262144 + 32 * j) =
        (plotNonce Config.bh s.eng.cfg s.eng.operands.accountId
          (BitVec.ofNat 64 (s.eng.operands.startNonce.toNat + n))).getD j zero32) ∧
    ∀ a, a < s.eng.operands.bufAddr.toNat ∨
        s.eng.operands.bufAddr.toNat + s.eng.operands.count.toNat * 262144 ≤ a → t.mem.read a = s.mem.read a

/-- R146: two GENs with the same window cap, tail and account leave the same buffer for the same nonce, wherever each buffer
lies and whatever the lane widths. -/
def Obligations.GenDependsOnAccountAndNonceOnly : Prop :=
  ∀ s s' t t' : State,
    s.GenStarts → s.AdmitsGen (latch s.eng.operands) → s.pace = .untilDone → exec .gen s = .next t →
    s'.GenStarts → s'.AdmitsGen (latch s'.eng.operands) → s'.pace = .untilDone → exec .gen s' = .next t' →
    s.eng.cfg.windowCap = s'.eng.cfg.windowCap → s.eng.cfg.finalSeedTail = s'.eng.cfg.finalSeedTail →
    s.eng.operands.accountId = s'.eng.operands.accountId →
    ∀ n < s.eng.operands.count.toNat, ∀ n' < s'.eng.operands.count.toNat,
      (latch s.eng.operands).nonceValue n = (latch s'.eng.operands).nonceValue n' →
      ∀ i < 262144,
        t.mem.read ((latch s.eng.operands).nonceBase n + i) = t'.mem.read ((latch s'.eng.operands).nonceBase n' + i)

/-- The frame of GEN, launched while idle, for every number of turns that follow (R84, R92, R117, R197): only memory in the
REGION, STATUS but TPL_VALID and REJECT, the latched operands and RUN change; of the other instances, only what the model
records of races (log 16, DESIGN CHOICE). -/
def Obligations.GenChangesNothingElse : Prop :=
  ∀ s t : State, s.Ok → s.eng.busy = false → exec .gen s = .next t →
    (t.eng.cfg = s.eng.cfg ∧ t.eng.doneIe = s.eng.doneIe ∧ t.eng.operands = s.eng.operands ∧
      t.eng.bestDeadline = s.eng.bestDeadline ∧ t.eng.bestOffset = s.eng.bestOffset ∧
      t.eng.status.tplValid = s.eng.status.tplValid ∧ t.eng.status.reject = s.eng.status.reject ∧
      t.eng.latched = latch s.eng.operands) ∧
    t.peers.map Engine.unraced = s.peers.map Engine.unraced ∧
    (t.plat = s.plat ∧ t.hostCache = s.hostCache ∧ t.answer = s.answer ∧ t.inputs = s.inputs ∧ t.pace = s.pace) ∧
    ∀ a, Range.holds (latch s.eng.operands).region a = false → t.mem.read a = s.mem.read a

/-! SCAN -/

/-- R166, R117: SCAN completes: BEST_DEADLINE and BEST_OFFSET take the reduction's result, STATUS shows DONE without an
error, and nothing else changes; no byte of memory does. -/
def Obligations.ScanFindsTheBestDeadline : Prop :=
  ∀ s : State, s.ScanStarts → s.AdmitsScan (latch s.eng.operands) → s.pace = .untilDone →
    exec .scan s =
      .next (s.withEng
        { s.eng.succeeded with
          bestDeadline := (scanResult s.eng.cfg (latch s.eng.operands) s.mem).value
          bestOffset := BitVec.ofNat 64 (scanResult s.eng.cfg (latch s.eng.operands) s.mem).index })

/-- R168, which the spec marks as derived: for COUNT of at least 1 the result is the least of the buffers' deadlines, at the least
index that has it; buffer `n`'s deadline is that of `Hash(G ‖ A ‖ B)`, with A its HashBlock `2s` and B its HashBlock
`8191 - 2s`. -/
def Obligations.ScanResultIsTheLeastDeadline : Prop :=
  ∀ (cfg : EngineConfig) (l : Latched) (m : Memory), 1 ≤ l.count.toNat →
    let dl : Nat → Word := fun n =>
      deadline cfg.deadlineOrder (Machine.hash Config.bh (l.g.toList ++
        (m.readBlock (l.buf.toNat + n * 262144 + 64 * l.scoop.toNat)).toList ++
        (m.readBlock (l.buf.toNat + n * 262144 + 32 * (8191 - 2 * l.scoop.toNat))).toList))
    (scanResult cfg l m).index < l.count.toNat ∧
      (scanResult cfg l m).value = dl (scanResult cfg l m).index ∧
      (∀ n < l.count.toNat, (scanResult cfg l m).value ≤ dl n) ∧
      ∀ n < (scanResult cfg l m).index, (scanResult cfg l m).value < dl n

/-- R164, which the spec marks as derived: the hash-core call of the scoop digest, two blocks, the second of shape T4. -/
def Obligations.ScoopCallIsTheHashOfGensigAndScoop : Prop :=
  ∀ (bh : List Block → HashBlock) (g a b : HashBlock),
    scoopCall bh g a b = Machine.hash bh (g.toList ++ a.toList ++ b.toList) ∧
      scoopCall bh g a b = bh [g ++ a, b ++ term32] ∧ scoopCall bh g a b = hashFast bh [g ++ a] (blockT4 b)

/-- R175, which the spec marks as derived: a SCAN of scoop `s` over buffers a GEN has written reads HashBlocks `2s` and `8191 - 2s` of PlotNonce. -/
def Obligations.ScanReadsTheMirroredBlocksOfGen : Prop :=
  ∀ s t : State, s.GenStarts → s.AdmitsGen (latch s.eng.operands) → s.pace = .untilDone → exec .gen s = .next t →
    ∀ l : Latched, l.buf = s.eng.operands.bufAddr → l.scoop.toNat ≤ 4095 → ∀ n < s.eng.operands.count.toNat,
      t.mem.readBlock (l.scoopAddrA n) =
        (plotNonce Config.bh s.eng.cfg s.eng.operands.accountId ((latch s.eng.operands).nonceValue n)).getD
          (2 * l.scoop.toNat) zero32 ∧
      t.mem.readBlock (l.scoopAddrB n) =
        (plotNonce Config.bh s.eng.cfg s.eng.operands.accountId ((latch s.eng.operands).nonceValue n)).getD
          (8191 - 2 * l.scoop.toNat) zero32

/-- R151, R172: the memory a GEN leaves and the result of a SCAN are those of the pseudocode for every lane width. -/
def Obligations.ResultsAreTheSameForEveryWidth : Prop :=
  ∀ (s : State) (w : Nat), s.pace = .untilDone → 1 ≤ w → w ≤ 65535 →
    (s.GenStarts → s.AdmitsGen (latch s.eng.operands) →
      ∃ t t', exec .gen s = .next t ∧
        exec .gen (s.withEng { s.eng with cfg := { s.eng.cfg with lanes := w } }) = .next t' ∧ t'.mem = t.mem ∧
        t.mem = writeNonces s.eng.cfg (latch s.eng.operands) s.mem s.eng.operands.count.toNat) ∧
    (s.ScanStarts → s.AdmitsScan (latch s.eng.operands) →
      ∃ t t', exec .scan s = .next t ∧
        exec .scan (s.withEng { s.eng with cfg := { s.eng.cfg with lanes := w } }) = .next t' ∧
        t'.eng.bestDeadline = t.eng.bestDeadline ∧ t'.eng.bestOffset = t.eng.bestOffset ∧
        t.eng.bestDeadline = (scanResult s.eng.cfg (latch s.eng.operands) s.mem).value ∧
        t.eng.bestOffset = BitVec.ofNat 64 (scanResult s.eng.cfg (latch s.eng.operands) s.mem).index)

/-- R170, and R153, which the spec marks as derived: with COUNT = 0 a GEN or SCAN with the template built, and for SCAN a
scoop in range, makes no memory access and completes, in any memory map and beside any other instance; the SCAN leaves the
initial pair. The GEN does so at any BUF_ADDR, above 2^ADDR_BITS by R153's sentence (log 26, DEDUCED); the SCAN at any that R182 lets
pass, BUF_ADDR up to 2^ADDR_BITS; above it LaunchChecksInOrder says ADDR_RANGE. -/
def Obligations.EmptyCommandsComplete : Prop :=
  ∀ s : State, s.eng.busy = false → s.eng.status.tplValid = true → s.eng.operands.count = 0#64 → s.pace = .untilDone →
    exec .gen s = .next (s.withEng s.eng.succeeded) ∧
      (s.eng.operands.scoop.toNat ≤ 4095 → s.eng.operands.bufAddr.toNat ≤ 2 ^ s.eng.cfg.addrBits →
        exec .scan s =
          .next (s.withEng { s.eng.succeeded with bestDeadline := 0xFFFFFFFFFFFFFFFF#64, bestOffset := 0#64 }))

/-- The frame of SCAN, launched while idle, for every number of turns that follow (R173, R93, R117, R197): only the result
registers, STATUS but TPL_VALID and REJECT, the latched operands and RUN change; of the other instances, only what the model
records of races (log 16, DESIGN CHOICE). -/
def Obligations.ScanChangesNothingElse : Prop :=
  ∀ s t : State, s.eng.busy = false → exec .scan s = .next t →
    (t.eng.cfg = s.eng.cfg ∧ t.eng.doneIe = s.eng.doneIe ∧ t.eng.operands = s.eng.operands ∧
      t.eng.status.tplValid = s.eng.status.tplValid ∧ t.eng.status.reject = s.eng.status.reject ∧
      t.eng.latched = latch s.eng.operands) ∧
    (t.eng.bestDeadline = s.eng.bestDeadline ∧ t.eng.bestOffset = s.eng.bestOffset ∨
      t.eng.busy = false ∧ t.eng.status.err = false) ∧
    t.peers.map Engine.unraced = s.peers.map Engine.unraced ∧
    (t.plat = s.plat ∧ t.hostCache = s.hostCache ∧ t.answer = s.answer ∧ t.inputs = s.inputs ∧ t.pace = s.pace) ∧
    t.mem = s.mem

/-- The frame of INIT, launched while idle, for every number of turns that follow (R125, R117, R197): only STATUS but
REJECT, the latched operands and RUN change. -/
def Obligations.InitChangesNothingElse : Prop :=
  ∀ s t : State, s.eng.busy = false → exec .init s = .next t →
    (t.eng.cfg = s.eng.cfg ∧ t.eng.doneIe = s.eng.doneIe ∧ t.eng.operands = s.eng.operands ∧
      t.eng.bestDeadline = s.eng.bestDeadline ∧ t.eng.bestOffset = s.eng.bestOffset ∧
      t.eng.status.reject = s.eng.status.reject ∧ t.eng.latched = latch s.eng.operands) ∧
    t.peers = s.peers ∧
    (t.plat = s.plat ∧ t.hostCache = s.hostCache ∧ t.answer = s.answer ∧ t.inputs = s.inputs ∧ t.pace = s.pace) ∧
    t.mem = s.mem ∧ t.draws = s.draws

/-! Errors during a run -/

/-- R183, R174: a SCAN one of whose reads is refused ends with BUS_ERROR; memory and the result registers are as they
were. -/
def Obligations.RefusedReadEndsTheScan : Prop :=
  ∀ s : State, s.ScanStarts → s.pace = .untilDone →
    (∃ n < s.eng.operands.count.toNat, s.admitsBlock ((latch s.eng.operands).scoopAddrA n) = false ∨
      s.admitsBlock ((latch s.eng.operands).scoopAddrB n) = false) →
    exec .scan s = .next (s.withEng (s.eng.failed .busError))

/-- R183: a GEN one of whose writes is refused ends with BUS_ERROR; every byte of the REGION that the memory system answers
at is a free value, every byte outside is as it was, and the registers are as for any error. -/
def Obligations.RefusedWriteEndsTheGen : Prop :=
  ∀ s : State, s.GenStarts → s.pace = .untilDone →
    (∃ n < s.eng.operands.count.toNat, ∃ j < 8192, s.admitsBlock ((latch s.eng.operands).blockAddr n j) = false) →
    ∃ t, exec .gen s = .next t ∧ t.eng = s.eng.failed .busError ∧
      (∀ i < s.eng.operands.count.toNat * 262144, s.answersAt (s.eng.operands.bufAddr.toNat + i) = true →
        t.mem.read (s.eng.operands.bufAddr.toNat + i) = Config.freeByte (s.draws + i)) ∧
      ∀ a, Range.holds (latch s.eng.operands).region a = false → t.mem.read a = s.mem.read a

/-- R78: a GEN or SCAN whose checks pass and whose REGION overlaps device memory, a register window among it, is refused. -/
def Obligations.DeviceRegionIsRefused : Prop :=
  ∀ s : State, s.eng.busy = false → s.eng.status.tplValid = true →
    (latch s.eng.operands).fits s.eng.cfg.addrBits = true → s.touchesDevice (latch s.eng.operands).region = true →
    exec .gen s = .refused .deviceRegion ∧
      (s.eng.operands.scoop.toNat ≤ 4095 → exec .scan s = .refused .deviceRegion)

/-! The machine's step -/

/-- A CMD write in some instance's window, decoded to a command: the step is that command's `exec` on the state in which
that instance is the addressed one and the access is taken; an illegal word goes to `illegalCommand` (R35, R96, R100, R110). -/
def Obligations.StepRunsTheDecodedCommand : Prop :=
  ∀ (s t : State) (a : Nat) (v : Word) (p : Pace) (rest : List Input),
    s.inputs = { access := .regWrite a 8 v, pace := p } :: rest →
    (s.take { access := .regWrite a 8 v, pace := p } rest).focus a = some t →
    a % 8 = 0 → a - t.eng.cfg.mmioBase = 0x08 →
    (∀ i, decode v = .ok i → step s = exec i t) ∧ (∀ e, decode v = .error e → step s = illegalCommand t)

/-- R47, R48, R50: an aligned 8-byte register write other than to CMD changes the addressed instance as its register rule
says, a read answers with the register's value and changes nothing of the engine, and an access of another width or
alignment is refused; a wait changes nothing; the granted turns follow (log 11). An access, reset, loss of power or wait at a
bus address in no window is refused (log 15, DESIGN CHOICE). -/
def Obligations.StepAccessesRegisters : Prop :=
  (∀ (s t : State) (a size : Nat) (v : Word) (p : Pace) (rest : List Input),
    (s.take { access := .regWrite a size v, pace := p } rest).focus a = some t →
    (s.inputs = { access := .regWrite a size v, pace := p } :: rest →
      (size = 8 → a % 8 = 0 → a - t.eng.cfg.mmioBase ≠ 0x08 →
        step s = .next (runTurns (grantedTurns (t.withEng (t.eng.writeOffset (a - t.eng.cfg.mmioBase) v)))
          (t.withEng (t.eng.writeOffset (a - t.eng.cfg.mmioBase) v)))) ∧
      (size ≠ 8 ∨ a % 8 ≠ 0 → step s = .refused .registerAccessForm)) ∧
    (s.inputs = { access := .regRead a size, pace := p } :: rest →
      (size = 8 → a % 8 = 0 →
        step s = .next (runTurns (grantedTurns t)
          (t.withAnswer (.register (t.eng.readOffset (a - t.eng.cfg.mmioBase)))))) ∧
      (size ≠ 8 ∨ a % 8 ≠ 0 → step s = .refused .registerAccessForm)) ∧
    (s.inputs = { access := .elapse a, pace := p } :: rest → step s = .next (runTurns (grantedTurns t) t))) ∧
  ∀ (s : State) (x : Access) (a : Nat) (p : Pace) (rest : List Input), s.inputs = { access := x, pace := p } :: rest →
    ((∃ size v, x = .regWrite a size v) ∨ (∃ size, x = .regRead a size) ∨ x = .reset a ∨ x = .powerLoss a ∨ x = .elapse a) →
    (∀ e ∈ s.engines, e.windowHolds a = false) → step s = .refused .noSuchWindow

/-- R199, R118: with no access pending, a step is one turn of the addressed instance if its command advances; if it does not
and a peer's does, one turn of such a peer, as the addressed instance (log 24, DESIGN CHOICE); and if no instance's command
advances, as when every instance is idle, the state stays as it is. A command advances unless its state was lost (log 30). -/
def Obligations.StepWithoutAccess : Prop :=
  ∀ s : State, s.inputs = [] →
    (s.eng.advances = true → step s = .next (turn s)) ∧
    (s.eng.advances = false → (∃ e ∈ s.peers, e.advances = true) →
      ∃ u : State, s.focusOn Engine.advances = some u ∧ u.eng ∈ s.peers ∧ u.eng.advances = true ∧
        u.engines.Perm s.engines ∧ u = { s with eng := u.eng, peers := u.peers } ∧ step s = .next (turn u)) ∧
    ((∀ e ∈ s.engines, e.advances = false) → step s = .next s) ∧
    ∀ e : Engine, (e.busy = false → e.advances = false) ∧ (e.Ok → e.busy = true → e.advances = true)

/-! Memory and races -/

/-- R70, R74, R75, R82: on a coherent platform, a host write of a byte string to ordinary memory is what a later read of one
HashBlock by an engine, or of the string by the host, returns; every other byte is as it was. A step whose access is a host
memory write or read does it, and the granted turns follow (log 11); it is refused where the range touches a device, and
stops where a byte is beyond the address space or absent (log 15, DESIGN CHOICE). -/
def Obligations.HostWriteReachesMemory : Prop :=
  (∀ (s : State) (a : Nat) (bs : List Byte), s.mem.wf → s.plat.dmaCoherent = true →
    (∀ i, (h : i < bs.length) → (hostStore s a bs).mem.read (a + i) = bs[i]) ∧
    (∀ x, x < a ∨ a + bs.length ≤ x → (hostStore s a bs).mem.read x = s.mem.read x) ∧
    (∀ x : HashBlock, bs = x.toList → (hostStore s a bs).mem.readBlock a = x) ∧
    ((∀ e ∈ s.engines, e.busy = false) → (hostLoad (hostStore s a bs) a bs.length).1 = bs)) ∧
  ∀ (s : State) (a n : Nat) (bs : List Byte) (x : Access) (p : Pace) (rest : List Input),
    s.inputs = { access := x, pace := p } :: rest → x = .memWrite a bs ∧ bs.length = n ∨ x = .memRead a n →
    let u := s.take { access := x, pace := p } rest
    let t := if x = .memRead a n then (hostLoad u a n).2.withAnswer (.bytes (hostLoad u a n).1) else hostStore u a bs
    (s.touchesDevice { base := a, len := n } = true → step s = .refused .hostDeviceAccess) ∧
    (s.touchesDevice { base := a, len := n } = false →
      ((∀ e ∈ s.engines, 2 ^ e.cfg.addrBits < a + n) ∨
        (∃ d ∈ s.plat.absent, Range.overlaps d { base := a, len := n } = true) → step s = .fault .hostMemoryAbsent) ∧
      ((∃ e ∈ s.engines, a + n ≤ 2 ^ e.cfg.addrBits) →
        (∀ d ∈ s.plat.absent, Range.overlaps d { base := a, len := n } = false) →
        step s = .next (runTurns (grantedTurns t) t)))

/-- R89, by the model's host cache (log 4, DESIGN CHOICE): where the platform is not coherent, a host write stays in the cache
as dirty bytes and memory keeps its old ones; cleaning a range makes memory hold exactly the dirty bytes of the range, which
stay cached; a string written is in memory once a range that holds it is cleaned; invalidating a range drops its cached bytes
and changes no memory; a byte cached is what a later host read returns, whatever memory holds by then, and a byte not cached
comes from memory and stays cached. A step whose access is a clean or an invalidate does it, and the granted turns follow. -/
def Obligations.UncleanedWriteStaysInTheCache : Prop :=
  (∀ s : State, s.Formed → s.plat.dmaCoherent = false →
    (∀ (a : Nat) (bs : List Byte),
      (hostStore s a bs).mem = s.mem ∧
      (∀ i, (h : i < bs.length) → (hostStore s a bs).cached (a + i) =
        some { addr := a + i, value := bs[i], dirty := true }) ∧
      (∀ x, x < a ∨ a + bs.length ≤ x → (hostStore s a bs).cached x = s.cached x) ∧
      ∀ r : Range, Range.inside { base := a, len := bs.length } r → ∀ i, (h : i < bs.length) →
        (cacheClean (hostStore s a bs) r).mem.read (a + i) = bs[i]) ∧
    (∀ (r : Range) (x : Nat),
      (∀ c, s.cached x = some c → c.dirty = true → Range.holds r x = true → (cacheClean s r).mem.read x = c.value) ∧
      ((∀ c, s.cached x = some c → c.dirty = false) ∨ Range.holds r x = false →
        (cacheClean s r).mem.read x = s.mem.read x) ∧
      (cacheClean s r).cached x =
        (s.cached x).map (fun c => if Range.holds r x then { c with dirty := false } else c) ∧
      (cacheInvalidate s r).mem = s.mem ∧
      (cacheInvalidate s r).cached x = if Range.holds r x then none else s.cached x) ∧
    ∀ x : Nat, s.genOwned x = false →
      (∀ c, s.cached x = some c → hostLoadByte s x = (c.value, s)) ∧
      (s.cached x = none → (hostLoadByte s x).1 = s.mem.read x ∧ (hostLoadByte s x).2.mem = s.mem ∧
        (hostLoadByte s x).2.cached x = some { addr := x, value := s.mem.read x, dirty := false })) ∧
  ∀ (s : State) (a n : Nat) (p : Pace) (rest : List Input),
    (s.inputs = { access := .cacheClean a n, pace := p } :: rest →
      let t := cacheClean (s.take { access := .cacheClean a n, pace := p } rest) { base := a, len := n }
      step s = .next (runTurns (grantedTurns t) t)) ∧
    (s.inputs = { access := .cacheInvalidate a n, pace := p } :: rest →
      let t := cacheInvalidate (s.take { access := .cacheInvalidate a n, pace := p } rest) { base := a, len := n }
      step s = .next (runTurns (grantedTurns t) t))

/-- R83: a host read in the REGION of a running GEN returns a free value and nothing of the engines or of memory changes;
where the platform is coherent the host's cache does not either, and where it is not, a byte not cached before stays there
with that value (log 29, DESIGN CHOICE: R89 and R213 leave it open), so that a read once no GEN owns the byte returns it
again. Outside every such REGION, on a coherent platform, a read returns memory. -/
def Obligations.HostReadInsideARunningGenIsFree : Prop :=
  ∀ (s : State) (a : Nat),
    ((∃ e ∈ s.engines, e.generates = true ∧ Range.holds e.region a = true) →
      (hostLoadByte s a).1 = Config.freeByte s.draws ∧
      (∃ c, (hostLoadByte s a).2 = { s with draws := s.draws + 1, hostCache := c }) ∧
      (s.plat.dmaCoherent = true → (hostLoadByte s a).2 = { s with draws := s.draws + 1 }) ∧
      (s.plat.dmaCoherent = false →
        (∀ c, s.cached a = some c → (hostLoadByte s a).2 = { s with draws := s.draws + 1 }) ∧
        (s.cached a = none → ∀ t : State, t.plat = s.plat → t.hostCache = (hostLoadByte s a).2.hostCache →
          t.genOwned a = false → hostLoadByte t a = (Config.freeByte s.draws, t)))) ∧
    ((∀ e ∈ s.engines, e.generates = true → Range.holds e.region a = false) → s.plat.dmaCoherent = true →
      hostLoadByte s a = (s.mem.read a, s))

/-- R83: after a host write into the REGION of a running GEN, to memory or to the host's cache, the turns the GEN has left end
it and leave every byte of the REGION that the memory system answers at a free value (logs 8 and 16, DESIGN CHOICE): with no
race before, the next ones in order. A GEN that ends with BUS_ERROR frees its REGION too (log 13). -/
def Obligations.HostWriteIntoARunningGenFreesItsRegion : Prop :=
  ∀ (s t : State) (a : Nat) (b : Byte), s.Ok → s.eng.generates = true → Range.holds s.eng.region a = true →
    t = storeByte s a b ∨ t = hostStore s a [b] →
    (runTurns (turnsLeft s.eng) t).eng.busy = false ∧
    ∀ i < s.eng.latched.count.toNat * 262144, s.answersAt (s.eng.latched.buf.toNat + i) = true →
      (∃ d, (runTurns (turnsLeft s.eng) t).mem.read (s.eng.latched.buf.toNat + i) = Config.freeByte d) ∧
      (s.eng.raced = [] →
        (runTurns (turnsLeft s.eng) t).mem.read (s.eng.latched.buf.toNat + i) = Config.freeByte (s.draws + i))

/-- R83: after a host write to a byte a running SCAN reads, to memory or to the host's cache, the turns the SCAN has left, its
reads being admitted, end it without an error and leave free values in BEST_DEADLINE and BEST_OFFSET (logs 8 and 16, DESIGN
CHOICE); a host write to any other byte leaves the SCAN as it was. -/
def Obligations.HostWriteIntoARunningScanFreesItsResult : Prop :=
  ∀ (s t : State) (a : Nat) (b : Byte) (r : ScanRun), s.eng.run = some (.scan r) →
    t = storeByte s a b ∨ t = hostStore s a [b] →
    (s.eng.latched.scanReads { base := a, len := 1 } = true → s.Ok → s.AdmitsScan s.eng.latched →
      (runTurns (turnsLeft s.eng) t).eng.busy = false ∧ (runTurns (turnsLeft s.eng) t).eng.status.err = false ∧
      (runTurns (turnsLeft s.eng) t).eng.bestDeadline = Config.freeWord s.draws ∧
      (runTurns (turnsLeft s.eng) t).eng.bestOffset = Config.freeWord (s.draws + 1)) ∧
    (s.eng.latched.scanReads { base := a, len := 1 } = false → t.eng = s.eng)

/-- R91, R148: a race is marked on a GEN exactly when its REGION overlaps that of a GEN or SCAN beside it, over exactly the
nonce buffers that share a byte with that REGION, and on a SCAN exactly when the REGION of a GEN beside it holds a byte the SCAN
reads; a SCAN marks none on another. A launch marks the races of the command it starts with each command running on a peer, on
both. The turns a raced command has left end it with every raced byte of a GEN that the memory system answers at, and the
result registers of a SCAN whose reads are admitted, at free values (logs 8, 13 and 16, DESIGN CHOICE); a GEN at its start, its
writes admitted, leaves every other byte as its pseudocode does. -/
def Obligations.OverlappingCommandsRace : Prop :=
  (∀ e o : Engine, e.raced = [] →
    (e.generates = true → o.usesRegion = true →
      ((e.contend o).raced ≠ [] ↔ Range.overlaps e.region o.region = true) ∧
      ∀ x, (∃ r ∈ (e.contend o).raced, Range.holds r x = true) ↔
        ∃ n < e.latched.count.toNat, Range.overlaps (e.latched.buffer n) o.region = true ∧
          Range.holds (e.latched.buffer n) x = true) ∧
    (∀ r, e.run = some (.scan r) →
      (o.generates = true → ((e.contend o).raced ≠ [] ↔ e.latched.scanReads o.region = true)) ∧
      (o.generates = false → e.contend o = e))) ∧
  (∀ s : State, s.eng.busy = false → s.eng.status.tplValid = true → s.pace = .turns 0 →
    s.touchesDevice (latch s.eng.operands).region = false →
    ((latch s.eng.operands).genFits s.eng.cfg.addrBits = true →
      ∃ t e, exec .gen s = .next t ∧ e = s.eng.started (.gen (genBatch s.eng.cfg (latch s.eng.operands) 0)) ∧
      t.eng.unraced = e ∧ t.peers = s.peers.map (fun p => p.contend e) ∧
      (t.eng.raced ≠ [] ↔ ∃ p ∈ s.peers, p.usesRegion = true ∧ Range.overlaps e.region p.region = true)) ∧
    (s.eng.operands.scoop.toNat ≤ 4095 → (latch s.eng.operands).fits s.eng.cfg.addrBits = true →
      ∃ t e, exec .scan s = .next t ∧ e = s.eng.started (.scan (scanBatch 0 Best.initial)) ∧
        t.eng.unraced = e ∧ t.peers = s.peers.map (fun p => p.contend e) ∧
        (t.eng.raced ≠ [] ↔ ∃ p ∈ s.peers, p.generates = true ∧ e.latched.scanReads p.region = true))) ∧
  ∀ s : State, s.Ok →
    (∀ r ∈ s.eng.raced, s.eng.generates = true → ∀ x, Range.holds r x = true → s.answersAt x = true →
      ∃ d, (runTurns (turnsLeft s.eng) s).mem.read x = Config.freeByte d) ∧
    (s.eng.run = some (.gen (genBatch s.eng.cfg s.eng.latched 0)) → s.AdmitsGen s.eng.latched → ∀ x,
      (∀ r ∈ s.eng.raced, Range.holds r x = false) → (runTurns (turnsLeft s.eng) s).mem.read x =
        (writeNonces s.eng.cfg s.eng.latched s.mem s.eng.latched.count.toNat).read x) ∧
    (∀ r, s.eng.run = some (.scan r) → s.eng.raced ≠ [] → s.AdmitsScan s.eng.latched →
      (runTurns (turnsLeft s.eng) s).eng.bestDeadline = Config.freeWord s.draws ∧
      (runTurns (turnsLeft s.eng) s).eng.bestOffset = Config.freeWord (s.draws + 1))

/-- R197: a step that addresses one instance leaves every register and the running command of every other as they were;
only the model's record of races on it may change (R91). -/
def Obligations.OtherInstancesKeepTheirState : Prop :=
  ∀ (s t : State) (a size : Nat) (v : Word) (p : Pace) (rest : List Input),
    s.inputs = { access := .regWrite a size v, pace := p } :: rest → step s = .next t →
    ∀ e ∈ s.engines, e.windowHolds a = false → ∃ e' ∈ t.engines, e'.unraced = e.unraced

/-! Reset and loss of power -/

/-- R205, R206, R207: a reset access is the reset event of the instance whose window it names. After the event every register
of the instance reads its reset value, CAPS its constant, nothing runs, the interrupt is low and the other instances are as
they were. Memory is as it was, but for a GEN that the reset abandons: every byte of its REGION that the memory system answers
at is then a free value, at once in the step of the reset (logs 8 and 17, DESIGN CHOICE). -/
def Obligations.ResetEventClearsTheInstance : Prop :=
  ∀ s : State, s.mem.wf →
    s.resetEngine.eng.cfg = s.eng.cfg ∧ s.resetEngine.eng.run = none ∧ s.resetEngine.eng.irq = false ∧
    s.resetEngine.eng.readOffset 0x00 = s.eng.readOffset 0x00 ∧
    (∀ off, off ≠ 0x00 → s.resetEngine.eng.readOffset off = 0#64) ∧
    s.resetEngine.peers = s.peers ∧
    (∀ (u : State) (a : Nat) (p : Pace) (rest : List Input), u.inputs = { access := .reset a, pace := p } :: rest →
      (u.take { access := .reset a, pace := p } rest).focus a = some s → step u = .next s.resetEngine) ∧
    (s.eng.generates = false → s.resetEngine.mem = s.mem) ∧
    (s.eng.generates = true →
      (∀ i < s.eng.latched.count.toNat * 262144, s.answersAt (s.eng.latched.buf.toNat + i) = true →
        s.resetEngine.mem.read (s.eng.latched.buf.toNat + i) = Config.freeByte (s.draws + i)) ∧
      ∀ a, Range.holds s.eng.region a = false → s.resetEngine.mem.read a = s.mem.read a)

/-- U28, R199: gating without retention is the loss of power of the instance whose window the access names. Every register then
reads a free value in its defined bits, CAPS its constant; no command goes on and the other instances are as they were. Memory
is as it was, but for a GEN that the loss abandons: every byte of its REGION that the memory system answers at is a free
value (log 30, DESIGN CHOICE). A reset that follows leaves the instance as a reset does and memory as it is. -/
def Obligations.PowerLossFreesEveryRegister : Prop :=
  ∀ s : State, s.mem.wf →
    (∃ d,
      s.losePower.eng.readOffset 0x10 = Config.freeWord d &&& 0x1FF0F#64 ∧
      s.losePower.eng.readOffset 0x18 = Config.freeWord (d + 1) &&& 0x1#64 ∧
      ∀ k off, ([0x20, 0x28, 0x30, 0x38, 0x40, 0x60, 0x68, 0x70, 0x78, 0x50, 0x58] : List Nat)[k]? = some off →
        s.losePower.eng.readOffset off = Config.freeWord (d + 2 + k)) ∧
    s.losePower.eng.cfg = s.eng.cfg ∧ s.losePower.eng.readOffset 0x00 = s.eng.readOffset 0x00 ∧
    turn s.losePower = s.losePower ∧ s.losePower.peers = s.peers ∧
    (∀ (u : State) (a : Nat) (p : Pace) (rest : List Input), u.inputs = { access := .powerLoss a, pace := p } :: rest →
      (u.take { access := .powerLoss a, pace := p } rest).focus a = some s → step u = .next s.losePower) ∧
    (s.eng.generates = false → s.losePower.mem = s.mem) ∧
    (s.eng.generates = true →
      (∀ i < s.eng.latched.count.toNat * 262144, s.answersAt (s.eng.latched.buf.toNat + i) = true →
        s.losePower.mem.read (s.eng.latched.buf.toNat + i) = Config.freeByte (s.draws + i)) ∧
      ∀ a, Range.holds s.eng.region a = false → s.losePower.mem.read a = s.mem.read a) ∧
    s.losePower.resetEngine.eng = Engine.reset s.eng.cfg ∧ s.losePower.resetEngine.mem = s.losePower.mem

/-- R32, R205: the registers of the machine's reset state, CAPS being that of the model's default configuration (log 1). -/
def Obligations.ResetStateRegisters : Prop :=
  State.reset.eng.readOffset 0x00 = 0x0002000040100008#64 ∧
    (∀ k < 31, State.reset.eng.readOffset (8 * (k + 1)) = 0#64) ∧ State.reset.eng.run = none

/-- The machine's reset state meets the invariant. -/
def Obligations.ResetStateMeetsTheInvariant : Prop :=
  State.reset.Ok

/-! The whole machine -/

/-- The invariant every step keeps, but a loss of power (log 30): memory in its canonical form and at most one byte per
address in the host's cache; on every instance legal parameters (R7 to R12), ERRCODE 0x00 exactly when ERR = 0 (R41) and never
above 0x05 (R180), DONE and ERR clear while BUSY (R39, R40), a running GEN or SCAN launched with a template, over a fitting
REGION (a GEN's may be empty instead, R153; log 26) and a scoop in range (R113, R182), at a position of its sequence with exactly the chain and digests of that position in
its lanes (R136, R139, R141, R149); and a window of its own for each instance (R12). Every step, a loss of power too, keeps
the part of it that is not about registers: memory's form, the cache's, the parameters and the windows. -/
def Obligations.StepKeepsTheInvariant : Prop :=
  (∀ s t : State, s.Ok → (∀ x rest a, s.inputs = x :: rest → x.access ≠ .powerLoss a) → step s = .next t → t.Ok) ∧
    ∀ s t : State, s.Formed → step s = .next t → t.Formed

/-- R34, R12: no step changes the parameters of an instance, and so CAPS, or the platform. -/
def Obligations.ConfigurationNeverChanges : Prop :=
  ∀ s t : State, step s = .next t →
    (t.engines.map Engine.cfg).Perm (s.engines.map Engine.cfg) ∧ t.plat = s.plat

/-- R38: once TPL_VALID is 1 on an instance, only a reset of that instance clears it, or a loss of its power that is not
followed by one (U28, log 30): no command does, and no other access. -/
def Obligations.OnlyResetClearsTheTemplate : Prop :=
  ∀ s t : State, step s = .next t → ∀ e ∈ s.engines, e.status.tplValid = true →
    (∀ x rest a, s.inputs = x :: rest → x.access = .reset a ∨ x.access = .powerLoss a → e.windowHolds a = false) →
    ∃ e' ∈ t.engines, e'.cfg = e.cfg ∧ e'.status.tplValid = true

/-- R127: no turn but the one that completes an INIT makes TPL_VALID 1. -/
def Obligations.OnlyInitBuildsTheTemplate : Prop :=
  ∀ s : State, s.eng.status.tplValid = false → (turn s).eng.status.tplValid = true →
    s.eng.run = some (.init .finish) ∧ (turn s).eng.busy = false ∧ (turn s).eng.status.done = true
end

