-- ==== Sys2Proof/Laws/Bytes.lean ====
section
/-! SUPPORT. Byte strings: lengths, concatenation, and the 64-byte blocks of the messages the engine hashes. -/

namespace Sys2Proof.Machine

theorem blocksOf_succ (b : Block) (n : Nat) (rest : List Byte) :
    blocksOf (n + 1) (b.toList ++ rest) = b :: blocksOf n rest := by
  have h : b.toList.length = 64 := Vector.length_toList
  rw [blocksOf, List.cons_eq_cons]
  constructor
  · refine Vector.ext fun i hi => ?_
    rw [Vector.getElem_ofFn, List.getD_eq_getElem?_getD, List.getElem?_append_left (by omega)]
    simp [hi]
  · rw [List.drop_append_of_le_length (by omega), List.drop_eq_nil_of_le (by omega), List.nil_append]

theorem concatBlocks_cons (x : HashBlock) (xs : List HashBlock) : concatBlocks (x :: xs) = x.toList ++ concatBlocks xs := rfl

theorem concatBlocks_append (xs ys : List HashBlock) : concatBlocks (xs ++ ys) = concatBlocks xs ++ concatBlocks ys := by
  simp [concatBlocks]

theorem concatBlocks_length (xs : List HashBlock) : (concatBlocks xs).length = 32 * xs.length := by
  induction xs with
  | nil => rfl
  | cons x xs ih => simp [concatBlocks_cons, ih]; omega

theorem pairBlocks_length : ∀ xs : List HashBlock, (pairBlocks xs).length = xs.length / 2
  | [] => rfl
  | [_] => by simp [pairBlocks]
  | x :: y :: r => by simp [pairBlocks, pairBlocks_length r]; omega

theorem joined_toList (x y : HashBlock) : (x ++ y : Block).toList = x.toList ++ y.toList := Vector.toList_append

theorem blocksOf_concat (xs : List HashBlock) (rest : List Byte) (n : Nat) (h : xs.length % 2 = 0) :
    blocksOf (xs.length / 2 + n) (concatBlocks xs ++ rest) = pairBlocks xs ++ blocksOf n rest := by
  induction xs using pairBlocks.induct with
  | case1 x y r ih =>
    have h' : r.length % 2 = 0 := by simp at h; omega
    have e : (x :: y :: r).length / 2 + n = (r.length / 2 + n) + 1 := by simp; omega
    have c : concatBlocks (x :: y :: r) ++ rest = (x ++ y : Block).toList ++ (concatBlocks r ++ rest) := by
      rw [joined_toList, concatBlocks_cons, concatBlocks_cons]
      simp only [List.append_assoc]
    rw [e, c, blocksOf_succ, ih h']
    rfl
  | case2 xs hx =>
    match xs, hx with
    | [], _ => simp [concatBlocks, pairBlocks]
    | [x], _ => simp at h
    | x :: y :: r, hx => exact absurd rfl (hx x y r)

theorem pad_length (m : List Byte) : (pad m).length = 64 * (m.length / 64 + 1) := by
  simp [pad]; omega

/-- The padded message of an even number of HashBlocks followed by a short tail. -/
theorem paddedBlocks_tail (xs : List HashBlock) (h : xs.length % 2 = 0) (tl : List Byte) (t : Block)
    (ht : t.toList = tl ++ termByte :: List.replicate (63 - tl.length) 0) (hl : tl.length < 64) :
    paddedBlocks (concatBlocks xs ++ tl) = pairBlocks xs ++ [t] := by
  have hlen : (concatBlocks xs ++ tl).length = 64 * (xs.length / 2) + tl.length := by
    simp [concatBlocks_length]; omega
  have hp : pad (concatBlocks xs ++ tl) = concatBlocks xs ++ (t.toList ++ []) := by
    unfold pad
    rw [hlen, List.append_assoc, List.append_nil, ht]
    congr 4
    omega
  unfold paddedBlocks
  rw [pad_length, hlen, hp]
  have : 64 * ((64 * (xs.length / 2) + tl.length) / 64 + 1) / 64 = xs.length / 2 + (0 + 1) := by omega
  rw [this, blocksOf_concat _ _ _ h, blocksOf_succ]
  rfl

theorem seed32_toList (a v : Word) : (seed32 a v).toList = (s16 a v).toList ++ termByte :: List.replicate 15 0 :=
  (Vector.toList_append (xs := s16 a v) (ys := #v[termByte] ++ Vector.replicate 15 (0 : Byte))).trans
    (congrArg ((s16 a v).toList ++ ·) rfl)

theorem term32_toList : term32.toList = termByte :: List.replicate 31 0 := rfl

theorem zero32_toList : zero32.toList = List.replicate 32 0 := rfl

theorem blockT1_toList (a v : Word) : (blockT1 a v).toList = (s16 a v).toList ++ termByte :: List.replicate 47 0 := by
  rw [blockT1, joined_toList, seed32_toList, zero32_toList, List.append_assoc]; rfl

theorem blockT2_toList (x : HashBlock) (a v : Word) :
    (blockT2 x a v).toList = (x.toList ++ (s16 a v).toList) ++ termByte :: List.replicate 15 0 := by
  rw [blockT2, joined_toList, seed32_toList, List.append_assoc]

theorem blockT3_toList : blockT3.toList = [] ++ termByte :: List.replicate 63 0 := by
  rw [blockT3, joined_toList, term32_toList, zero32_toList]; rfl

theorem blockT4_toList (b : HashBlock) : (blockT4 b).toList = b.toList ++ termByte :: List.replicate 31 0 := by
  rw [blockT4, joined_toList, term32_toList]

/-- The padded message of a round is its data blocks and its final block (R139). -/
theorem paddedBlocks_round (cb k : Nat) (a v : Word) (above : List HashBlock) (hk : 1 ≤ k) (hcb : cb % 2 = 0)
    (hl : above.length = k - 1) :
    paddedBlocks (roundMessage cb k above (s16 a v)) = roundData cb k above ++ [finalBlock (roundShape cb k) a v above] := by
  unfold roundData roundShape roundMessage
  by_cases h : cb < k
  · have ht : (above.take cb).length = cb := by simp; omega
    simp only [h, if_true, if_neg (Nat.not_le.mpr h), finalBlock]
    have := paddedBlocks_tail (above.take cb) (by omega) [] blockT3 (by rw [blockT3_toList]; rfl) (by simp)
    rw [List.append_nil] at this
    rw [this]
  · simp only [h, if_false, if_pos (Nat.not_lt.mp h)]
    by_cases ho : k % 2 = 1
    · simp only [ho, if_true, finalBlock]
      rw [paddedBlocks_tail above (by omega) _ (blockT1 a v) (by rw [blockT1_toList, Vector.length_toList]) (by simp)]
    · simp only [ho, if_false, finalBlock]
      have hne : above ≠ [] := by intro h0; simp [h0] at hl; omega
      have hs : above = above.dropLast ++ [above.getLastD zero32] := by
        rw [List.getLastD_eq_getLast?, List.getLast?_eq_some_getLast hne]
        exact (List.dropLast_append_getLast hne).symm
      conv_lhs => rw [hs]
      rw [concatBlocks_append, List.append_assoc, paddedBlocks_tail above.dropLast (by simp; omega) _
        (blockT2 (above.getLastD zero32) a v) (by rw [blockT2_toList]; simp [concatBlocks]) (by simp [concatBlocks])]

/-- The padded message of the final hash is the chain's blocks and its final block (R141). -/
theorem paddedBlocks_final (tail : Bool) (a v : Word) (chain : List HashBlock) (hl : chain.length % 2 = 0) :
    paddedBlocks (finalMessage tail chain (s16 a v)) =
      pairBlocks chain ++ [finalBlock (if tail then .t1 else .t3) a v chain] := by
  unfold finalMessage
  cases tail
  · have := paddedBlocks_tail chain hl [] blockT3 (by rw [blockT3_toList]; rfl) (by simp)
    simp only [Bool.false_eq_true, if_false, finalBlock]
    rw [this]
  · have := paddedBlocks_tail chain hl (s16 a v).toList (blockT1 a v) (by rw [blockT1_toList, Vector.length_toList])
      (by simp)
    simp only [if_true, finalBlock]
    rw [this]

/-- The padded message of a scoop digest is `G ‖ A` and `B ‖ Term32` (R164). -/
theorem paddedBlocks_scoop (g a b : HashBlock) : paddedBlocks (g.toList ++ a.toList ++ b.toList) = [g ++ a, blockT4 b] := by
  have := paddedBlocks_tail [g, a] (by simp) b.toList (blockT4 b) (by rw [blockT4_toList, Vector.length_toList]) (by simp)
  simp only [concatBlocks, List.flatMap_cons, List.flatMap_nil, List.append_nil] at this
  rw [this]
  rfl

theorem chainAfter_length (bh : List Block → HashBlock) (cb : Nat) (seed : Vector Byte 16) (k : Nat) :
    (chainAfter bh cb seed k).length = k := by
  induction k with
  | zero => rfl
  | succ k ih => simp [chainAfter, ih]


/-! Blocks back to bytes -/

theorem ofFn_getD_toList (n : Nat) (bs : List Byte) (h : n ≤ bs.length) :
    (Vector.ofFn fun i : Fin n => bs.getD i.val 0).toList = bs.take n := by
  rw [Vector.toList_ofFn]
  refine List.ext_getElem (by rw [List.length_ofFn, List.length_take]; omega) fun i h1 h2 => ?_
  rw [List.length_ofFn] at h1
  rw [List.getElem_ofFn, List.getElem_take, List.getD_eq_getElem?_getD, List.getElem?_eq_getElem (by omega),
    Option.getD_some]

theorem blocksOf_flatMap (n : Nat) (bs : List Byte) (h : bs.length = 64 * n) :
    (blocksOf n bs).flatMap Vector.toList = bs := by
  induction n generalizing bs with
  | zero =>
    have : bs = [] := List.eq_nil_of_length_eq_zero (by omega)
    subst this
    rfl
  | succ n ih =>
    rw [blocksOf, List.flatMap_cons, ih _ (by rw [List.length_drop]; omega), ofFn_getD_toList 64 bs (by omega),
      List.take_append_drop]

/-- The blocks of a padded message are its bytes (R19). -/
theorem paddedBlocks_flatMap (m : List Byte) : (paddedBlocks m).flatMap Vector.toList = pad m :=
  blocksOf_flatMap _ _ (by rw [pad_length]; omega)

theorem blocksOf_length (n : Nat) (bs : List Byte) : (blocksOf n bs).length = n := by
  induction n generalizing bs with
  | zero => rfl
  | succ n ih => rw [blocksOf, List.length_cons, ih]

theorem paddedBlocks_length (m : List Byte) : (paddedBlocks m).length = m.length / 64 + 1 := by
  rw [paddedBlocks, blocksOf_length, pad_length]
  omega

theorem pairBlocks_flatMap (xs : List HashBlock) (h : xs.length % 2 = 0) :
    (pairBlocks xs).flatMap Vector.toList = concatBlocks xs := by
  induction xs using pairBlocks.induct with
  | case1 x y r ih =>
    simp only [List.length_cons] at h
    rw [pairBlocks, List.flatMap_cons, ih (by omega), joined_toList, concatBlocks_cons, concatBlocks_cons,
      List.append_assoc]
  | case2 xs hx =>
    match xs, hx with
    | [], _ => rfl
    | [x], _ => simp at h
    | x :: y :: r, hx => exact absurd rfl (hx x y r)

/-- Block `j` of a chain hashes the blocks above it: the chain after `n` rounds read by index (R136). -/
theorem chainAfter_getD (bh : List Block → HashBlock) (cb : Nat) (seed : Vector Byte 16) (n j : Nat) (hj : j < n) :
    (chainAfter bh cb seed n).getD j zero32 =
      hash bh (roundMessage cb (n - j) ((chainAfter bh cb seed n).drop (j + 1)) seed) := by
  induction n generalizing j with
  | zero => omega
  | succ n ih =>
    rw [chainAfter]
    cases j with
    | zero => simp
    | succ j =>
      simp only [List.getD_cons_succ, List.drop_succ_cons]
      rw [ih j (by omega)]
      congr 2
      omega

/-! Work counts (R220) -/

theorem sum_uncapped (m t : Nat) (h : t ≤ m) :
    ((List.range (2 * t)).map fun k => roundBlocks (2 * m) (k + 1) + 1).sum = t * t + t := by
  induction t with
  | zero => rfl
  | succ t ih =>
    have h1 : roundBlocks (2 * m) (2 * t + 1) = t := by
      unfold roundBlocks
      rw [if_neg (by omega)]
      omega
    have h2 : roundBlocks (2 * m) (2 * t + 1 + 1) = t := by
      unfold roundBlocks
      rw [if_neg (by omega)]
      omega
    rw [show 2 * (t + 1) = 2 * t + 1 + 1 by omega, List.range_succ, List.range_succ]
    simp only [List.map_append, List.sum_append, List.map_cons, List.map_nil, List.sum_cons, List.sum_nil]
    rw [ih (by omega), h1, h2]
    ring

theorem sum_capped (m u : Nat) :
    ((List.range (2 * m + u)).map fun k => roundBlocks (2 * m) (k + 1) + 1).sum = m * m + m + u * (m + 1) := by
  induction u with
  | zero => rw [Nat.add_zero, sum_uncapped m m (Nat.le_refl _), Nat.zero_mul, Nat.add_zero]
  | succ u ih =>
    have h1 : roundBlocks (2 * m) (2 * m + u + 1) = m := by
      unfold roundBlocks
      rw [if_pos (by omega)]
      omega
    rw [← Nat.add_assoc, List.range_succ]
    simp only [List.map_append, List.sum_append, List.map_cons, List.map_nil, List.sum_cons, List.sum_nil]
    rw [ih, h1]
    ring

end Sys2Proof.Machine
end

