-- ==== Sys2Proof/Laws/State.lean ====
section
/-! SUPPORT. One lemma per field and named update, each true by rfl, and what races change. -/

namespace Sys2Proof.Machine

/-! The named updates of the state -/

@[simp] theorem State.withEng_eng (s : State) (e : Engine) : (s.withEng e).eng = e := rfl
@[simp] theorem State.withEng_peers (s : State) (e : Engine) : (s.withEng e).peers = s.peers := rfl
@[simp] theorem State.withEng_plat (s : State) (e : Engine) : (s.withEng e).plat = s.plat := rfl
@[simp] theorem State.withEng_mem (s : State) (e : Engine) : (s.withEng e).mem = s.mem := rfl
@[simp] theorem State.withEng_hostCache (s : State) (e : Engine) : (s.withEng e).hostCache = s.hostCache := rfl
@[simp] theorem State.withEng_answer (s : State) (e : Engine) : (s.withEng e).answer = s.answer := rfl
@[simp] theorem State.withEng_draws (s : State) (e : Engine) : (s.withEng e).draws = s.draws := rfl
@[simp] theorem State.withEng_inputs (s : State) (e : Engine) : (s.withEng e).inputs = s.inputs := rfl
@[simp] theorem State.withEng_pace (s : State) (e : Engine) : (s.withEng e).pace = s.pace := rfl

@[simp] theorem State.withMem_eng (s : State) (m : Memory) : (s.withMem m).eng = s.eng := rfl
@[simp] theorem State.withMem_peers (s : State) (m : Memory) : (s.withMem m).peers = s.peers := rfl
@[simp] theorem State.withMem_plat (s : State) (m : Memory) : (s.withMem m).plat = s.plat := rfl
@[simp] theorem State.withMem_mem (s : State) (m : Memory) : (s.withMem m).mem = m := rfl
@[simp] theorem State.withMem_hostCache (s : State) (m : Memory) : (s.withMem m).hostCache = s.hostCache := rfl
@[simp] theorem State.withMem_answer (s : State) (m : Memory) : (s.withMem m).answer = s.answer := rfl
@[simp] theorem State.withMem_draws (s : State) (m : Memory) : (s.withMem m).draws = s.draws := rfl
@[simp] theorem State.withMem_inputs (s : State) (m : Memory) : (s.withMem m).inputs = s.inputs := rfl
@[simp] theorem State.withMem_pace (s : State) (m : Memory) : (s.withMem m).pace = s.pace := rfl

@[simp] theorem State.withAnswer_eng (s : State) (a : Answer) : (s.withAnswer a).eng = s.eng := rfl
@[simp] theorem State.withAnswer_peers (s : State) (a : Answer) : (s.withAnswer a).peers = s.peers := rfl
@[simp] theorem State.withAnswer_plat (s : State) (a : Answer) : (s.withAnswer a).plat = s.plat := rfl
@[simp] theorem State.withAnswer_mem (s : State) (a : Answer) : (s.withAnswer a).mem = s.mem := rfl
@[simp] theorem State.withAnswer_hostCache (s : State) (a : Answer) : (s.withAnswer a).hostCache = s.hostCache := rfl
@[simp] theorem State.withAnswer_answer (s : State) (a : Answer) : (s.withAnswer a).answer = a := rfl
@[simp] theorem State.withAnswer_draws (s : State) (a : Answer) : (s.withAnswer a).draws = s.draws := rfl
@[simp] theorem State.withAnswer_inputs (s : State) (a : Answer) : (s.withAnswer a).inputs = s.inputs := rfl
@[simp] theorem State.withAnswer_pace (s : State) (a : Answer) : (s.withAnswer a).pace = s.pace := rfl

@[simp] theorem State.take_eng (s : State) (x : Input) (rest : List Input) : (s.take x rest).eng = s.eng := rfl
@[simp] theorem State.take_peers (s : State) (x : Input) (rest : List Input) : (s.take x rest).peers = s.peers := rfl
@[simp] theorem State.take_plat (s : State) (x : Input) (rest : List Input) : (s.take x rest).plat = s.plat := rfl
@[simp] theorem State.take_mem (s : State) (x : Input) (rest : List Input) : (s.take x rest).mem = s.mem := rfl
@[simp] theorem State.take_hostCache (s : State) (x : Input) (rest : List Input) : (s.take x rest).hostCache = s.hostCache := rfl
@[simp] theorem State.take_answer (s : State) (x : Input) (rest : List Input) : (s.take x rest).answer = s.answer := rfl
@[simp] theorem State.take_draws (s : State) (x : Input) (rest : List Input) : (s.take x rest).draws = s.draws := rfl
@[simp] theorem State.take_inputs (s : State) (x : Input) (rest : List Input) : (s.take x rest).inputs = rest := rfl
@[simp] theorem State.take_pace (s : State) (x : Input) (rest : List Input) : (s.take x rest).pace = x.pace := rfl

@[simp] theorem State.freeRange_eng (s : State) (r : Range) : (s.freeRange r).eng = s.eng := rfl
@[simp] theorem State.freeRange_peers (s : State) (r : Range) : (s.freeRange r).peers = s.peers := rfl
@[simp] theorem State.freeRange_plat (s : State) (r : Range) : (s.freeRange r).plat = s.plat := rfl
@[simp] theorem State.freeRange_mem (s : State) (r : Range) : (s.freeRange r).mem = s.mem.fillFree s.answersAt r.base s.draws r.len := rfl
@[simp] theorem State.freeRange_hostCache (s : State) (r : Range) : (s.freeRange r).hostCache = s.hostCache := rfl
@[simp] theorem State.freeRange_answer (s : State) (r : Range) : (s.freeRange r).answer = s.answer := rfl
@[simp] theorem State.freeRange_draws (s : State) (r : Range) : (s.freeRange r).draws = s.draws + r.len := rfl
@[simp] theorem State.freeRange_inputs (s : State) (r : Range) : (s.freeRange r).inputs = s.inputs := rfl
@[simp] theorem State.freeRange_pace (s : State) (r : Range) : (s.freeRange r).pace = s.pace := rfl

@[simp] theorem State.drawn_eng (s : State) (n : Nat) : (s.drawn n).eng = s.eng := rfl
@[simp] theorem State.drawn_peers (s : State) (n : Nat) : (s.drawn n).peers = s.peers := rfl
@[simp] theorem State.drawn_plat (s : State) (n : Nat) : (s.drawn n).plat = s.plat := rfl
@[simp] theorem State.drawn_mem (s : State) (n : Nat) : (s.drawn n).mem = s.mem := rfl
@[simp] theorem State.drawn_hostCache (s : State) (n : Nat) : (s.drawn n).hostCache = s.hostCache := rfl
@[simp] theorem State.drawn_answer (s : State) (n : Nat) : (s.drawn n).answer = s.answer := rfl
@[simp] theorem State.drawn_draws (s : State) (n : Nat) : (s.drawn n).draws = s.draws + n := rfl
@[simp] theorem State.drawn_inputs (s : State) (n : Nat) : (s.drawn n).inputs = s.inputs := rfl
@[simp] theorem State.drawn_pace (s : State) (n : Nat) : (s.drawn n).pace = s.pace := rfl

@[simp] theorem State.contend_eng (s : State) : (s.contend).eng = s.peers.foldl Engine.contend s.eng := rfl
@[simp] theorem State.contend_peers (s : State) : (s.contend).peers = s.peers.map fun p => p.contend s.eng := rfl
@[simp] theorem State.contend_plat (s : State) : (s.contend).plat = s.plat := rfl
@[simp] theorem State.contend_mem (s : State) : (s.contend).mem = s.mem := rfl
@[simp] theorem State.contend_hostCache (s : State) : (s.contend).hostCache = s.hostCache := rfl
@[simp] theorem State.contend_answer (s : State) : (s.contend).answer = s.answer := rfl
@[simp] theorem State.contend_draws (s : State) : (s.contend).draws = s.draws := rfl
@[simp] theorem State.contend_inputs (s : State) : (s.contend).inputs = s.inputs := rfl
@[simp] theorem State.contend_pace (s : State) : (s.contend).pace = s.pace := rfl

@[simp] theorem State.raceWrite_eng (s : State) (r : Range) : (s.raceWrite r).eng = s.eng.raceWrite r := rfl
@[simp] theorem State.raceWrite_peers (s : State) (r : Range) : (s.raceWrite r).peers = s.peers.map (Engine.raceWrite r) := rfl
@[simp] theorem State.raceWrite_plat (s : State) (r : Range) : (s.raceWrite r).plat = s.plat := rfl
@[simp] theorem State.raceWrite_mem (s : State) (r : Range) : (s.raceWrite r).mem = s.mem := rfl
@[simp] theorem State.raceWrite_hostCache (s : State) (r : Range) : (s.raceWrite r).hostCache = s.hostCache := rfl
@[simp] theorem State.raceWrite_answer (s : State) (r : Range) : (s.raceWrite r).answer = s.answer := rfl
@[simp] theorem State.raceWrite_draws (s : State) (r : Range) : (s.raceWrite r).draws = s.draws := rfl
@[simp] theorem State.raceWrite_inputs (s : State) (r : Range) : (s.raceWrite r).inputs = s.inputs := rfl
@[simp] theorem State.raceWrite_pace (s : State) (r : Range) : (s.raceWrite r).pace = s.pace := rfl

@[simp] theorem State.abandon_eng (s : State) : s.abandon.eng = s.eng := by
  unfold State.abandon; split <;> first | exact State.freeRange_eng .. | rfl
@[simp] theorem State.abandon_peers (s : State) : s.abandon.peers = s.peers := by
  unfold State.abandon; split <;> first | exact State.freeRange_peers .. | rfl
@[simp] theorem State.abandon_plat (s : State) : s.abandon.plat = s.plat := by
  unfold State.abandon; split <;> first | exact State.freeRange_plat .. | rfl
@[simp] theorem State.abandon_hostCache (s : State) : s.abandon.hostCache = s.hostCache := by
  unfold State.abandon; split <;> first | exact State.freeRange_hostCache .. | rfl
@[simp] theorem State.abandon_answer (s : State) : s.abandon.answer = s.answer := by
  unfold State.abandon; split <;> first | exact State.freeRange_answer .. | rfl
@[simp] theorem State.abandon_inputs (s : State) : s.abandon.inputs = s.inputs := by
  unfold State.abandon; split <;> first | exact State.freeRange_inputs .. | rfl
@[simp] theorem State.abandon_pace (s : State) : s.abandon.pace = s.pace := by
  unfold State.abandon; split <;> first | exact State.freeRange_pace .. | rfl

@[simp] theorem State.resetEngine_peers (s : State) : s.resetEngine.peers = s.peers := s.abandon_peers
@[simp] theorem State.resetEngine_plat (s : State) : s.resetEngine.plat = s.plat := s.abandon_plat
@[simp] theorem State.resetEngine_hostCache (s : State) : s.resetEngine.hostCache = s.hostCache := s.abandon_hostCache
@[simp] theorem State.resetEngine_answer (s : State) : s.resetEngine.answer = s.answer := s.abandon_answer
@[simp] theorem State.resetEngine_inputs (s : State) : s.resetEngine.inputs = s.inputs := s.abandon_inputs
@[simp] theorem State.resetEngine_pace (s : State) : s.resetEngine.pace = s.pace := s.abandon_pace
@[simp] theorem State.resetEngine_eng (s : State) : s.resetEngine.eng = Engine.reset s.eng.cfg := rfl
@[simp] theorem State.resetEngine_mem (s : State) : s.resetEngine.mem = s.abandon.mem := rfl
@[simp] theorem State.resetEngine_draws (s : State) : s.resetEngine.draws = s.abandon.draws := rfl

theorem State.losePower_eq (s : State) :
    s.losePower = (s.abandon.withEng (s.eng.unretained s.abandon.draws)).drawn unretainedDraws := rfl

@[simp] theorem State.losePower_peers (s : State) : s.losePower.peers = s.peers := by
  rw [State.losePower_eq, State.drawn_peers, State.withEng_peers, State.abandon_peers]
@[simp] theorem State.losePower_plat (s : State) : s.losePower.plat = s.plat := by
  rw [State.losePower_eq, State.drawn_plat, State.withEng_plat, State.abandon_plat]
@[simp] theorem State.losePower_hostCache (s : State) : s.losePower.hostCache = s.hostCache := by
  rw [State.losePower_eq, State.drawn_hostCache, State.withEng_hostCache, State.abandon_hostCache]
@[simp] theorem State.losePower_answer (s : State) : s.losePower.answer = s.answer := by
  rw [State.losePower_eq, State.drawn_answer, State.withEng_answer, State.abandon_answer]
@[simp] theorem State.losePower_inputs (s : State) : s.losePower.inputs = s.inputs := by
  rw [State.losePower_eq, State.drawn_inputs, State.withEng_inputs, State.abandon_inputs]
@[simp] theorem State.losePower_pace (s : State) : s.losePower.pace = s.pace := by
  rw [State.losePower_eq, State.drawn_pace, State.withEng_pace, State.abandon_pace]
@[simp] theorem State.losePower_eng (s : State) : s.losePower.eng = s.eng.unretained s.abandon.draws := by
  rw [State.losePower_eq, State.drawn_eng, State.withEng_eng]
@[simp] theorem State.losePower_mem (s : State) : s.losePower.mem = s.abandon.mem := by
  rw [State.losePower_eq, State.drawn_mem, State.withEng_mem]
@[simp] theorem State.losePower_draws (s : State) : s.losePower.draws = s.abandon.draws + unretainedDraws := by
  rw [State.losePower_eq, State.drawn_draws, State.withEng_draws]

/-! The named updates of an instance -/

@[simp] theorem Engine.accept_cfg (e : Engine) : (e.accept).cfg = e.cfg := rfl
@[simp] theorem Engine.accept_status (e : Engine) : (e.accept).status = e.status.clearOutcome := rfl
@[simp] theorem Engine.accept_doneIe (e : Engine) : (e.accept).doneIe = e.doneIe := rfl
@[simp] theorem Engine.accept_operands (e : Engine) : (e.accept).operands = e.operands := rfl
@[simp] theorem Engine.accept_bestDeadline (e : Engine) : (e.accept).bestDeadline = e.bestDeadline := rfl
@[simp] theorem Engine.accept_bestOffset (e : Engine) : (e.accept).bestOffset = e.bestOffset := rfl
@[simp] theorem Engine.accept_latched (e : Engine) : (e.accept).latched = latch e.operands := rfl
@[simp] theorem Engine.accept_run (e : Engine) : (e.accept).run = e.run := rfl
@[simp] theorem Engine.accept_raced (e : Engine) : (e.accept).raced = e.raced := rfl

@[simp] theorem Engine.refuse_cfg (e : Engine) : (e.refuse).cfg = e.cfg := rfl
@[simp] theorem Engine.refuse_status (e : Engine) : (e.refuse).status = { e.status with reject := true } := rfl
@[simp] theorem Engine.refuse_doneIe (e : Engine) : (e.refuse).doneIe = e.doneIe := rfl
@[simp] theorem Engine.refuse_operands (e : Engine) : (e.refuse).operands = e.operands := rfl
@[simp] theorem Engine.refuse_bestDeadline (e : Engine) : (e.refuse).bestDeadline = e.bestDeadline := rfl
@[simp] theorem Engine.refuse_bestOffset (e : Engine) : (e.refuse).bestOffset = e.bestOffset := rfl
@[simp] theorem Engine.refuse_latched (e : Engine) : (e.refuse).latched = e.latched := rfl
@[simp] theorem Engine.refuse_run (e : Engine) : (e.refuse).run = e.run := rfl
@[simp] theorem Engine.refuse_raced (e : Engine) : (e.refuse).raced = e.raced := rfl

@[simp] theorem Engine.start_cfg (e : Engine) (r : Run) : (e.start r).cfg = e.cfg := rfl
@[simp] theorem Engine.start_status (e : Engine) (r : Run) : (e.start r).status = e.status := rfl
@[simp] theorem Engine.start_doneIe (e : Engine) (r : Run) : (e.start r).doneIe = e.doneIe := rfl
@[simp] theorem Engine.start_operands (e : Engine) (r : Run) : (e.start r).operands = e.operands := rfl
@[simp] theorem Engine.start_bestDeadline (e : Engine) (r : Run) : (e.start r).bestDeadline = e.bestDeadline := rfl
@[simp] theorem Engine.start_bestOffset (e : Engine) (r : Run) : (e.start r).bestOffset = e.bestOffset := rfl
@[simp] theorem Engine.start_latched (e : Engine) (r : Run) : (e.start r).latched = e.latched := rfl
@[simp] theorem Engine.start_run (e : Engine) (r : Run) : (e.start r).run = some r := rfl
@[simp] theorem Engine.start_raced (e : Engine) (r : Run) : (e.start r).raced = [] := rfl

@[simp] theorem Engine.moveTo_cfg (e : Engine) (r : Run) : (e.moveTo r).cfg = e.cfg := rfl
@[simp] theorem Engine.moveTo_status (e : Engine) (r : Run) : (e.moveTo r).status = e.status := rfl
@[simp] theorem Engine.moveTo_doneIe (e : Engine) (r : Run) : (e.moveTo r).doneIe = e.doneIe := rfl
@[simp] theorem Engine.moveTo_operands (e : Engine) (r : Run) : (e.moveTo r).operands = e.operands := rfl
@[simp] theorem Engine.moveTo_bestDeadline (e : Engine) (r : Run) : (e.moveTo r).bestDeadline = e.bestDeadline := rfl
@[simp] theorem Engine.moveTo_bestOffset (e : Engine) (r : Run) : (e.moveTo r).bestOffset = e.bestOffset := rfl
@[simp] theorem Engine.moveTo_latched (e : Engine) (r : Run) : (e.moveTo r).latched = e.latched := rfl
@[simp] theorem Engine.moveTo_run (e : Engine) (r : Run) : (e.moveTo r).run = some r := rfl
@[simp] theorem Engine.moveTo_raced (e : Engine) (r : Run) : (e.moveTo r).raced = e.raced := rfl

@[simp] theorem Engine.raise_cfg (e : Engine) (c : ErrCode) : (e.raise c).cfg = e.cfg := rfl
@[simp] theorem Engine.raise_status (e : Engine) (c : ErrCode) : (e.raise c).status = e.status.withError c := rfl
@[simp] theorem Engine.raise_doneIe (e : Engine) (c : ErrCode) : (e.raise c).doneIe = e.doneIe := rfl
@[simp] theorem Engine.raise_operands (e : Engine) (c : ErrCode) : (e.raise c).operands = e.operands := rfl
@[simp] theorem Engine.raise_bestDeadline (e : Engine) (c : ErrCode) : (e.raise c).bestDeadline = e.bestDeadline := rfl
@[simp] theorem Engine.raise_bestOffset (e : Engine) (c : ErrCode) : (e.raise c).bestOffset = e.bestOffset := rfl
@[simp] theorem Engine.raise_latched (e : Engine) (c : ErrCode) : (e.raise c).latched = e.latched := rfl
@[simp] theorem Engine.raise_run (e : Engine) (c : ErrCode) : (e.raise c).run = none := rfl
@[simp] theorem Engine.raise_raced (e : Engine) (c : ErrCode) : (e.raise c).raced = [] := rfl

@[simp] theorem Engine.complete_cfg (e : Engine) : (e.complete).cfg = e.cfg := rfl
@[simp] theorem Engine.complete_status (e : Engine) : (e.complete).status = { e.status with done := true } := rfl
@[simp] theorem Engine.complete_doneIe (e : Engine) : (e.complete).doneIe = e.doneIe := rfl
@[simp] theorem Engine.complete_operands (e : Engine) : (e.complete).operands = e.operands := rfl
@[simp] theorem Engine.complete_bestDeadline (e : Engine) : (e.complete).bestDeadline = e.bestDeadline := rfl
@[simp] theorem Engine.complete_bestOffset (e : Engine) : (e.complete).bestOffset = e.bestOffset := rfl
@[simp] theorem Engine.complete_latched (e : Engine) : (e.complete).latched = e.latched := rfl
@[simp] theorem Engine.complete_run (e : Engine) : (e.complete).run = none := rfl
@[simp] theorem Engine.complete_raced (e : Engine) : (e.complete).raced = [] := rfl

@[simp] theorem Engine.buildTemplate_cfg (e : Engine) : (e.buildTemplate).cfg = e.cfg := rfl
@[simp] theorem Engine.buildTemplate_status (e : Engine) : (e.buildTemplate).status = { e.status with tplValid := true } := rfl
@[simp] theorem Engine.buildTemplate_doneIe (e : Engine) : (e.buildTemplate).doneIe = e.doneIe := rfl
@[simp] theorem Engine.buildTemplate_operands (e : Engine) : (e.buildTemplate).operands = e.operands := rfl
@[simp] theorem Engine.buildTemplate_bestDeadline (e : Engine) : (e.buildTemplate).bestDeadline = e.bestDeadline := rfl
@[simp] theorem Engine.buildTemplate_bestOffset (e : Engine) : (e.buildTemplate).bestOffset = e.bestOffset := rfl
@[simp] theorem Engine.buildTemplate_latched (e : Engine) : (e.buildTemplate).latched = e.latched := rfl
@[simp] theorem Engine.buildTemplate_run (e : Engine) : (e.buildTemplate).run = e.run := rfl
@[simp] theorem Engine.buildTemplate_raced (e : Engine) : (e.buildTemplate).raced = e.raced := rfl

@[simp] theorem Engine.withBest_cfg (e : Engine) (x y : Word) : (e.withBest x y).cfg = e.cfg := rfl
@[simp] theorem Engine.withBest_status (e : Engine) (x y : Word) : (e.withBest x y).status = e.status := rfl
@[simp] theorem Engine.withBest_doneIe (e : Engine) (x y : Word) : (e.withBest x y).doneIe = e.doneIe := rfl
@[simp] theorem Engine.withBest_operands (e : Engine) (x y : Word) : (e.withBest x y).operands = e.operands := rfl
@[simp] theorem Engine.withBest_bestDeadline (e : Engine) (x y : Word) : (e.withBest x y).bestDeadline = x := rfl
@[simp] theorem Engine.withBest_bestOffset (e : Engine) (x y : Word) : (e.withBest x y).bestOffset = y := rfl
@[simp] theorem Engine.withBest_latched (e : Engine) (x y : Word) : (e.withBest x y).latched = e.latched := rfl
@[simp] theorem Engine.withBest_run (e : Engine) (x y : Word) : (e.withBest x y).run = e.run := rfl
@[simp] theorem Engine.withBest_raced (e : Engine) (x y : Word) : (e.withBest x y).raced = e.raced := rfl

@[simp] theorem Engine.unretained_cfg (e : Engine) (d : Nat) : (e.unretained d).cfg = e.cfg := rfl
@[simp] theorem Engine.unretained_status (e : Engine) (d : Nat) : (e.unretained d).status =
    Status.ofWord (Config.freeWord d) := rfl
@[simp] theorem Engine.unretained_doneIe (e : Engine) (d : Nat) : (e.unretained d).doneIe =
    (Config.freeWord (d + 1)).getLsbD 0 := rfl
@[simp] theorem Engine.unretained_operands (e : Engine) (d : Nat) : (e.unretained d).operands =
    Operands.free (d + 2) := rfl
@[simp] theorem Engine.unretained_bestDeadline (e : Engine) (d : Nat) : (e.unretained d).bestDeadline =
    Config.freeWord (d + 11) := rfl
@[simp] theorem Engine.unretained_bestOffset (e : Engine) (d : Nat) : (e.unretained d).bestOffset =
    Config.freeWord (d + 12) := rfl
@[simp] theorem Engine.unretained_latched (e : Engine) (d : Nat) : (e.unretained d).latched =
    Latched.free (d + 13) := rfl
@[simp] theorem Engine.unretained_run (e : Engine) (d : Nat) : (e.unretained d).run =
    if (Config.freeWord d).getLsbD 0 then some .lost else none := rfl
@[simp] theorem Engine.unretained_raced (e : Engine) (d : Nat) : (e.unretained d).raced = [] := rfl

/-! The status bits -/

@[simp] theorem Status.clearOutcome_tplValid (x : Status) : x.clearOutcome.tplValid = x.tplValid := rfl
@[simp] theorem Status.clearOutcome_done (x : Status) : x.clearOutcome.done = false := rfl
@[simp] theorem Status.clearOutcome_err (x : Status) : x.clearOutcome.err = false := rfl
@[simp] theorem Status.clearOutcome_errcode (x : Status) : x.clearOutcome.errcode = 0x00 := rfl
@[simp] theorem Status.clearOutcome_reject (x : Status) : x.clearOutcome.reject = x.reject := rfl

@[simp] theorem Status.withError_tplValid (x : Status) (c : ErrCode) : (x.withError c).tplValid = x.tplValid := rfl
@[simp] theorem Status.withError_done (x : Status) (c : ErrCode) : (x.withError c).done = true := rfl
@[simp] theorem Status.withError_err (x : Status) (c : ErrCode) : (x.withError c).err = true := rfl
@[simp] theorem Status.withError_errcode (x : Status) (c : ErrCode) : (x.withError c).errcode = c.code := rfl
@[simp] theorem Status.withError_reject (x : Status) (c : ErrCode) : (x.withError c).reject = x.reject := rfl

@[simp] theorem Status.ofWord_tplValid (v : Word) : (Status.ofWord v).tplValid = v.getLsbD 1 := rfl
@[simp] theorem Status.ofWord_done (v : Word) : (Status.ofWord v).done = v.getLsbD 2 := rfl
@[simp] theorem Status.ofWord_err (v : Word) : (Status.ofWord v).err = v.getLsbD 3 := rfl
@[simp] theorem Status.ofWord_errcode (v : Word) : (Status.ofWord v).errcode = v.extractLsb' 8 8 := rfl
@[simp] theorem Status.ofWord_reject (v : Word) : (Status.ofWord v).reject = v.getLsbD 16 := rfl

/-! Races change `raced` and nothing else -/

theorem Engine.raceWrite_eq (r : Range) (e : Engine) : ∃ rs, e.raceWrite r = { e with raced := rs } := by
  unfold Engine.raceWrite
  split
  · split
    · exact ⟨_, rfl⟩
    · exact ⟨e.raced, rfl⟩
  · split
    · exact ⟨_, rfl⟩
    · exact ⟨e.raced, rfl⟩
  all_goals exact ⟨e.raced, rfl⟩

theorem Engine.contend_eq (e o : Engine) : ∃ rs, e.contend o = { e with raced := rs } := by
  unfold Engine.contend
  split
  · split
    · exact ⟨_, rfl⟩
    · exact ⟨e.raced, rfl⟩
  · split
    · exact ⟨_, rfl⟩
    · exact ⟨e.raced, rfl⟩
  · split
    · exact ⟨_, rfl⟩
    · exact ⟨e.raced, rfl⟩
  · exact ⟨e.raced, rfl⟩

theorem Engine.foldl_contend_eq (ps : List Engine) (e : Engine) :
    ∃ rs, ps.foldl Engine.contend e = { e with raced := rs } := by
  induction ps generalizing e with
  | nil => exact ⟨e.raced, rfl⟩
  | cons p ps ih =>
    obtain ⟨rs, h⟩ := e.contend_eq p
    obtain ⟨rs', h'⟩ := ih (e.contend p)
    exact ⟨rs', by rw [List.foldl_cons, h', h]⟩

end Sys2Proof.Machine
end

