-- ==== Sys2Proof/Laws/Memory.lean ====
section
/-! SUPPORT. Memory: every operation keeps the canonical form, and a read after a write. -/

namespace Sys2Proof.Machine

theorem Memory.wf_nil : Memory.wf [] :=
  ⟨List.Pairwise.nil, by simp⟩

theorem Memory.wf_cons {k : Nat} {b : Byte} {m : Memory} :
    Memory.wf ((k, b) :: m) ↔ (∀ c ∈ m, k < c.1) ∧ b ≠ unlistedByte ∧ Memory.wf m := by
  simp only [Memory.wf, List.pairwise_cons, List.forall_mem_cons]
  tauto

theorem Memory.wf_consCell {a : Nat} {b : Byte} {m : Memory} (h : m.wf) (hk : ∀ c ∈ m, a < c.1) :
    (Memory.consCell a b m).wf := by
  unfold Memory.consCell
  split
  · exact h
  · exact Memory.wf_cons.mpr ⟨hk, by assumption, h⟩

theorem Memory.mem_consCell {a : Nat} {b : Byte} {m : Memory} {c : Host.Cell}
    (h : c ∈ Memory.consCell a b m) : c.1 = a ∨ c ∈ m := by
  unfold Memory.consCell at h
  split at h
  · exact .inr h
  · rcases List.mem_cons.mp h with rfl | h
    · exact .inl rfl
    · exact .inr h

theorem Memory.mem_write {m : Memory} {a : Nat} {b : Byte} {c : Host.Cell} (h : c ∈ m.write a b) :
    c.1 = a ∨ c ∈ m := by
  induction m with
  | nil => exact Memory.mem_consCell h
  | cons x m ih =>
    obtain ⟨k, d⟩ := x
    simp only [Memory.write] at h
    split at h
    · exact Memory.mem_consCell h
    · split at h
      · rcases Memory.mem_consCell h with h | h
        · exact .inl h
        · exact .inr (List.mem_cons_of_mem _ h)
      · rcases List.mem_cons.mp h with rfl | h
        · exact .inr List.mem_cons_self
        · rcases ih h with h | h
          · exact .inl h
          · exact .inr (List.mem_cons_of_mem _ h)

theorem Memory.wf_write {m : Memory} (h : m.wf) (a : Nat) (b : Byte) : (m.write a b).wf := by
  induction m with
  | nil => exact Memory.wf_consCell Memory.wf_nil (by simp)
  | cons x m ih =>
    obtain ⟨k, d⟩ := x
    obtain ⟨hlt, hd, hm⟩ := Memory.wf_cons.mp h
    simp only [Memory.write]
    split
    · rename_i hak
      refine Memory.wf_consCell h fun c hc => ?_
      rcases List.mem_cons.mp hc with rfl | hc
      · exact hak
      · exact hak.trans (hlt c hc)
    · split
      · rename_i hak
        subst hak
        exact Memory.wf_consCell hm hlt
      · refine Memory.wf_cons.mpr ⟨fun c hc => ?_, hd, ih hm⟩
        rcases Memory.mem_write hc with hc | hc
        · omega
        · exact hlt c hc

theorem Memory.read_of_lt {m : Memory} {a : Nat} (h : ∀ c ∈ m, a < c.1) : m.read a = unlistedByte := by
  induction m with
  | nil => rfl
  | cons x m ih =>
    obtain ⟨k, d⟩ := x
    have hk : a < k := h (k, d) List.mem_cons_self
    simp only [Memory.read, if_neg (Nat.ne_of_gt hk)]
    exact ih fun c hc => h c (List.mem_cons_of_mem _ hc)

theorem Memory.read_consCell {m : Memory} {a : Nat} {b : Byte} (h : ∀ c ∈ m, a < c.1) (x : Nat) :
    (Memory.consCell a b m).read x = if x = a then b else m.read x := by
  unfold Memory.consCell
  split
  · rename_i hb
    split
    · rename_i hx
      rw [hx, Memory.read_of_lt h, hb]
    · rfl
  · simp only [Memory.read, eq_comm]

/-- A read after a write: the byte written at its address, every other address as before. -/
theorem Memory.read_write {m : Memory} (h : m.wf) (a : Nat) (b : Byte) (x : Nat) :
    (m.write a b).read x = if x = a then b else m.read x := by
  induction m with
  | nil => exact Memory.read_consCell (by simp) x
  | cons y m ih =>
    obtain ⟨k, d⟩ := y
    obtain ⟨hlt, hd, hm⟩ := Memory.wf_cons.mp h
    simp only [Memory.write]
    split
    · rename_i hak
      refine Memory.read_consCell (fun c hc => ?_) x
      rcases List.mem_cons.mp hc with rfl | hc
      · exact hak
      · exact hak.trans (hlt c hc)
    · split
      · rename_i hak
        subst hak
        rw [Memory.read_consCell hlt]
        split
        · rfl
        · rename_i hx
          simp only [Memory.read, if_neg (Ne.symm hx)]
      · rename_i hk1 hk2
        simp only [Memory.read, ih hm]
        split
        · rw [if_neg (by omega)]
        · rfl

theorem Memory.wf_writeBytes {m : Memory} (h : m.wf) (a : Nat) (bs : List Byte) : (m.writeBytes a bs).wf := by
  induction bs generalizing m a with
  | nil => exact h
  | cons b bs ih => exact ih (Memory.wf_write h a b) (a + 1)

theorem Memory.writeBytes_append (m : Memory) (a : Nat) (xs ys : List Byte) :
    m.writeBytes a (xs ++ ys) = (m.writeBytes a xs).writeBytes (a + xs.length) ys := by
  induction xs generalizing m a with
  | nil => rfl
  | cons x xs ih =>
    simp only [List.cons_append, Memory.writeBytes, ih, List.length_cons]
    congr 1
    omega

/-- A write of a byte string leaves every byte outside it as it was. -/
theorem Memory.read_writeBytes_outside {m : Memory} (h : m.wf) {a x : Nat} {bs : List Byte}
    (hx : x < a ∨ a + bs.length ≤ x) : (m.writeBytes a bs).read x = m.read x := by
  induction bs generalizing m a with
  | nil => rfl
  | cons b bs ih =>
    simp only [List.length_cons] at hx
    rw [Memory.writeBytes, ih (Memory.wf_write h a b) (by omega), Memory.read_write h, if_neg (by omega)]

/-- A write of a byte string puts byte `i` at `a + i`. -/
theorem Memory.read_writeBytes_inside {m : Memory} (h : m.wf) (a : Nat) (bs : List Byte) {i : Nat}
    (hi : i < bs.length) : (m.writeBytes a bs).read (a + i) = bs[i] := by
  induction bs generalizing m a i with
  | nil => simp at hi
  | cons b bs ih =>
    have hw := Memory.wf_write h a b
    cases i with
    | zero =>
      rw [Memory.writeBytes, Memory.read_writeBytes_outside hw (by omega), Memory.read_write h]
      simp
    | succ i =>
      have := ih hw (a + 1) (i := i) (by simpa using hi)
      rw [Memory.writeBytes, show a + (i + 1) = a + 1 + i by omega, this]
      rfl

theorem Memory.wf_fillFree {m : Memory} (h : m.wf) (p : Nat → Bool) (base d n : Nat) :
    (m.fillFree p base d n).wf := by
  induction n with
  | zero => exact h
  | succ n ih =>
    simp only [Memory.fillFree]
    split
    · exact Memory.wf_write ih _ _
    · exact ih

theorem Memory.read_fillFree_outside {m : Memory} (h : m.wf) {p : Nat → Bool} {base d n x : Nat}
    (hx : x < base ∨ base + n ≤ x) : (m.fillFree p base d n).read x = m.read x := by
  induction n with
  | zero => rfl
  | succ n ih =>
    simp only [Memory.fillFree]
    split
    · rw [Memory.read_write (Memory.wf_fillFree h p base d n), if_neg (by omega), ih (by omega)]
    · exact ih (by omega)

/-- An address of a freed range that the memory system answers at reads as a free byte. -/
theorem Memory.read_fillFree_inside {m : Memory} (h : m.wf) {p : Nat → Bool} {base d n i : Nat} (hi : i < n)
    (hp : p (base + i) = true) : (m.fillFree p base d n).read (base + i) = Config.freeByte (d + i) := by
  induction n with
  | zero => omega
  | succ n ih =>
    simp only [Memory.fillFree]
    rcases Nat.lt_succ_iff_lt_or_eq.mp hi with hi | rfl
    · split
      · rw [Memory.read_write (Memory.wf_fillFree h p base d n), if_neg (by omega), ih hi]
      · exact ih hi
    · rw [if_pos hp, Memory.read_write (Memory.wf_fillFree h p base d i), if_pos rfl]

/-- A HashBlock read back where it was written. -/
theorem Memory.readBlock_writeBytes {m : Memory} (h : m.wf) (a : Nat) (x : HashBlock) :
    (m.writeBytes a x.toList).readBlock a = x := by
  ext i hi
  have := Memory.read_writeBytes_inside h a x.toList (i := i) (by simpa using hi)
  simp [Memory.readBlock, this]

theorem Memory.readBlock_congr {m m' : Memory} {a : Nat} (h : ∀ i < 32, m.read (a + i) = m'.read (a + i)) :
    m.readBlock a = m'.readBlock a := by
  ext i hi
  simp [Memory.readBlock, h i hi]

/-! The state's memory -/

@[simp] theorem State.freeRanges_nil (s : State) : s.freeRanges [] = s := rfl

/-- What setting ranges to free bytes leaves unchanged, and that memory keeps its form. -/
theorem State.freeRanges_frame (s : State) (rs : List Range) :
    ∃ m d, s.freeRanges rs = { s with mem := m, draws := d } ∧ (s.mem.wf → m.wf) ∧
      (s.mem.wf → ∀ x, (∀ r ∈ rs, Range.holds r x = false) → m.read x = s.mem.read x) := by
  induction rs generalizing s with
  | nil => exact ⟨s.mem, s.draws, rfl, id, fun _ _ _ => rfl⟩
  | cons r rs ih =>
    obtain ⟨m, d, he, hw, hr⟩ := ih (s.freeRange r)
    refine ⟨m, d, he, fun h => hw (Memory.wf_fillFree h _ _ _ _), fun h x hx => ?_⟩
    rw [hr (Memory.wf_fillFree h _ _ _ _) x fun q hq => hx q (List.mem_cons_of_mem _ hq)]
    refine Memory.read_fillFree_outside h ?_
    have := hx r List.mem_cons_self
    simp only [Range.holds, Bool.and_eq_false_iff, decide_eq_false_iff_not] at this
    omega

/-- Every byte of freed ranges that the memory system answers at holds a free value. -/
theorem State.freeRanges_inside (s : State) (hm : s.mem.wf) (rs : List Range) {x : Nat}
    (ha : s.answersAt x = true) (h : ∃ r ∈ rs, Range.holds r x = true) : ∃ d, (s.freeRanges rs).mem.read x = Config.freeByte d := by
  induction rs generalizing s with
  | nil => obtain ⟨r, hr, -⟩ := h; cases hr
  | cons r rs ih =>
    have hm' : (s.freeRange r).mem.wf := Memory.wf_fillFree hm _ _ _ _
    by_cases ht : ∃ q ∈ rs, Range.holds q x = true
    · exact ih (s.freeRange r) hm' ha ht
    · obtain ⟨q, hq, hx⟩ := h
      rcases List.mem_cons.mp hq with rfl | hq
      · obtain ⟨m, d, he, -, ho⟩ := (s.freeRange q).freeRanges_frame rs
        have hx' := hx
        unfold Range.holds at hx'
        rw [Bool.and_eq_true, decide_eq_true_iff, decide_eq_true_iff] at hx'
        have hi : x = q.base + (x - q.base) := by omega
        refine ⟨s.draws + (x - q.base), ?_⟩
        show ((s.freeRange q).freeRanges rs).mem.read x = _
        rw [he]
        show m.read x = _
        rw [ho hm' x fun r' hr' => by
          rw [← Bool.not_eq_true]; exact fun hh => ht ⟨r', hr', hh⟩]
        rw [State.freeRange_mem]
        conv_lhs => rw [hi]
        exact Memory.read_fillFree_inside hm (by omega) (by rw [← hi]; exact ha)
      · exact absurd ⟨q, hq, hx⟩ ht

end Sys2Proof.Machine
end

