-- ==== Sys2Proof/Laws/Run.lean ====
section
/-! SUPPORT. Turns: running them, how many are left, and that a turn of a running command uses exactly one. -/

namespace Sys2Proof.Machine

theorem blocksPerNonce_pos : 0 < blocksPerNonce := by decide

theorem runTurns_idle {s : State} (h : s.eng.busy = false) (n : Nat) : runTurns n s = s := by
  cases n with
  | zero => rfl
  | succ n => simp [runTurns, h]

theorem runTurns_busy {s : State} (h : s.eng.busy = true) (n : Nat) : runTurns (n + 1) s = runTurns n (turn s) := by
  simp [runTurns, h]

theorem turn_idle {s : State} (h : s.eng.busy = false) : turn s = s := by
  unfold turn
  simp only [Engine.busy, Option.isSome_eq_false_iff, Option.isNone_iff_eq_none] at h
  rw [h]

theorem runTurns_add (a b : Nat) (s : State) : runTurns (a + b) s = runTurns b (runTurns a s) := by
  induction a generalizing s with
  | zero => simp [runTurns]
  | succ a ih =>
    cases h : s.eng.busy
    · rw [runTurns_idle h, runTurns_idle h, runTurns_idle h]
    · rw [Nat.succ_add, Nat.succ_eq_add_one, runTurns_busy h, runTurns_busy h, ih]

theorem turnsLeft_idle {e : Engine} (h : e.busy = false) : turnsLeft e = 0 := by
  unfold turnsLeft
  simp only [Engine.busy, Option.isSome_eq_false_iff, Option.isNone_iff_eq_none] at h
  rw [h]

theorem grant_idle {s : State} (h : s.eng.busy = false) : grant s = .next s := by
  simp [grant, runTurns_idle h]

theorem batches_step {cfg : EngineConfig} (hw : 1 ≤ cfg.lanes) {r : Nat} (hr : 0 < r) :
    batches cfg r = batches cfg (r - min cfg.lanes r) + 1 := by
  unfold batches
  rcases Nat.le_total cfg.lanes r with h | h
  · rw [Nat.min_eq_left h, ← Nat.add_div_right _ (by omega)]
    congr 1
    omega
  · rw [Nat.min_eq_right h, Nat.sub_self, Nat.zero_add, Nat.div_eq_of_lt (a := cfg.lanes - 1) (by omega)]
    have : r + cfg.lanes - 1 = (r - 1) + cfg.lanes := by omega
    rw [this, Nat.add_div_right _ (by omega)]
    rcases Nat.lt_or_ge (r - 1) cfg.lanes with h' | h'
    · rw [Nat.div_eq_of_lt h']
    · omega

theorem batches_zero {cfg : EngineConfig} (hw : 1 ≤ cfg.lanes) : batches cfg 0 = 0 := by
  unfold batches
  exact Nat.div_eq_of_lt (by omega)

theorem genTurnsLeft_batch {cfg : EngineConfig} (hw : 1 ≤ cfg.lanes) (l : Latched) {first : Nat}
    (hf : first ≤ l.count.toNat) :
    genTurnsLeft cfg l (genBatch cfg l first) = genTurns cfg (l.count.toNat - first) := by
  unfold genTurnsLeft genBatch
  simp only
  split
  · rename_i h
    have hb := batches_step hw (r := l.count.toNat - first) (by omega)
    unfold genTurns
    rw [hb]
    simp only [batchLanes, blocksPerNonce]
    have : l.count.toNat - (first + min cfg.lanes (l.count.toNat - first)) = l.count.toNat - first - min cfg.lanes (l.count.toNat - first) := by omega
    rw [this]
    generalize batches cfg (l.count.toNat - first - min cfg.lanes (l.count.toNat - first)) = x
    omega
  · have : l.count.toNat - first = 0 := by omega
    rw [this, genTurns, batches_zero hw]
    simp

theorem scanTurnsLeft_batch {cfg : EngineConfig} (hw : 1 ≤ cfg.lanes) (l : Latched) {first : Nat} (best : Best)
    (hf : first < l.count.toNat) :
    scanTurnsLeft cfg l (scanBatch (first + batchLanes cfg l first) best) + 2 =
      2 * batches cfg (l.count.toNat - first) + 1 := by
  have hb := batches_step hw (r := l.count.toNat - first) (by omega)
  unfold scanTurnsLeft scanBatch
  simp only [batchLanes]
  have : l.count.toNat - (first + min cfg.lanes (l.count.toNat - first)) = l.count.toNat - first - min cfg.lanes (l.count.toNat - first) := by omega
  rw [this, hb]
  omega

@[simp] theorem State.freeRanges_eng (s : State) (rs : List Range) : (s.freeRanges rs).eng = s.eng := by
  obtain ⟨m, d, h, -⟩ := s.freeRanges_frame rs
  rw [h]

theorem batchLanes_pos {cfg : EngineConfig} (hw : 1 ≤ cfg.lanes) {l : Latched} {first : Nat} (h : first < l.count.toNat) :
    0 < batchLanes cfg l first := by
  unfold batchLanes; omega

/-- A turn of a running command uses exactly one of the turns it has left, or ends it. -/
theorem turnsLeft_turn {s : State} (h : s.eng.Ok) (hb : s.eng.busy = true) :
    turnsLeft (turn s).eng + 1 = turnsLeft s.eng ∨ (turn s).eng.busy = false := by
  have hw : 1 ≤ s.eng.cfg.lanes := h.legal.2.2.2.1
  have hrun := h.run
  unfold Engine.RunOk at hrun
  unfold turn
  split
  · rename_i hr; simp [Engine.busy, hr] at hb
  · rename_i p hr
    cases p
    · left; simp [initTurn, turnsLeft, hr]
    · left; simp [initTurn, turnsLeft, hr]
    · right; simp [initTurn, Engine.busy]
  · rename_i g hr
    rw [hr] at hrun
    obtain ⟨-, -, ⟨hf, hg⟩, -⟩ := hrun
    unfold genTurn
    simp only
    split
    · rename_i hlt
      have hm := batchLanes_pos hw hlt
      have hl : turnsLeft s.eng = genTurnsLeft s.eng.cfg s.eng.latched g := by simp [turnsLeft, hr]
      rw [hl]
      split
      · rename_i k hp
        left
        rw [hp] at hg
        have := hg.1
        simp only [State.withEng_eng, turnsLeft, Engine.moveTo_run, Engine.moveTo_cfg, Engine.moveTo_latched,
          genTurnsLeft, hlt, if_true, hp]
        simp only [blocksPerNonce] at *
        by_cases hk : k + 1 < 8192
        · simp only [hk, if_true]; omega
        · simp only [hk, if_false]; omega
      · rename_i hp
        left
        simp only [State.withEng_eng, turnsLeft, Engine.moveTo_run, Engine.moveTo_cfg, Engine.moveTo_latched,
          genTurnsLeft, hlt, if_true, hp, blocksPerNonce]
        omega
      · rename_i i j hp
        rw [hp] at hg
        obtain ⟨hi, hj, -⟩ := hg
        simp only [blocksPerNonce] at hj
        split
        · left
          simp only [State.withEng_eng, turnsLeft, Engine.moveTo_run, Engine.moveTo_cfg, Engine.moveTo_latched,
            genAfterWrite]
          split
          · simp only [genTurnsLeft, hlt, if_true, hp]; simp only [blocksPerNonce] at *; omega
          · split
            · simp only [genTurnsLeft, hlt, if_true, hp]; simp only [blocksPerNonce] at *; omega
            · have hle : g.first + batchLanes s.eng.cfg s.eng.latched g.first ≤ s.eng.latched.count.toNat := by
                unfold batchLanes; omega
              rw [genTurnsLeft_batch hw _ hle]
              simp only [genTurnsLeft, hlt, if_true, hp]
              simp only [blocksPerNonce] at *
              omega
        · right; simp [genBusError, Engine.busy]
    · right; simp [genComplete, Engine.busy]
  · rename_i r hr
    rw [hr] at hrun
    obtain ⟨-, -, -, hf, -, hg⟩ := hrun
    unfold scanTurn
    simp only
    have hl : turnsLeft s.eng = scanTurnsLeft s.eng.cfg s.eng.latched r := by simp [turnsLeft, hr]
    rw [hl]
    split
    · rename_i hlt
      have hb := batches_step hw (r := s.eng.latched.count.toNat - r.first) (by omega)
      split
      · rename_i hp
        split
        · left
          simp only [State.withEng_eng, turnsLeft, Engine.moveTo_run, Engine.moveTo_cfg, Engine.moveTo_latched,
            scanTurnsLeft, hlt, if_true, hp]
          omega
        · right; simp [Engine.busy]
      · rename_i hp
        left
        have := scanTurnsLeft_batch hw s.eng.latched (first := r.first) (reduceFrom r.best r.first (r.digests.map (deadline s.eng.cfg.deadlineOrder))) hlt
        simp only [State.withEng_eng, turnsLeft, Engine.moveTo_run, Engine.moveTo_cfg, Engine.moveTo_latched]
        simp only [scanTurnsLeft, hlt, if_true, hp] at this ⊢
        omega
    · right
      unfold scanComplete
      split <;> simp [Engine.busy]
  · rename_i hr
    rw [hr] at hrun
    exact hrun.elim

end Sys2Proof.Machine
end

