-- ==== Sys2Proof/Laws/Turn.lean ====
section
/-! SUPPORT. What one turn changes and what it leaves: its frame, the invariant of the addressed instance, and memory. -/

namespace Sys2Proof.Machine

/-- What the turns of a command leave unchanged, whatever command runs. -/
structure TurnFrame (s t : State) : Prop where
  peers : t.peers = s.peers
  plat : t.plat = s.plat
  hostCache : t.hostCache = s.hostCache
  answer : t.answer = s.answer
  inputs : t.inputs = s.inputs
  pace : t.pace = s.pace
  cfg : t.eng.cfg = s.eng.cfg
  doneIe : t.eng.doneIe = s.eng.doneIe
  operands : t.eng.operands = s.eng.operands
  latched : t.eng.latched = s.eng.latched
  reject : t.eng.status.reject = s.eng.status.reject

theorem TurnFrame.refl (s : State) : TurnFrame s s := by constructor <;> rfl
theorem TurnFrame.trans {s t u : State} (h : TurnFrame s t) (k : TurnFrame t u) : TurnFrame s u := by
  constructor
  · exact k.peers.trans h.peers
  · exact k.plat.trans h.plat
  · exact k.hostCache.trans h.hostCache
  · exact k.answer.trans h.answer
  · exact k.inputs.trans h.inputs
  · exact k.pace.trans h.pace
  · exact k.cfg.trans h.cfg
  · exact k.doneIe.trans h.doneIe
  · exact k.operands.trans h.operands
  · exact k.latched.trans h.latched
  · exact k.reject.trans h.reject

theorem initTurn_frame (p : InitPos) (s : State) : TurnFrame s (initTurn p s) := by
  cases p <;> constructor <;> simp [initTurn]

/-! One lemma per case of a GEN's turn -/

theorem genTurn_round {s : State} {g : GenRun} {k : Nat} (hf : g.first < s.eng.latched.count.toNat) (hp : g.pos = .round k) :
    genTurn g s = s.withEng (s.eng.moveTo (.gen { g with
      pos := if k + 1 < blocksPerNonce then GenPos.round (k + 1) else GenPos.final,
      lanes := g.lanes.map (Lane.round Config.bh (capBlocks s.eng.cfg) (k + 1) s.eng.latched.acct) })) := by
  simp only [genTurn, if_pos hf, hp]

theorem genTurn_final {s : State} {g : GenRun} (hf : g.first < s.eng.latched.count.toNat) (hp : g.pos = .final) :
    genTurn g s = s.withEng (s.eng.moveTo (.gen { g with
      pos := .write 0 0,
      lanes := g.lanes.map (Lane.finish Config.bh s.eng.cfg.finalSeedTail s.eng.latched.acct) })) := by
  simp only [genTurn, if_pos hf, hp]

theorem genTurn_write {s : State} {g : GenRun} {i j : Nat} (hf : g.first < s.eng.latched.count.toNat)
    (hp : g.pos = .write i j) (ha : s.admitsBlock (s.eng.latched.blockAddr (g.first + i) j) = true) :
    genTurn g s = (s.withMem (s.mem.writeBytes (s.eng.latched.blockAddr (g.first + i) j)
        ((g.lanes.getD i (Lane.fresh s.eng.latched (g.first + i))).stored j).toList)).withEng
      (s.eng.moveTo (.gen (genAfterWrite s.eng.cfg s.eng.latched g i j))) := by
  simp only [genTurn, if_pos hf, hp, ha, if_true]

theorem genTurn_refused {s : State} {g : GenRun} {i j : Nat} (hf : g.first < s.eng.latched.count.toNat)
    (hp : g.pos = .write i j) (ha : s.admitsBlock (s.eng.latched.blockAddr (g.first + i) j) = false) :
    genTurn g s = genBusError s := by
  simp only [genTurn, if_pos hf, hp, ha, Bool.false_eq_true, if_false]

theorem genTurn_done {s : State} {g : GenRun} (hf : s.eng.latched.count.toNat ≤ g.first) :
    genTurn g s = genComplete s := by
  simp only [genTurn, if_neg (Nat.not_lt.mpr hf)]

theorem State.freeRange_eq (s : State) (r : Range) : ∃ m d, s.freeRange r = { s with mem := m, draws := d } :=
  ⟨_, _, rfl⟩

theorem genBusError_eq (s : State) : genBusError s = (s.freeRange s.eng.region).withEng (s.eng.raise .busError) := by
  rw [genBusError, State.freeRange_eng]

theorem genTurn_frame (g : GenRun) (s : State) : TurnFrame s (genTurn g s) := by
  by_cases hf : g.first < s.eng.latched.count.toNat
  · cases hp : g.pos with
    | round k => rw [genTurn_round hf hp]; constructor <;> simp
    | final => rw [genTurn_final hf hp]; constructor <;> simp
    | write i j =>
      cases ha : s.admitsBlock (s.eng.latched.blockAddr (g.first + i) j)
      · obtain ⟨m, d, h⟩ := s.freeRange_eq s.eng.region
        rw [genTurn_refused hf hp ha, genBusError_eq, h]
        constructor <;> simp
      · rw [genTurn_write hf hp ha]; constructor <;> simp
  · obtain ⟨m, d, h, -⟩ := s.freeRanges_frame s.eng.raced
    rw [genTurn_done (Nat.le_of_not_lt hf), genComplete, h]
    constructor <;> simp

/-! One lemma per case of a SCAN's turn -/

theorem scanTurn_fetch {s : State} {r : ScanRun} (hf : r.first < s.eng.latched.count.toNat) (hp : r.pos = .fetch)
    (ha : ((List.range (batchLanes s.eng.cfg s.eng.latched r.first)).all fun i => s.admitsScoop (r.first + i)) = true) :
    scanTurn r s = s.withEng (s.eng.moveTo (.scan { r with
      pos := .reduce,
      digests := (List.range (batchLanes s.eng.cfg s.eng.latched r.first)).map fun i => s.scoopDigestOf (r.first + i) })) := by
  simp only [scanTurn, if_pos hf, hp, if_pos ha]

theorem scanTurn_refused {s : State} {r : ScanRun} (hf : r.first < s.eng.latched.count.toNat) (hp : r.pos = .fetch)
    (ha : ((List.range (batchLanes s.eng.cfg s.eng.latched r.first)).all fun i => s.admitsScoop (r.first + i)) = false) :
    scanTurn r s = s.withEng (s.eng.raise .busError) := by
  simp only [scanTurn, if_pos hf, hp, ha, Bool.false_eq_true, if_false]

theorem scanTurn_reduce {s : State} {r : ScanRun} (hf : r.first < s.eng.latched.count.toNat) (hp : r.pos = .reduce) :
    scanTurn r s = s.withEng (s.eng.moveTo (.scan (scanBatch (r.first + batchLanes s.eng.cfg s.eng.latched r.first)
      (reduceFrom r.best r.first (r.digests.map (deadline s.eng.cfg.deadlineOrder)))))) := by
  simp only [scanTurn, if_pos hf, hp]

theorem scanTurn_done {s : State} {r : ScanRun} (hf : s.eng.latched.count.toNat ≤ r.first) :
    scanTurn r s = scanComplete r.best s := by
  simp only [scanTurn, if_neg (Nat.not_lt.mpr hf)]

theorem scanTurn_frame (r : ScanRun) (s : State) : TurnFrame s (scanTurn r s) := by
  unfold scanTurn
  simp only
  split
  · split
    · split <;> constructor <;> simp
    · constructor <;> simp
  · unfold scanComplete
    split <;> constructor <;> simp

theorem turn_frame (s : State) : TurnFrame s (turn s) := by
  unfold turn
  split
  · exact TurnFrame.refl s
  · exact initTurn_frame _ s
  · exact genTurn_frame _ s
  · exact scanTurn_frame _ s
  · exact TurnFrame.refl s

theorem runTurns_frame (n : Nat) (s : State) : TurnFrame s (runTurns n s) := by
  induction n generalizing s with
  | zero => exact .refl s
  | succ n ih =>
    cases h : s.eng.busy
    · rw [runTurns_idle h]; exact .refl s
    · rw [runTurns_busy h]; exact (turn_frame s).trans (ih _)

theorem batchOf_map (cfg : EngineConfig) (l : Latched) (first : Nat) (f : Lane → Lane) {g x : Nat → Lane}
    (h : ∀ n, f (g n) = x n) : (batchOf cfg l first g).map f = batchOf cfg l first x := by
  simp [batchOf, h]

theorem legal_even {c : EngineConfig} (h : c.Legal) : capBlocks c % 2 = 0 := by
  unfold capBlocks; have := h.1; omega
theorem legal_cap {c : EngineConfig} (h : c.Legal) : 2 ≤ capBlocks c := by
  unfold capBlocks; have := h.2.1; omega

theorem round_laneAfter (cfg : EngineConfig) (hl : cfg.Legal) (l : Latched) (k n : Nat) :
    (laneAfter cfg l k n).round Config.bh (capBlocks cfg) (k + 1) l.acct = laneAfter cfg l (k + 1) n := by
  unfold Lane.round laneAfter
  simp only [chainAfter]
  rw [roundCall, hashFast, hash, paddedBlocks_round _ _ _ _ _ (by omega) (legal_even hl) (by rw [chainAfter_length]; omega)]

theorem finish_laneAfter (cfg : EngineConfig) (l : Latched) (n : Nat) :
    (laneAfter cfg l blocksPerNonce n).finish Config.bh cfg.finalSeedTail l.acct = laneDone cfg l n := by
  unfold Lane.finish laneDone
  simp only [laneAfter]
  rw [finalCall, hashFast, hash, paddedBlocks_final _ _ _ _ (by rw [chainAfter_length]; rfl)]

theorem genBatch_ok (cfg : EngineConfig) (l : Latched) {first : Nat} (h : first ≤ l.count.toNat) :
    GenRun.Ok cfg l (genBatch cfg l first) := by
  refine ⟨h, ?_⟩
  simp only [genBatch]
  refine ⟨by decide, ?_⟩
  unfold batchOf laneAfter Lane.fresh
  rfl

theorem Range.holds_iff {r : Range} {x : Nat} : Range.holds r x = true ↔ r.base ≤ x ∧ x < r.base + r.len := by
  unfold Range.holds
  rw [Bool.and_eq_true, decide_eq_true_iff, decide_eq_true_iff]

theorem Range.holds_false {r : Range} {x : Nat} : Range.holds r x = false ↔ x < r.base ∨ r.base + r.len ≤ x := by
  simp only [Range.holds, Bool.and_eq_false_iff, decide_eq_false_iff_not]
  omega

theorem inside_outside {r q : Range} (h : Range.inside r q) {x : Nat} (hx : Range.holds q x = false) : Range.holds r x = false := by
  unfold Range.inside at h
  rw [Range.holds_false] at *
  omega

theorem block_inside {l : Latched} {n j x : Nat} (hn : n < l.count.toNat) (hj : j < 8192)
    (hx : Range.holds l.region x = false) : x < l.blockAddr n j ∨ l.blockAddr n j + 32 ≤ x := by
  rw [Range.holds_false] at hx
  simp only [Latched.region, Latched.blockAddr, Latched.nonceBase, nonceSize] at *
  omega

theorem Engine.Ok.moveInit {e : Engine} (h : e.Ok) {p q} (hr : e.run = some (.init p)) : (e.moveTo (.init q)).Ok :=
  ⟨h.legal, h.errcode, fun _ => h.busy (by simp [Engine.busy, hr]), trivial⟩

theorem Engine.Ok.gen {e : Engine} (h : e.Ok) {g} (hr : e.run = some (.gen g)) :
    e.status.tplValid = true ∧ e.latched.genFits e.cfg.addrBits = true ∧ GenRun.Ok e.cfg e.latched g ∧
      ∀ r ∈ e.raced, Range.inside r e.region := by
  have := h.run
  unfold Engine.RunOk at this
  rwa [hr] at this

theorem Engine.Ok.scan {e : Engine} (h : e.Ok) {r} (hr : e.run = some (.scan r)) :
    e.status.tplValid = true ∧ e.latched.fits e.cfg.addrBits = true ∧ e.latched.scoop.toNat ≤ 4095 ∧
      ScanRun.Ok e.cfg e.latched r := by
  have := h.run
  unfold Engine.RunOk at this
  rwa [hr] at this

theorem Engine.Ok.moveGen {e : Engine} (h : e.Ok) {g g'} (hr : e.run = some (.gen g)) (hg : GenRun.Ok e.cfg e.latched g') :
    (e.moveTo (.gen g')).Ok :=
  ⟨h.legal, h.errcode, fun _ => h.busy (by simp [Engine.busy, hr]), (h.gen hr).1, (h.gen hr).2.1, hg, (h.gen hr).2.2.2⟩

theorem Engine.Ok.moveScan {e : Engine} (h : e.Ok) {g g'} (hr : e.run = some (.scan g)) (hg : ScanRun.Ok e.cfg e.latched g') :
    (e.moveTo (.scan g')).Ok :=
  ⟨h.legal, h.errcode, fun _ => h.busy (by simp [Engine.busy, hr]), (h.scan hr).1, (h.scan hr).2.1, (h.scan hr).2.2.1, hg⟩

theorem Engine.Ok.complete {e : Engine} (h : e.Ok) : e.complete.Ok :=
  ⟨h.legal, h.errcode, fun hb => by simp [Engine.busy] at hb, rfl⟩

/-- The code of an error is not 0x00, and no code is above 0x05 (R41, R180). -/
theorem ErrCode.code_ok {c : ErrCode} (hc : c ≠ .none) : (true = true ↔ c.code ≠ 0x00) ∧ c.code ≤ 0x05 := by
  cases c <;> first | exact absurd rfl hc | decide

theorem Engine.Ok.raise {e : Engine} (h : e.Ok) {c} (hc : c ≠ .none) : (e.raise c).Ok :=
  ⟨h.legal, ErrCode.code_ok hc, fun hb => by simp [Engine.busy] at hb, rfl⟩

theorem initTurn_ok {s : State} (h : s.eng.Ok) {p} (hr : s.eng.run = some (.init p)) : (initTurn p s).eng.Ok := by
  cases p
  · exact h.moveInit hr
  · exact h.moveInit hr
  · exact Engine.Ok.complete (e := s.eng.buildTemplate)  ⟨h.legal, h.errcode, h.busy, by
      unfold Engine.RunOk; simp [hr]⟩

theorem initTurn_mem (p : InitPos) (s : State) : (initTurn p s).mem = s.mem := by
  cases p <;> rfl

theorem genRun_round {cfg : EngineConfig} {l : Latched} {g : GenRun} {k : Nat} (hl : cfg.Legal) (h : GenRun.Ok cfg l g)
    (hp : g.pos = .round k) :
    GenRun.Ok cfg l { g with pos := if k + 1 < blocksPerNonce then GenPos.round (k + 1) else GenPos.final, lanes := g.lanes.map (Lane.round Config.bh (capBlocks cfg) (k + 1) l.acct) } := by
  obtain ⟨hf, hg⟩ := h
  rw [hp] at hg
  obtain ⟨hk, hg⟩ := hg
  have hl' := congrArg (List.map (Lane.round Config.bh (capBlocks cfg) (k + 1) l.acct)) hg
  rw [batchOf_map _ _ _ _ (round_laneAfter cfg hl l k)] at hl'
  refine ⟨hf, ?_⟩
  by_cases hk' : k + 1 < blocksPerNonce
  · simp only [if_pos hk']
    exact ⟨hk', hl'⟩
  · simp only [if_neg hk']
    have : k + 1 = blocksPerNonce := by omega
    rw [hl', this]

theorem genRun_final {cfg : EngineConfig} {l : Latched} {g : GenRun} (hl : cfg.Legal) (h : GenRun.Ok cfg l g)
    (hp : g.pos = .final) (hlt : g.first < l.count.toNat) :
    GenRun.Ok cfg l { g with pos := .write 0 0, lanes := g.lanes.map (Lane.finish Config.bh cfg.finalSeedTail l.acct) } := by
  obtain ⟨hf, hg⟩ := h
  rw [hp] at hg
  have hl' := congrArg (List.map (Lane.finish Config.bh cfg.finalSeedTail l.acct)) hg
  rw [batchOf_map _ _ _ _ (finish_laneAfter cfg l)] at hl'
  exact ⟨hf, batchLanes_pos hl.2.2.2.1 hlt, blocksPerNonce_pos, hl'⟩

theorem genRun_write {cfg : EngineConfig} {l : Latched} {g : GenRun} {i j : Nat} (h : GenRun.Ok cfg l g)
    (hp : g.pos = .write i j) : GenRun.Ok cfg l (genAfterWrite cfg l g i j) := by
  obtain ⟨hf, hg⟩ := h
  rw [hp] at hg
  obtain ⟨hi, hj, hg⟩ := hg
  unfold genAfterWrite
  split
  · exact ⟨hf, hi, by assumption, hg⟩
  · split
    · exact ⟨hf, by assumption, blocksPerNonce_pos, hg⟩
    · exact genBatch_ok _ _ (by unfold batchLanes; omega)

theorem genTurn_ok {s : State} (h : s.eng.Ok) {g : GenRun} (hr : s.eng.run = some (.gen g)) : (genTurn g s).eng.Ok := by
  obtain ⟨-, -, hg, -⟩ := h.gen hr
  by_cases hf : g.first < s.eng.latched.count.toNat
  · cases hp : g.pos with
    | round k => rw [genTurn_round hf hp]; exact h.moveGen hr (genRun_round h.legal hg hp)
    | final => rw [genTurn_final hf hp]; exact h.moveGen hr (genRun_final h.legal hg hp hf)
    | write i j =>
      cases ha : s.admitsBlock (s.eng.latched.blockAddr (g.first + i) j)
      · rw [genTurn_refused hf hp ha, genBusError_eq]; exact h.raise (by simp)
      · rw [genTurn_write hf hp ha]; exact h.moveGen hr (genRun_write hg hp)
  · rw [genTurn_done (Nat.le_of_not_lt hf), genComplete, State.freeRanges_eng]
    exact h.complete

/-- A turn of a GEN leaves every byte outside its REGION. -/
theorem genTurn_outside {s : State} (h : s.eng.Ok) (hm : s.mem.wf) {g : GenRun} (hr : s.eng.run = some (.gen g)) :
    ∀ x, Range.holds s.eng.region x = false → (genTurn g s).mem.read x = s.mem.read x := by
  obtain ⟨-, -, ⟨-, hpos⟩, hraced⟩ := h.gen hr
  intro x hx
  by_cases hf : g.first < s.eng.latched.count.toNat
  · cases hp : g.pos with
    | round k => rw [genTurn_round hf hp]; rfl
    | final => rw [genTurn_final hf hp]; rfl
    | write i j =>
      rw [hp] at hpos
      obtain ⟨hi, hj, -⟩ := hpos
      cases ha : s.admitsBlock (s.eng.latched.blockAddr (g.first + i) j)
      · rw [genTurn_refused hf hp ha, genBusError_eq]
        simp only [State.withEng_mem, State.freeRange_mem]
        exact Memory.read_fillFree_outside hm (Range.holds_false.mp hx)
      · rw [genTurn_write hf hp ha]
        simp only [State.withEng_mem, State.withMem_mem]
        refine Memory.read_writeBytes_outside hm ?_
        rw [Vector.length_toList]
        exact block_inside (by unfold batchLanes at hi; omega) hj hx
  · obtain ⟨m, d, he, hw, ho⟩ := s.freeRanges_frame s.eng.raced
    rw [genTurn_done (Nat.le_of_not_lt hf), genComplete, he]
    exact ho hm x fun r hr => inside_outside (hraced r hr) hx

theorem reduceFrom_index (ds : List Word) (p : Best) (n : Nat) (h : p = Best.initial ∨ p.index < n) :
    reduceFrom p n ds = Best.initial ∨ (reduceFrom p n ds).index < n + ds.length := by
  induction ds generalizing p n with
  | nil => simpa [reduceFrom] using h
  | cons d ds ih =>
    have := ih (p.update n d) (n + 1) (by
      unfold Best.update
      split
      · right; simp
      · rcases h with h | h
        · exact .inl h
        · right; omega)
    rw [reduceFrom, List.length_cons]
    rcases this with h | h
    · exact .inl h
    · right; omega

theorem scanTurn_ok {s : State} (h : s.eng.Ok) {r} (hr : s.eng.run = some (.scan r)) : (scanTurn r s).eng.Ok := by
  obtain ⟨-, -, -, hf, hb, hpos⟩ := h.scan hr
  unfold scanTurn
  simp only
  split
  · split
    · split
      · exact h.moveScan hr ⟨hf, hb, by simp⟩
      · exact h.raise (by simp)
    · rename_i hp
      rw [hp] at hpos
      refine h.moveScan hr ⟨?_, ?_, trivial⟩
      · simp only [scanBatch, batchLanes]; omega
      · have := reduceFrom_index (r.digests.map (deadline s.eng.cfg.deadlineOrder)) r.best r.first hb
        rw [List.length_map, hpos] at this
        exact this
  · unfold scanComplete
    split
    · exact Engine.Ok.complete (e := s.eng.withBest _ _) ⟨h.legal, h.errcode, h.busy, h.run⟩
    · exact Engine.Ok.complete (e := s.eng.withBest _ _) ⟨h.legal, h.errcode, h.busy, h.run⟩

theorem scanTurn_mem (r : ScanRun) (s : State) : (scanTurn r s).mem = s.mem := by
  unfold scanTurn
  simp only
  split
  · split
    · split <;> rfl
    · rfl
  · unfold scanComplete
    split <;> rfl

theorem turn_ok {s : State} (h : s.eng.Ok) : (turn s).eng.Ok := by
  unfold turn
  split
  · exact h
  · exact initTurn_ok h (by assumption)
  · exact genTurn_ok h (by assumption)
  · exact scanTurn_ok h (by assumption)
  · exact h

/-- A turn keeps the canonical form of memory, whatever the registers hold. -/
theorem turn_wf {s : State} (hm : s.mem.wf) : (turn s).mem.wf := by
  unfold turn
  split
  · exact hm
  · rw [initTurn_mem]
    exact hm
  · rename_i g _
    by_cases hf : g.first < s.eng.latched.count.toNat
    · cases hp : g.pos with
      | round k => rw [genTurn_round hf hp]; exact hm
      | final => rw [genTurn_final hf hp]; exact hm
      | write i j =>
        cases ha : s.admitsBlock (s.eng.latched.blockAddr (g.first + i) j)
        · rw [genTurn_refused hf hp ha, genBusError_eq]
          simp only [State.withEng_mem, State.freeRange_mem]
          exact Memory.wf_fillFree hm _ _ _ _
        · rw [genTurn_write hf hp ha]
          simp only [State.withEng_mem, State.withMem_mem]
          exact Memory.wf_writeBytes hm _ _
    · obtain ⟨m, d, he, hw, -⟩ := s.freeRanges_frame s.eng.raced
      rw [genTurn_done (Nat.le_of_not_lt hf), genComplete, he]
      exact hw hm
  · rw [scanTurn_mem]
    exact hm
  · exact hm

theorem turn_mem {s : State} (h : s.eng.Ok) (hm : s.mem.wf) :
    (turn s).mem.wf ∧ ∀ x, Range.holds s.eng.region x = false → (turn s).mem.read x = s.mem.read x := by
  refine ⟨turn_wf hm, ?_⟩
  unfold turn
  split
  · exact fun _ _ => rfl
  · rw [initTurn_mem]; exact fun _ _ => rfl
  · exact genTurn_outside h hm (by assumption)
  · rw [scanTurn_mem]; exact fun _ _ => rfl
  · exact fun _ _ => rfl

theorem runTurns_ok (n : Nat) {s : State} (h : s.eng.Ok) : (runTurns n s).eng.Ok := by
  induction n generalizing s with
  | zero => exact h
  | succ n ih =>
    cases hb : s.eng.busy
    · rw [runTurns_idle hb]; exact h
    · rw [runTurns_busy hb]; exact ih (turn_ok h)

theorem runTurns_mem (n : Nat) {s : State} (h : s.eng.Ok) (hm : s.mem.wf) :
    (runTurns n s).mem.wf ∧ ∀ x, Range.holds s.eng.region x = false → (runTurns n s).mem.read x = s.mem.read x := by
  induction n generalizing s with
  | zero => exact ⟨hm, fun _ _ => rfl⟩
  | succ n ih =>
    cases hb : s.eng.busy
    · rw [runTurns_idle hb]; exact ⟨hm, fun _ _ => rfl⟩
    · rw [runTurns_busy hb]
      obtain ⟨h1, h2⟩ := turn_mem h hm
      obtain ⟨k1, k2⟩ := ih (turn_ok h) h1
      refine ⟨k1, fun x hx => ?_⟩
      have hx' : Range.holds (turn s).eng.region x = false := by
        unfold Engine.region at *
        rw [(turn_frame s).latched]; exact hx
      rw [k2 x hx', h2 x hx]

/-! What the turns of each command leave beside the frame of every turn -/

theorem genTurn_registers (g : GenRun) (s : State) :
    (genTurn g s).eng.bestDeadline = s.eng.bestDeadline ∧ (genTurn g s).eng.bestOffset = s.eng.bestOffset ∧
      (genTurn g s).eng.status.tplValid = s.eng.status.tplValid ∧
      ((genTurn g s).eng.run = none ∨ ∃ q, (genTurn g s).eng.run = some (.gen q)) := by
  by_cases hf : g.first < s.eng.latched.count.toNat
  · cases hp : g.pos with
    | round k => rw [genTurn_round hf hp]; exact ⟨rfl, rfl, rfl, .inr ⟨_, rfl⟩⟩
    | final => rw [genTurn_final hf hp]; exact ⟨rfl, rfl, rfl, .inr ⟨_, rfl⟩⟩
    | write i j =>
      cases ha : s.admitsBlock (s.eng.latched.blockAddr (g.first + i) j)
      · rw [genTurn_refused hf hp ha, genBusError_eq]; exact ⟨rfl, rfl, rfl, .inl rfl⟩
      · rw [genTurn_write hf hp ha, State.withEng_eng]; exact ⟨rfl, rfl, rfl, .inr ⟨_, rfl⟩⟩
  · rw [genTurn_done (Nat.le_of_not_lt hf), genComplete, State.freeRanges_eng]
    exact ⟨rfl, rfl, rfl, .inl rfl⟩

theorem scanTurn_registers (r : ScanRun) (s : State) :
    (scanTurn r s).mem = s.mem ∧ (scanTurn r s).eng.status.tplValid = s.eng.status.tplValid ∧
      ((scanTurn r s).eng.run = none ∨ ∃ q, (scanTurn r s).eng.run = some (.scan q)) ∧
      ((scanTurn r s).eng.bestDeadline = s.eng.bestDeadline ∧ (scanTurn r s).eng.bestOffset = s.eng.bestOffset ∨
        (scanTurn r s).eng.run = none ∧ (scanTurn r s).eng.status.err = s.eng.status.err) ∧
      ((scanTurn r s).eng.run ≠ none → (scanTurn r s).eng.status.err = s.eng.status.err) := by
  by_cases hf : r.first < s.eng.latched.count.toNat
  · cases hp : r.pos with
    | fetch =>
      cases ha : ((List.range (batchLanes s.eng.cfg s.eng.latched r.first)).all fun i => s.admitsScoop (r.first + i))
      · rw [scanTurn_refused hf hp ha]; exact ⟨rfl, rfl, .inl rfl, .inl ⟨rfl, rfl⟩, fun h => absurd rfl h⟩
      · rw [scanTurn_fetch hf hp ha]; exact ⟨rfl, rfl, .inr ⟨_, rfl⟩, .inl ⟨rfl, rfl⟩, fun _ => rfl⟩
    | reduce => rw [scanTurn_reduce hf hp]; exact ⟨rfl, rfl, .inr ⟨_, rfl⟩, .inl ⟨rfl, rfl⟩, fun _ => rfl⟩
  · rw [scanTurn_done (Nat.le_of_not_lt hf), scanComplete]
    split
    · exact ⟨rfl, rfl, .inl rfl, .inr ⟨rfl, rfl⟩, fun h => absurd rfl h⟩
    · exact ⟨rfl, rfl, .inl rfl, .inr ⟨rfl, rfl⟩, fun h => absurd rfl h⟩

theorem initTurn_registers (p : InitPos) (s : State) :
    (initTurn p s).mem = s.mem ∧ (initTurn p s).draws = s.draws ∧
      (initTurn p s).eng.bestDeadline = s.eng.bestDeadline ∧ (initTurn p s).eng.bestOffset = s.eng.bestOffset ∧
      ((initTurn p s).eng.run = none ∨ ∃ q, (initTurn p s).eng.run = some (.init q)) := by
  cases p
  · exact ⟨rfl, rfl, rfl, rfl, .inr ⟨_, rfl⟩⟩
  · exact ⟨rfl, rfl, rfl, rfl, .inr ⟨_, rfl⟩⟩
  · exact ⟨rfl, rfl, rfl, rfl, .inl rfl⟩

/-- However many turns a GEN gets. -/
theorem runTurns_gen (n : Nat) {s : State} (h : s.eng.run = none ∨ ∃ g, s.eng.run = some (.gen g)) :
    (runTurns n s).eng.bestDeadline = s.eng.bestDeadline ∧ (runTurns n s).eng.bestOffset = s.eng.bestOffset ∧
      (runTurns n s).eng.status.tplValid = s.eng.status.tplValid := by
  induction n generalizing s with
  | zero => exact ⟨rfl, rfl, rfl⟩
  | succ n ih =>
    rcases h with h | ⟨g, h⟩
    · rw [runTurns_idle (by simp [Engine.busy, h])]
      exact ⟨rfl, rfl, rfl⟩
    · have ht : turn s = genTurn g s := by simp [turn, h]
      obtain ⟨h1, h2, h3, h4⟩ := genTurn_registers g s
      rw [runTurns_busy (by simp [Engine.busy, h]), ht]
      obtain ⟨k1, k2, k3⟩ := ih h4
      exact ⟨k1.trans h1, k2.trans h2, k3.trans h3⟩

/-- However many turns a SCAN gets. -/
theorem runTurns_scan (n : Nat) {s : State} (h : s.eng.run = none ∨ ∃ r, s.eng.run = some (.scan r)) :
    (runTurns n s).mem = s.mem ∧ (runTurns n s).eng.status.tplValid = s.eng.status.tplValid ∧
      ((runTurns n s).eng.bestDeadline = s.eng.bestDeadline ∧ (runTurns n s).eng.bestOffset = s.eng.bestOffset ∨
        (runTurns n s).eng.run = none ∧ (runTurns n s).eng.status.err = s.eng.status.err) := by
  induction n generalizing s with
  | zero => exact ⟨rfl, rfl, .inl ⟨rfl, rfl⟩⟩
  | succ n ih =>
    rcases h with h | ⟨r, h⟩
    · rw [runTurns_idle (by simp [Engine.busy, h])]
      exact ⟨rfl, rfl, .inl ⟨rfl, rfl⟩⟩
    · have ht : turn s = scanTurn r s := by simp [turn, h]
      obtain ⟨h1, h2, h3, h4, h5⟩ := scanTurn_registers r s
      rw [runTurns_busy (by simp [Engine.busy, h]), ht]
      obtain ⟨k1, k2, k3⟩ := ih h3
      refine ⟨k1.trans h1, k2.trans h2, ?_⟩
      rcases h4 with ⟨h4, h4'⟩ | ⟨h4, h4'⟩
      · cases hr : (scanTurn r s).eng.run with
        | none =>
          rw [runTurns_idle (by simp [Engine.busy, hr])]
          exact .inl ⟨h4, h4'⟩
        | some x =>
          rcases k3 with ⟨k, k'⟩ | ⟨k, k'⟩
          · exact .inl ⟨k.trans h4, k'.trans h4'⟩
          · exact .inr ⟨k, k'.trans (h5 (by rw [hr]; exact Option.some_ne_none x))⟩
      · rw [runTurns_idle (by simp [Engine.busy, h4])]
        exact .inr ⟨h4, h4'⟩

/-- However many turns an INIT gets. -/
theorem runTurns_init (n : Nat) {s : State} (h : s.eng.run = none ∨ ∃ p, s.eng.run = some (.init p)) :
    (runTurns n s).mem = s.mem ∧ (runTurns n s).draws = s.draws ∧
      (runTurns n s).eng.bestDeadline = s.eng.bestDeadline ∧ (runTurns n s).eng.bestOffset = s.eng.bestOffset := by
  induction n generalizing s with
  | zero => exact ⟨rfl, rfl, rfl, rfl⟩
  | succ n ih =>
    rcases h with h | ⟨p, h⟩
    · rw [runTurns_idle (by simp [Engine.busy, h])]
      exact ⟨rfl, rfl, rfl, rfl⟩
    · have ht : turn s = initTurn p s := by simp [turn, h]
      obtain ⟨h1, h2, h3, h4, h5⟩ := initTurn_registers p s
      rw [runTurns_busy (by simp [Engine.busy, h]), ht]
      obtain ⟨k1, k2, k3, k4⟩ := ih h5
      exact ⟨k1.trans h1, k2.trans h2, k3.trans h3, k4.trans h4⟩

/-! What a turn does not look at -/

theorem State.freeRanges_withEng (rs : List Range) (t : State) (e : Engine) :
    (t.withEng e).freeRanges rs = (t.freeRanges rs).withEng e := by
  induction rs generalizing t with
  | nil => rfl
  | cons r rs ih => exact ih (t.freeRange r)

/-- An update of the instance that touches neither what a turn reads (RUN, the parameters, the latched operands, the races)
nor what it writes commutes with the turn. -/
theorem turn_update (f : Engine → Engine) (s : State)
    (hrun : ∀ e, (f e).run = e.run) (hcfg : ∀ e, (f e).cfg = e.cfg) (hlat : ∀ e, (f e).latched = e.latched)
    (hrc : ∀ e, (f e).raced = e.raced) (hm : ∀ e r, f (e.moveTo r) = (f e).moveTo r)
    (hb : ∀ e, f e.buildTemplate = (f e).buildTemplate) (hc : ∀ e, f e.complete = (f e).complete)
    (hr : ∀ e c, f (e.raise c) = (f e).raise c) (hw : ∀ e x y, f (e.withBest x y) = (f e).withBest x y) :
    turn (s.withEng (f s.eng)) = (turn s).withEng (f (turn s).eng) := by
  unfold turn
  simp only [State.withEng_eng, hrun]
  split
  · rfl
  · rename_i p hp
    cases p
    · simp only [initTurn, State.withEng_eng, hm]; rfl
    · simp only [initTurn, State.withEng_eng, hm]; rfl
    · simp only [initTurn, State.withEng_eng, hc, hb]; rfl
  · rename_i g hr'
    by_cases hf : g.first < s.eng.latched.count.toNat
    · have hf' : g.first < (s.withEng (f s.eng)).eng.latched.count.toNat := by rw [State.withEng_eng, hlat]; exact hf
      cases hq : g.pos with
      | round k => rw [genTurn_round hf hq, genTurn_round hf' hq]; simp only [State.withEng_eng, hm, hlat, hcfg]; rfl
      | final => rw [genTurn_final hf hq, genTurn_final hf' hq]; simp only [State.withEng_eng, hm, hlat, hcfg]; rfl
      | write i j =>
        have hadm : ∀ a, (s.withEng (f s.eng)).admitsBlock a = s.admitsBlock a := fun _ => rfl
        cases ha : s.admitsBlock (s.eng.latched.blockAddr (g.first + i) j)
        · rw [genTurn_refused hf hq ha, genTurn_refused hf' hq (by rw [State.withEng_eng, hlat, hadm]; exact ha),
            genBusError_eq, genBusError_eq]
          simp only [State.withEng_eng, hr, Engine.region, hlat]
          generalize s.eng.latched.region = rr
          rfl
        · rw [genTurn_write hf hq ha, genTurn_write hf' hq (by rw [State.withEng_eng, hlat, hadm]; exact ha)]
          simp only [State.withEng_eng, State.withEng_mem, hm, hlat, hcfg]
          generalize genAfterWrite s.eng.cfg s.eng.latched g i j = g1
          generalize Memory.writeBytes _ _ _ = m1
          rfl
    · rw [genTurn_done (s := s) (by omega),
        genTurn_done (s := s.withEng (f s.eng)) (by rw [State.withEng_eng, hlat]; omega)]
      unfold genComplete
      simp only [State.withEng_eng, hrc, State.freeRanges_withEng, State.freeRanges_eng, hc]
      rfl
  · rename_i g hr'
    by_cases hf : g.first < s.eng.latched.count.toNat
    · have hf' : g.first < (s.withEng (f s.eng)).eng.latched.count.toNat := by rw [State.withEng_eng, hlat]; exact hf
      have hbat : batchLanes (s.withEng (f s.eng)).eng.cfg (s.withEng (f s.eng)).eng.latched g.first =
          batchLanes s.eng.cfg s.eng.latched g.first := by
        rw [State.withEng_eng, hlat, hcfg]
      cases hq : g.pos with
      | fetch =>
        have hadm : ∀ n, (s.withEng (f s.eng)).admitsScoop n = s.admitsScoop n := by
          intro n; unfold State.admitsScoop; rw [State.withEng_eng, hlat]; rfl
        have hdig : ∀ n, (s.withEng (f s.eng)).scoopDigestOf n = s.scoopDigestOf n := by
          intro n; unfold State.scoopDigestOf; rw [State.withEng_eng, hlat]; rfl
        cases ha : (List.range (batchLanes s.eng.cfg s.eng.latched g.first)).all fun i => s.admitsScoop (g.first + i)
        · rw [scanTurn_refused hf hq ha, scanTurn_refused hf' hq (by simp only [hbat, hadm]; exact ha)]
          simp only [State.withEng_eng, hr]; rfl
        · rw [scanTurn_fetch hf hq ha, scanTurn_fetch hf' hq (by simp only [hbat, hadm]; exact ha)]
          simp only [State.withEng_eng, hm, hdig, hlat, hcfg]; rfl
      | reduce =>
        rw [scanTurn_reduce hf hq, scanTurn_reduce hf' hq]
        simp only [State.withEng_eng, hm, hlat, hcfg]; rfl
    · rw [scanTurn_done (s := s) (by omega),
        scanTurn_done (s := s.withEng (f s.eng)) (by rw [State.withEng_eng, hlat]; omega)]
      unfold scanComplete
      simp only [State.withEng_eng, hrc]
      split
      · simp only [State.withEng_eng, hc, hw]; rfl
      · simp only [hc, hw]; rfl
  · rfl

end Sys2Proof.Machine
end

