-- ==== Sys2Proof/Laws/Finish.lean ====
section
/-! SUPPORT. Running to completion: a GEN writes every buffer, a SCAN finds its result, each from its start given all its
turns. -/

namespace Sys2Proof.Machine

/-- The state once the running command has had all the turns it has left. -/
def finish (s : State) : State :=
  runTurns (turnsLeft s.eng) s

theorem finish_idle {s : State} (h : s.eng.busy = false) : finish s = s := runTurns_idle h _

theorem turnsLeft_pos {e : Engine} (h : e.Ok) (hb : e.busy = true) : 0 < turnsLeft e := by
  unfold turnsLeft
  split
  · rename_i hr; simp [Engine.busy, hr] at hb
  · omega
  · omega
  · omega
  · unfold genTurnsLeft
    split
    · simp only; split <;> omega
    · omega
  · rename_i r _
    unfold scanTurnsLeft
    simp only
    split
    · omega
    · split
      · rename_i hlt
        have := batches_step h.legal.2.2.2.1 (r := e.latched.count.toNat - r.first) (by omega)
        omega
      · omega
  · rename_i hr
    have := h.run
    unfold Engine.RunOk at this
    rw [hr] at this
    exact this.elim

theorem finish_turn {s : State} (h : s.eng.Ok) (hb : s.eng.busy = true) : finish s = finish (turn s) := by
  unfold finish
  rcases turnsLeft_turn h hb with h1 | h1
  · rw [← h1, runTurns_busy hb]
  · rw [runTurns_idle h1]
    obtain ⟨n, hn⟩ := Nat.exists_eq_succ_of_ne_zero (Nat.ne_of_gt (turnsLeft_pos h hb))
    rw [hn, Nat.succ_eq_add_one, runTurns_busy hb, runTurns_idle h1]

/-- The state with a GEN at a position of its sequence, over a memory. -/
def genAt (s : State) (g : GenRun) (m : Memory) : State :=
  (s.withMem m).withEng (s.eng.moveTo (.gen g))

theorem turn_genAt (s : State) (g : GenRun) (m : Memory) : turn (genAt s g m) = genTurn g (genAt s g m) := rfl

theorem genAt_write (s : State) (g : GenRun) (m : Memory) (i j : Nat) (hf : g.first < s.eng.latched.count.toNat)
    (hp : g.pos = .write i j) (ha : s.admitsBlock (s.eng.latched.blockAddr (g.first + i) j) = true) :
    genTurn g (genAt s g m) = genAt s (genAfterWrite s.eng.cfg s.eng.latched g i j)
      (m.writeBytes (s.eng.latched.blockAddr (g.first + i) j)
        ((g.lanes.getD i (Lane.fresh s.eng.latched (g.first + i))).stored j).toList) :=
  genTurn_write (s := genAt s g m) hf hp ha

theorem plotNonce_length (cfg : EngineConfig) (a v : Word) : (plotNonce Config.bh cfg a v).length = blocksPerNonce := by
  unfold plotNonce
  rw [List.length_map, chainAfter_length]

theorem laneDone_stored (cfg : EngineConfig) (l : Latched) (n j : Nat) (hj : j < blocksPerNonce) :
    (laneDone cfg l n).stored j = (plotNonce Config.bh cfg l.acct (l.nonceValue n)).getD j zero32 := by
  unfold Lane.stored laneDone laneAfter plotNonce
  generalize blocksPerNonce = N at hj
  simp only
  have hc := chainAfter_length Config.bh (capBlocks cfg) (s16 l.acct (l.nonceValue n)) N
  generalize chainAfter Config.bh (capBlocks cfg) (s16 l.acct (l.nonceValue n)) N = c at hc
  rw [List.getD_eq_getElem?_getD, List.getD_eq_getElem?_getD, List.getElem?_map, List.getElem?_eq_getElem (by omega)]
  rfl

/-- Memory with `n` buffers written and the first `j` HashBlocks of the next. -/
def genMem (cfg : EngineConfig) (l : Latched) (m : Memory) (n j : Nat) : Memory :=
  (writeNonces cfg l m n).writeBytes (l.nonceBase n) (concatBlocks ((plotNonce Config.bh cfg l.acct (l.nonceValue n)).take j))

theorem genMem_zero (cfg : EngineConfig) (l : Latched) (m : Memory) (n : Nat) :
    genMem cfg l m n 0 = writeNonces cfg l m n := by
  unfold genMem
  rw [List.take_zero]
  rfl

theorem writeNonces_succ (cfg : EngineConfig) (l : Latched) (m : Memory) (n : Nat) :
    writeNonces cfg l m (n + 1) = writeNonce cfg l (writeNonces cfg l m n) n := by
  unfold writeNonces
  rw [List.range_succ, List.foldl_append, List.foldl_cons, List.foldl_nil]

theorem genMem_full (cfg : EngineConfig) (l : Latched) (m : Memory) (n : Nat) :
    genMem cfg l m n blocksPerNonce = writeNonces cfg l m (n + 1) := by
  rw [writeNonces_succ, genMem, List.take_of_length_le (Nat.le_of_eq (plotNonce_length cfg _ _)), writeNonce]

theorem genMem_succ (cfg : EngineConfig) (l : Latched) (m : Memory) (n : Nat) {j : Nat} (hj : j < blocksPerNonce) :
    (genMem cfg l m n j).writeBytes (l.blockAddr n j) ((laneDone cfg l n).stored j).toList = genMem cfg l m n (j + 1) := by
  unfold genMem
  have hlen := plotNonce_length cfg l.acct (l.nonceValue n)
  rw [laneDone_stored cfg l n j hj]
  generalize plotNonce Config.bh cfg l.acct (l.nonceValue n) = p at hlen
  have hj' : j < p.length := by rw [hlen]; exact hj
  have ht : p.take (j + 1) = p.take j ++ [p.getD j zero32] := by
    rw [List.getD_eq_getElem?_getD, List.getElem?_eq_getElem hj']
    exact (List.take_concat_get' _ _ _).symm
  rw [ht, concatBlocks_append, Memory.writeBytes_append, concatBlocks_length, List.length_take, Nat.min_eq_left (Nat.le_of_lt hj')]
  have hc : concatBlocks [p.getD j zero32] = (p.getD j zero32).toList := by
    rw [concatBlocks, List.flatMap_cons, List.flatMap_nil, List.append_nil]
  rw [hc]
  rfl

/-- A HashBlock read back from a written sequence of them. -/
theorem Memory.readBlock_concat (m : Memory) (hm : m.wf) (b : Nat) (xs : List HashBlock) (j : Nat) (hj : j < xs.length) :
    (m.writeBytes b (concatBlocks xs)).readBlock (b + 32 * j) = xs.getD j zero32 := by
  have hs : xs = xs.take j ++ (xs.getD j zero32 :: xs.drop (j + 1)) := by
    rw [List.getD_eq_getElem?_getD, List.getElem?_eq_getElem hj]
    simp
  generalize hx : xs.getD j zero32 = x at hs
  rw [hs, concatBlocks_append, concatBlocks_cons, Memory.writeBytes_append, Memory.writeBytes_append]
  have hl : (concatBlocks (xs.take j)).length = 32 * j := by rw [concatBlocks_length, List.length_take, Nat.min_eq_left (by omega)]
  rw [hl]
  have w1 := Memory.wf_writeBytes hm b (concatBlocks (xs.take j))
  have w2 := Memory.wf_writeBytes w1 (b + 32 * j) x.toList
  rw [Memory.readBlock_congr (m' := (m.writeBytes b (concatBlocks (xs.take j))).writeBytes (b + 32 * j) x.toList)]
  · exact Memory.readBlock_writeBytes w1 _ _
  · intro i hi
    apply Memory.read_writeBytes_outside w2
    rw [Vector.length_toList]; omega

/-- What memory holds once `c` buffers are written. -/
theorem writeNonces_read (cfg : EngineConfig) (l : Latched) (m : Memory) (hm : m.wf) (c : Nat) :
    (writeNonces cfg l m c).wf ∧
    (∀ n < c, ∀ j < blocksPerNonce, (writeNonces cfg l m c).readBlock (l.blockAddr n j) = (plotNonce Config.bh cfg l.acct (l.nonceValue n)).getD j zero32) ∧
    (∀ a, (a < l.buf.toNat ∨ l.buf.toNat + c * nonceSize ≤ a) → (writeNonces cfg l m c).read a = m.read a) := by
  induction c with
  | zero => exact ⟨hm, fun n hn => absurd hn (by omega), fun a _ => rfl⟩
  | succ c ih =>
    obtain ⟨i1, i2, i3⟩ := ih
    rw [writeNonces_succ]
    unfold writeNonce
    have hlen : (concatBlocks (plotNonce Config.bh cfg l.acct (l.nonceValue c))).length = nonceSize := by
      rw [concatBlocks_length, plotNonce_length]; rfl
    refine ⟨Memory.wf_writeBytes i1 _ _, ?_, ?_⟩
    · intro n hn j hj
      rcases Nat.lt_or_ge n c with h | h
      · rw [← i2 n h j hj]
        apply Memory.readBlock_congr
        intro i hi
        apply Memory.read_writeBytes_outside i1
        left
        simp only [Latched.blockAddr, Latched.nonceBase, nonceSize, blocksPerNonce] at *
        omega
      · have : n = c := by omega
        subst this
        unfold Latched.blockAddr
        generalize hp : plotNonce Config.bh cfg l.acct (l.nonceValue n) = p
        have hl := plotNonce_length cfg l.acct (l.nonceValue n)
        rw [hp] at hl

        exact Memory.readBlock_concat (writeNonces cfg l m n) i1 (l.nonceBase n) p j (hl ▸ hj)
    · intro a ha
      have h1 : a < l.buf.toNat ∨ l.buf.toNat + c * nonceSize ≤ a := by
        clear i1 i2 i3 hlen
        rw [Nat.add_mul, Nat.one_mul] at ha
        generalize c * nonceSize = x at ha ⊢
        omega
      rw [← i3 a h1]
      apply Memory.read_writeBytes_outside i1
      rw [hlen]
      unfold Latched.nonceBase
      rw [Nat.add_mul, Nat.one_mul] at ha
      generalize c * nonceSize = x at ha ⊢
      clear i1 i2 i3 hlen
      omega

section
variable (s : State) (hl : s.eng.cfg.Legal)
  (hOk : ∀ g, GenRun.Ok s.eng.cfg s.eng.latched g → (s.eng.moveTo (.gen g)).Ok)

/-- The GEN after `k` rounds of the batch at `first`. -/
def gRound (s : State) (first k : Nat) : GenRun :=
  ⟨first, .round k, batchOf s.eng.cfg s.eng.latched first (laneAfter s.eng.cfg s.eng.latched k)⟩

/-- The GEN before the final hash of the batch at `first`. -/
def gFinal (s : State) (first : Nat) : GenRun :=
  ⟨first, .final, batchOf s.eng.cfg s.eng.latched first (laneAfter s.eng.cfg s.eng.latched blocksPerNonce)⟩

/-- The GEN before the write of HashBlock `j` of lane `i` of the batch at `first`. -/
def gWrite (s : State) (first i j : Nat) : GenRun :=
  ⟨first, .write i j, batchOf s.eng.cfg s.eng.latched first (laneDone s.eng.cfg s.eng.latched)⟩

include hl hOk

theorem finish_rounds (first : Nat) (hf : first < s.eng.latched.count.toNat) (m : Memory) (d k : Nat) (h : k + (d + 1) = blocksPerNonce) :
    finish (genAt s (gRound s first k) m) = finish (genAt s (gFinal s first) m) := by
  have hok : (genAt s (gRound s first k) m).eng.Ok := hOk _ ⟨Nat.le_of_lt hf, by show k < _; omega, rfl⟩
  induction d generalizing k with
  | zero =>
    rw [finish_turn hok rfl, turn_genAt, genTurn_round (k := k) hf rfl, if_neg (by omega)]
    have hk : blocksPerNonce = k + 1 := by omega
    have hb := batchOf_map s.eng.cfg s.eng.latched first _ (round_laneAfter _ hl s.eng.latched k)
    unfold gFinal
    rw [hk, ← hb]
    rfl
  | succ d ih =>
    have hok' : (genAt s (gRound s first (k+1)) m).eng.Ok := hOk _ ⟨Nat.le_of_lt hf, by show k + 1 < _; omega, rfl⟩
    rw [← ih (k + 1) (by omega) hok', finish_turn hok rfl, turn_genAt, genTurn_round (k := k) hf rfl, if_pos (by omega)]
    have hb := batchOf_map s.eng.cfg s.eng.latched first _ (round_laneAfter _ hl s.eng.latched k)
    unfold gRound
    rw [← hb]
    rfl

omit hl in
theorem finish_final (first : Nat) (hf : first < s.eng.latched.count.toNat) (m : Memory) :
    finish (genAt s (gFinal s first) m) = finish (genAt s (gWrite s first 0 0) m) := by
  have hok : (genAt s (gFinal s first) m).eng.Ok := hOk _ ⟨Nat.le_of_lt hf, rfl⟩
  rw [finish_turn hok rfl, turn_genAt, genTurn_final hf rfl]
  have hb := batchOf_map s.eng.cfg s.eng.latched first _ (finish_laneAfter s.eng.cfg s.eng.latched)
  unfold gWrite
  rw [← hb]
  rfl

variable (hadm : ∀ n < s.eng.latched.count.toNat, ∀ j < blocksPerNonce, s.admitsBlock (s.eng.latched.blockAddr n j) = true)
include hadm

omit hl in
theorem turn_write (first : Nat) (hf : first < s.eng.latched.count.toNat) (m : Memory) (i j : Nat)
    (hi : i < batchLanes s.eng.cfg s.eng.latched first) (hj : j < blocksPerNonce) :
    finish (genAt s (gWrite s first i j) (genMem s.eng.cfg s.eng.latched m (first + i) j)) =
    finish (genAt s (genAfterWrite s.eng.cfg s.eng.latched (gWrite s first i j) i j) (genMem s.eng.cfg s.eng.latched m (first + i) (j + 1))) := by
  have hok : (genAt s (gWrite s first i j) (genMem s.eng.cfg s.eng.latched m (first + i) j)).eng.Ok := hOk _ ⟨Nat.le_of_lt hf, hi, hj, rfl⟩
  have hn : first + i < s.eng.latched.count.toNat := by unfold batchLanes at hi; omega
  have ha := hadm _ hn _ hj
  have hlane : ∀ d, (gWrite s first i j).lanes.getD i d = laneDone s.eng.cfg s.eng.latched (first + i) := by
    intro d
    show (batchOf s.eng.cfg s.eng.latched first (laneDone s.eng.cfg s.eng.latched)).getD i d = _
    rw [List.getD_eq_getElem?_getD, List.getElem?_eq_getElem (by simpa [batchOf] using hi)]
    simp [batchOf]
  rw [finish_turn hok rfl, turn_genAt, genAt_write s (gWrite s first i j) _ i j hf rfl ha, hlane, ← genMem_succ _ _ _ _ hj]
  rfl

omit hl in
theorem finish_lane (first : Nat) (hf : first < s.eng.latched.count.toNat) (m : Memory) (i : Nat)
    (hi : i < batchLanes s.eng.cfg s.eng.latched first) (d j : Nat) (h : j + (d + 1) = blocksPerNonce) :
    finish (genAt s (gWrite s first i j) (genMem s.eng.cfg s.eng.latched m (first + i) j)) =
    finish (genAt s (if i + 1 < batchLanes s.eng.cfg s.eng.latched first then gWrite s first (i + 1) 0
      else genBatch s.eng.cfg s.eng.latched (first + batchLanes s.eng.cfg s.eng.latched first)) (writeNonces s.eng.cfg s.eng.latched m (first + i + 1))) := by
  induction d generalizing j with
  | zero =>
    rw [turn_write s hOk hadm first hf m i j hi (by omega), ← genMem_full]
    have hj : j + 1 = blocksPerNonce := by omega
    rw [hj, genAfterWrite, if_neg (by omega)]
    rfl
  | succ d ih =>
    rw [← ih (j + 1) (by omega), turn_write s hOk hadm first hf m i j hi (by omega), genAfterWrite, if_pos (by omega)]
    rfl

omit hl in
theorem finish_writes (first : Nat) (hf : first < s.eng.latched.count.toNat) (m : Memory) (d i : Nat)
    (h : i + (d + 1) = batchLanes s.eng.cfg s.eng.latched first) :
    finish (genAt s (gWrite s first i 0) (writeNonces s.eng.cfg s.eng.latched m (first + i))) =
    finish (genAt s (genBatch s.eng.cfg s.eng.latched (first + batchLanes s.eng.cfg s.eng.latched first))
      (writeNonces s.eng.cfg s.eng.latched m (first + batchLanes s.eng.cfg s.eng.latched first))) := by
  have hb : 0 + ((blocksPerNonce - 1) + 1) = blocksPerNonce := by simp [blocksPerNonce]
  induction d generalizing i with
  | zero =>
    rw [← genMem_zero, finish_lane s hOk hadm first hf m i (by omega) _ 0 hb, if_neg (by omega)]
    have : first + i + 1 = first + batchLanes s.eng.cfg s.eng.latched first := by omega
    rw [this]
  | succ d ih =>
    rw [← ih (i + 1) (by omega)]
    rw [← genMem_zero, finish_lane s hOk hadm first hf m i (by omega) _ 0 hb, if_pos (by omega)]
    rfl

theorem finish_batches (m : Memory) (r first : Nat) (hr : s.eng.latched.count.toNat - first ≤ r) (hf : first ≤ s.eng.latched.count.toNat) :
    finish (genAt s (genBatch s.eng.cfg s.eng.latched first) (writeNonces s.eng.cfg s.eng.latched m first)) =
    finish (genAt s (genBatch s.eng.cfg s.eng.latched s.eng.latched.count.toNat) (writeNonces s.eng.cfg s.eng.latched m s.eng.latched.count.toNat)) := by
  have hb : 0 + ((blocksPerNonce - 1) + 1) = blocksPerNonce := by simp [blocksPerNonce]
  induction r generalizing first with
  | zero =>
    have : first = s.eng.latched.count.toNat := by omega
    rw [this]
  | succ r ih =>
    rcases Nat.eq_or_lt_of_le hf with h | h
    · rw [h]
    · have hp := batchLanes_pos hl.2.2.2.1 h
      have hle : batchLanes s.eng.cfg s.eng.latched first ≤ s.eng.latched.count.toNat - first := by unfold batchLanes; omega
      rw [← ih (first + batchLanes s.eng.cfg s.eng.latched first) (by omega) (by omega)]
      rw [← finish_writes s hOk hadm first h m (batchLanes s.eng.cfg s.eng.latched first - 1) 0 (by omega)]
      rw [← finish_final s hOk first h, ← finish_rounds s hl hOk first h _ _ 0 hb]
      rfl
end

/-- A GEN from its start, given all its turns: every buffer is written, then it completes. -/
theorem finish_gen_complete (s : State) (hl : s.eng.cfg.Legal)
    (hOk : ∀ g, GenRun.Ok s.eng.cfg s.eng.latched g → (s.eng.moveTo (.gen g)).Ok)
    (hadm : ∀ n < s.eng.latched.count.toNat, ∀ j < blocksPerNonce, s.admitsBlock (s.eng.latched.blockAddr n j) = true) :
    finish (s.withEng (s.eng.moveTo (.gen (genBatch s.eng.cfg s.eng.latched 0)))) =
    genComplete (genAt s (genBatch s.eng.cfg s.eng.latched s.eng.latched.count.toNat)
      (writeNonces s.eng.cfg s.eng.latched s.mem s.eng.latched.count.toNat)) := by
  have h := finish_batches s hl hOk hadm s.mem s.eng.latched.count.toNat 0 (by omega) (by omega)
  have h0 : genAt s (genBatch s.eng.cfg s.eng.latched 0) (writeNonces s.eng.cfg s.eng.latched s.mem 0) =
    s.withEng (s.eng.moveTo (.gen (genBatch s.eng.cfg s.eng.latched 0))) := rfl
  have hok : (genAt s (genBatch s.eng.cfg s.eng.latched s.eng.latched.count.toNat) (writeNonces s.eng.cfg s.eng.latched s.mem s.eng.latched.count.toNat)).eng.Ok :=
    hOk _ (genBatch_ok _ _ (Nat.le_refl _))
  rw [← h0, h, finish_turn hok rfl, turn_genAt, genTurn_done (Nat.le_refl _), finish_idle rfl]

/-- A GEN from its start with no race marked: every buffer is written and nothing else changes but the completion. -/
theorem finish_gen (s : State) (hl : s.eng.cfg.Legal)
    (hOk : ∀ g, GenRun.Ok s.eng.cfg s.eng.latched g → (s.eng.moveTo (.gen g)).Ok)
    (hadm : ∀ n < s.eng.latched.count.toNat, ∀ j < blocksPerNonce, s.admitsBlock (s.eng.latched.blockAddr n j) = true)
    (hr : s.eng.raced = []) :
    finish (s.withEng (s.eng.moveTo (.gen (genBatch s.eng.cfg s.eng.latched 0)))) =
    (s.withMem (writeNonces s.eng.cfg s.eng.latched s.mem s.eng.latched.count.toNat)).withEng s.eng.complete := by
  have hr' : (genAt s (genBatch s.eng.cfg s.eng.latched s.eng.latched.count.toNat) (writeNonces s.eng.cfg s.eng.latched s.mem s.eng.latched.count.toNat)).eng.raced = [] := hr
  rw [finish_gen_complete s hl hOk hadm, genComplete, hr', State.freeRanges_nil]
  rfl

/-! SCAN -/

/-- The deadline of a buffer as the turn computes it is that of the rule (R164, R165). -/
theorem deadline_scoopDigestOf (s : State) (n : Nat) :
    deadline s.eng.cfg.deadlineOrder (s.scoopDigestOf n) = deadlineOf s.eng.cfg s.eng.latched s.mem n := by
  unfold State.scoopDigestOf scoopCall hashFast deadlineOf scoopDigest hash
  rw [paddedBlocks_scoop]
  rfl

theorem reduceFrom_append (xs ys : List Word) (p : Best) (n : Nat) :
    reduceFrom p n (xs ++ ys) = reduceFrom (reduceFrom p n xs) (n + xs.length) ys := by
  induction xs generalizing p n with
  | nil => rfl
  | cons x xs ih =>
    rw [List.cons_append, reduceFrom, ih, reduceFrom, List.length_cons, Nat.add_assoc, Nat.add_comm 1]

/-- The running pair once the first `n` buffers are reduced (R167). -/
def bestAfter (cfg : EngineConfig) (l : Latched) (m : Memory) (n : Nat) : Best :=
  reduceFrom Best.initial 0 ((List.range n).map (deadlineOf cfg l m))

theorem bestAfter_add (cfg : EngineConfig) (l : Latched) (m : Memory) (n k : Nat) :
    bestAfter cfg l m (n + k) =
      reduceFrom (bestAfter cfg l m n) n ((List.range k).map fun i => deadlineOf cfg l m (n + i)) := by
  unfold bestAfter
  rw [List.range_add, List.map_append, reduceFrom_append, List.length_map, List.length_range, Nat.zero_add,
    List.map_map]
  rfl

theorem bestAfter_index (cfg : EngineConfig) (l : Latched) (m : Memory) (n : Nat) :
    bestAfter cfg l m n = Best.initial ∨ (bestAfter cfg l m n).index < n := by
  have := reduceFrom_index ((List.range n).map (deadlineOf cfg l m)) Best.initial 0 (.inl rfl)
  rwa [List.length_map, List.length_range, Nat.zero_add] at this

/-- The state with a SCAN at a position of its sequence. -/
def scanAt (s : State) (r : ScanRun) : State :=
  s.withEng (s.eng.moveTo (.scan r))

theorem turn_scanAt (s : State) (r : ScanRun) : turn (scanAt s r) = scanTurn r (scanAt s r) := rfl

/-- The SCAN that has read and hashed the batch at `first` and not reduced it yet. -/
def scanFetched (s : State) (first : Nat) (best : Best) : ScanRun :=
  ⟨first, .reduce, (List.range (batchLanes s.eng.cfg s.eng.latched first)).map fun i => s.scoopDigestOf (first + i), best⟩

theorem scanAt_fetch (s : State) {first : Nat} (hf : first < s.eng.latched.count.toNat) (best : Best)
    (ha : ((List.range (batchLanes s.eng.cfg s.eng.latched first)).all fun i => s.admitsScoop (first + i)) = true) :
    scanTurn (scanBatch first best) (scanAt s (scanBatch first best)) = scanAt s (scanFetched s first best) :=
  scanTurn_fetch (s := scanAt s (scanBatch first best)) (r := scanBatch first best) hf rfl ha

theorem scanAt_reduce (s : State) {first : Nat} (hf : first < s.eng.latched.count.toNat) (best : Best) :
    scanTurn (scanFetched s first best) (scanAt s (scanFetched s first best)) =
      scanAt s (scanBatch (first + batchLanes s.eng.cfg s.eng.latched first)
        (reduceFrom best first ((scanFetched s first best).digests.map (deadline s.eng.cfg.deadlineOrder)))) :=
  scanTurn_reduce (s := scanAt s (scanFetched s first best)) (r := scanFetched s first best) hf rfl

/-- The two turns of a batch. -/
theorem finish_scanBatch (s : State)
    (hOk : ∀ r, ScanRun.Ok s.eng.cfg s.eng.latched r → (s.eng.moveTo (.scan r)).Ok)
    (hadm : s.AdmitsScan s.eng.latched) (first : Nat) (hf : first < s.eng.latched.count.toNat) :
    finish (scanAt s (scanBatch first (bestAfter s.eng.cfg s.eng.latched s.mem first))) =
      finish (scanAt s (scanBatch (first + batchLanes s.eng.cfg s.eng.latched first)
        (bestAfter s.eng.cfg s.eng.latched s.mem (first + batchLanes s.eng.cfg s.eng.latched first)))) := by
  have hb := bestAfter_index s.eng.cfg s.eng.latched s.mem first
  have hall : ((List.range (batchLanes s.eng.cfg s.eng.latched first)).all fun i => s.admitsScoop (first + i)) = true := by
    rw [List.all_eq_true]
    intro i hi
    rw [List.mem_range, batchLanes] at hi
    have := hadm (first + i) (by omega)
    unfold State.admitsScoop
    rw [this.1, this.2]
    rfl
  have h1 : (scanAt s (scanBatch first (bestAfter s.eng.cfg s.eng.latched s.mem first))).eng.Ok :=
    hOk _ ⟨Nat.le_of_lt hf, hb, trivial⟩
  have h2 : (scanAt s (scanFetched s first (bestAfter s.eng.cfg s.eng.latched s.mem first))).eng.Ok :=
    hOk _ ⟨Nat.le_of_lt hf, hb, by simp [scanFetched]⟩
  have hd : (scanFetched s first (bestAfter s.eng.cfg s.eng.latched s.mem first)).digests.map
      (deadline s.eng.cfg.deadlineOrder) =
      (List.range (batchLanes s.eng.cfg s.eng.latched first)).map
        fun i => deadlineOf s.eng.cfg s.eng.latched s.mem (first + i) := by
    unfold scanFetched
    rw [List.map_map]
    exact List.map_congr_left fun i _ => deadline_scoopDigestOf s (first + i)
  rw [finish_turn h1 rfl, turn_scanAt, scanAt_fetch s hf _ hall, finish_turn h2 rfl, turn_scanAt, scanAt_reduce s hf, hd,
    bestAfter_add]

/-- A SCAN from its start, given all its turns: nothing changes but the result registers and the completion. -/
theorem finish_scan (s : State) (hl : s.eng.cfg.Legal)
    (hOk : ∀ r, ScanRun.Ok s.eng.cfg s.eng.latched r → (s.eng.moveTo (.scan r)).Ok)
    (hadm : s.AdmitsScan s.eng.latched) (hr : s.eng.raced = []) :
    finish (scanAt s (scanBatch 0 Best.initial)) =
      s.withEng (s.eng.withBest (scanResult s.eng.cfg s.eng.latched s.mem).value
        (BitVec.ofNat 64 (scanResult s.eng.cfg s.eng.latched s.mem).index)).complete := by
  have hall : ∀ r first, s.eng.latched.count.toNat - first ≤ r → first ≤ s.eng.latched.count.toNat →
      finish (scanAt s (scanBatch first (bestAfter s.eng.cfg s.eng.latched s.mem first))) =
      finish (scanAt s (scanBatch s.eng.latched.count.toNat (scanResult s.eng.cfg s.eng.latched s.mem))) := by
    intro r
    induction r with
    | zero =>
      intro first hd hf
      have : first = s.eng.latched.count.toNat := by omega
      rw [this]
      rfl
    | succ r ih =>
      intro first hd hf
      rcases Nat.eq_or_lt_of_le hf with h | h
      · rw [h]
        rfl
      · have hp := batchLanes_pos hl.2.2.2.1 h
        have hle : batchLanes s.eng.cfg s.eng.latched first ≤ s.eng.latched.count.toNat - first := by
          unfold batchLanes
          omega
        rw [finish_scanBatch s hOk hadm first h]
        exact ih _ (by omega) (by omega)
  have h0 := hall _ 0 (Nat.le_refl _) (Nat.zero_le _)
  have hok : (scanAt s (scanBatch s.eng.latched.count.toNat (scanResult s.eng.cfg s.eng.latched s.mem))).eng.Ok :=
    hOk _ ⟨Nat.le_refl _, bestAfter_index s.eng.cfg s.eng.latched s.mem s.eng.latched.count.toNat, trivial⟩
  have h1 : finish (scanAt s (scanBatch 0 Best.initial)) =
      finish (scanAt s (scanBatch s.eng.latched.count.toNat (scanResult s.eng.cfg s.eng.latched s.mem))) := h0
  rw [h1, finish_turn hok rfl, turn_scanAt, scanTurn_done (Nat.le_refl _), scanComplete]
  have hr' : (scanAt s (scanBatch s.eng.latched.count.toNat (scanResult s.eng.cfg s.eng.latched s.mem))).eng.raced = [] := hr
  rw [hr', List.isEmpty_nil, if_pos rfl, finish_idle rfl]
  rfl

/-! However a command ends -/

/-- The turns a GEN has left end in its completion or its bus error, from a position with nothing but memory changed. -/
theorem finish_gen_ends {s : State} (h : s.eng.Ok) (hm : s.mem.wf) {g : GenRun} (hr : s.eng.run = some (.gen g)) :
    ∃ m g', m.wf ∧ (finish s = genComplete (genAt s g' m) ∨ finish s = genBusError (genAt s g' m)) := by
  have hb : s.eng.busy = true := by simp [Engine.busy, hr]
  generalize hn : turnsLeft s.eng = n
  induction n generalizing s g with
  | zero => have := turnsLeft_pos h hb; omega
  | succ n ih =>
    have ht : turn s = genTurn g s := by simp [turn, hr]
    have hself : genAt s g s.mem = s := by
      unfold genAt Engine.moveTo
      rw [← hr]; rfl
    rw [finish_turn h hb, ht]
    have step : ∀ m g', m.wf → genTurn g s = genAt s g' m →
        ∃ m g', m.wf ∧
          (finish (genTurn g s) = genComplete (genAt s g' m) ∨ finish (genTurn g s) = genBusError (genAt s g' m)) := by
      intro m g' hw he
      rw [he]
      have hok : (genAt s g' m).eng.Ok := by rw [← he, ← ht]; exact turn_ok h
      have hl : turnsLeft (genAt s g' m).eng = n := by
        rcases turnsLeft_turn h hb with h1 | h1
        · rw [ht, he] at h1; omega
        · rw [ht, he] at h1; cases h1
      obtain ⟨m', g'', hw', hf⟩ := ih hok hw rfl rfl hl
      exact ⟨m', g'', hw', hf⟩
    by_cases hf : g.first < s.eng.latched.count.toNat
    · cases hp : g.pos with
      | round k => exact step s.mem _ hm (genTurn_round hf hp)
      | final => exact step s.mem _ hm (genTurn_final hf hp)
      | write i j =>
        cases ha : s.admitsBlock (s.eng.latched.blockAddr (g.first + i) j)
        · refine ⟨s.mem, g, hm, .inr ?_⟩
          rw [hself, genTurn_refused hf hp ha]
          exact finish_idle (by rw [genBusError_eq]; rfl)
        · exact step _ _ (Memory.wf_writeBytes hm _ _) (genTurn_write hf hp ha)
    · refine ⟨s.mem, g, hm, .inl ?_⟩
      rw [hself, genTurn_done (by omega)]
      exact finish_idle (by rfl)

/-- The turns a SCAN has left, its reads admitted, end in its completion, with nothing changed before. -/
theorem finish_scan_ends {s : State} (h : s.eng.Ok) (ha : s.AdmitsScan s.eng.latched) {r : ScanRun}
    (hr : s.eng.run = some (.scan r)) : ∃ best r', finish s = scanComplete best (scanAt s r') := by
  have hb : s.eng.busy = true := by simp [Engine.busy, hr]
  generalize hn : turnsLeft s.eng = n
  induction n generalizing s r with
  | zero => have := turnsLeft_pos h hb; omega
  | succ n ih =>
    have ht : turn s = scanTurn r s := by simp [turn, hr]
    have hself : scanAt s r = s := by
      unfold scanAt Engine.moveTo
      rw [← hr]; rfl
    rw [finish_turn h hb, ht]
    have step : ∀ r', scanTurn r s = scanAt s r' →
        ∃ best r', finish (scanTurn r s) = scanComplete best (scanAt s r') := by
      intro r' he
      rw [he]
      have hok : (scanAt s r').eng.Ok := by rw [← he, ← ht]; exact turn_ok h
      have hl : turnsLeft (scanAt s r').eng = n := by
        rcases turnsLeft_turn h hb with h1 | h1
        · rw [ht, he] at h1; omega
        · rw [ht, he] at h1; cases h1
      exact ih hok ha rfl rfl hl
    by_cases hf : r.first < s.eng.latched.count.toNat
    · cases hp : r.pos with
      | fetch =>
        refine step _ (scanTurn_fetch hf hp ?_)
        rw [List.all_eq_true]
        intro i hi
        rw [List.mem_range, batchLanes] at hi
        have := ha (r.first + i) (by omega)
        unfold State.admitsScoop
        rw [this.1, this.2]; rfl
      | reduce => exact step _ (scanTurn_reduce hf hp)
    · refine ⟨r.best, r, ?_⟩
      rw [hself, scanTurn_done (by omega)]
      exact finish_idle (by unfold scanComplete; split <;> rfl)

end Sys2Proof.Machine
end

