-- ==== Sys2Proof/Laws/Launch.lean ====
section
/-! SUPPORT. Launches: the launch checks, races that a launch does not make, and a started command. -/

namespace Sys2Proof.Machine

/-! Ranges -/

theorem Range.overlaps_iff {r q : Range} :
    Range.overlaps r q = true ↔ max r.base q.base < min (r.base + r.len) (q.base + q.len) := by
  unfold Range.overlaps Range.meet
  rw [decide_eq_true_iff]
  simp only
  omega

theorem Range.overlaps_comm (r q : Range) : Range.overlaps r q = Range.overlaps q r := by
  rw [Bool.eq_iff_iff, Range.overlaps_iff, Range.overlaps_iff, max_comm, min_comm]

theorem Range.overlaps_empty {r q : Range} (h : q.len = 0) : Range.overlaps r q = false := by
  rw [← Bool.not_eq_true, Range.overlaps_iff]
  omega

/-- The nonce buffers over an overlapping range, byte by byte: those of every buffer that shares a byte with it. -/
theorem holds_buffersOver {l : Latched} {r : Range} (h : Range.overlaps l.region r = true) (x : Nat) :
    Range.holds (l.buffersOver r) x = true ↔
      ∃ n < l.count.toNat, Range.overlaps (l.buffer n) r = true ∧ Range.holds (l.buffer n) x = true := by
  simp only [Range.overlaps_iff, Range.holds_iff, Latched.buffersOver, Latched.buffer, Latched.nonceBase, Latched.region] at *
  have hS : 0 < nonceSize := by decide
  generalize nonceSize = S, l.count.toNat = c at *
  generalize l.buf.toNat = b at *
  -- buffer n overlaps the range when it is neither below the first nor above the last one met
  have hfirst : ∀ n, (r.base - b) / S ≤ n ↔ r.base < b + (n * S + S) := fun n => by
    rw [← Nat.lt_succ_iff, Nat.div_lt_iff_lt_mul hS, Nat.succ_mul]
    omega
  have hlast : ∀ n, n ≤ (r.base + r.len - 1 - b) / S ↔ b + n * S < r.base + r.len := fun n => by
    rw [Nat.le_div_iff_mul_le hS]
    omega
  have hmul : ∀ m n, m * S < n * S ↔ m < n := fun m n => Nat.mul_lt_mul_right hS
  generalize (r.base - b) / S = f, (r.base + r.len - 1 - b) / S = t at *
  rw [Nat.sub_mul]
  have hfs := (hmul (min c (t + 1)) f).not
  constructor
  · intro hh
    have hx := Nat.div_add_mod' (x - b) S
    have hm := Nat.mod_lt (x - b) hS
    generalize (x - b) / S = n, (x - b) % S = d at *
    have h1 := hmul n (min c (t + 1))
    have h2 := hmul f (n + 1)
    have h3 := hfirst n
    have h4 := hlast n
    rw [Nat.succ_mul] at h2
    exact ⟨n, by omega, by omega, by omega⟩
  · rintro ⟨k, hk, ho, hh⟩
    have h1 := hmul k f
    have h2 := hmul (min c (t + 1)) (k + 1)
    have h3 := hfirst k
    have h4 := hlast k
    rw [Nat.succ_mul] at h2
    omega

theorem buffersOver_inside {l : Latched} {r : Range} (h : Range.overlaps l.region r = true) :
    Range.inside (l.buffersOver r) l.region := by
  rw [Range.overlaps_iff] at h
  simp only [Range.inside, Latched.buffersOver, Latched.nonceBase, Latched.region, nonceSize] at *
  omega

/-- A SCAN reads only inside its REGION. -/
theorem scanReads_false {l : Latched} {r : Range} (hs : l.scoop.toNat ≤ 4095) (h : Range.overlaps r l.region = false) :
    l.scanReads r = false := by
  rw [← Bool.not_eq_true, Latched.scanReads, List.any_eq_true]
  rintro ⟨n, hn, ho⟩
  rw [← Bool.not_eq_true, Range.overlaps_iff] at h
  rw [List.mem_range] at hn
  rw [Bool.or_eq_true, Range.overlaps_iff, Range.overlaps_iff] at ho
  apply h
  simp only [Latched.region, Latched.scoopAddrA, Latched.scoopAddrB, Latched.nonceBase, nonceSize] at *
  omega

/-! Races -/

theorem Engine.contend_idle {e o : Engine} (h : o.usesRegion = false) : e.contend o = e := by
  unfold Engine.contend
  unfold Engine.usesRegion at h
  split <;> simp_all

theorem Engine.contend_disjoint {e o : Engine} (hs : e.Ok) (h : Range.overlaps e.region o.region = false) :
    e.contend o = e := by
  unfold Engine.contend
  split
  · rw [h]
    rfl
  · rw [h]
    rfl
  · rename_i r g hr ho
    rw [scanReads_false (hs.scan hr).2.2.1 (by rw [Range.overlaps_comm]; exact h)]
    rfl
  · rfl

theorem Engine.contend_scan {e o : Engine} {r q : ScanRun} (he : e.run = some (.scan r)) (ho : o.run = some (.scan q)) :
    e.contend o = e := by
  unfold Engine.contend
  rw [he, ho]

theorem foldl_contend_same {ps : List Engine} {e : Engine} (h : ∀ p ∈ ps, e.contend p = e) :
    ps.foldl Engine.contend e = e := by
  induction ps with
  | nil => rfl
  | cons p ps ih =>
    rw [List.foldl_cons, h p (List.mem_cons_self ..)]
    exact ih fun q hq => h q (List.mem_cons_of_mem _ hq)

theorem State.contend_same {s : State} (h : ∀ p ∈ s.peers, s.eng.contend p = s.eng ∧ p.contend s.eng = p) :
    s.contend = s := by
  have h1 : s.peers.foldl Engine.contend s.eng = s.eng := foldl_contend_same fun p hp => (h p hp).1
  have h2 : (s.peers.map fun p => p.contend s.eng) = s.peers := by
    conv_rhs => rw [← List.map_id s.peers]
    exact List.map_congr_left fun p hp => (h p hp).2
  unfold State.contend
  rw [h1, h2]

theorem contend_unraced (e o : Engine) : (e.contend o).unraced = e.unraced := by
  obtain ⟨rs, h⟩ := e.contend_eq o
  rw [h]
  rfl

/-- A GEN started beside other commands is raced exactly when its REGION overlaps that of one of them. -/
theorem Engine.foldl_contend_gen {ps : List Engine} {e : Engine} (he : ∃ g, e.run = some (.gen g)) :
    (ps.foldl Engine.contend e).raced ≠ [] ↔
      e.raced ≠ [] ∨ ∃ p ∈ ps, p.usesRegion = true ∧ Range.overlaps e.region p.region = true := by
  induction ps generalizing e with
  | nil => simp
  | cons p ps ih =>
    obtain ⟨g, hg⟩ := he
    obtain ⟨rs, hc⟩ := e.contend_eq p
    rw [List.foldl_cons, ih ⟨g, by rw [hc]; exact hg⟩]
    have hreg : (e.contend p).region = e.region := by rw [hc]; rfl
    have hone : (e.contend p).raced ≠ [] ↔
        e.raced ≠ [] ∨ p.usesRegion = true ∧ Range.overlaps e.region p.region = true := by
      unfold Engine.contend Engine.usesRegion
      rw [hg]
      rcases hp : p.run with _ | (_ | _ | _ | _) <;> simp only [] <;> (try split) <;> simp_all
    rw [hone, hreg, or_assoc]
    simp only [List.mem_cons, exists_eq_or_imp]

/-- A SCAN started beside other commands is raced exactly when it reads in the REGION of a GEN among them. -/
theorem Engine.foldl_contend_scan {ps : List Engine} {e : Engine} (he : ∃ r, e.run = some (.scan r)) :
    (ps.foldl Engine.contend e).raced ≠ [] ↔
      e.raced ≠ [] ∨ ∃ p ∈ ps, p.generates = true ∧ e.latched.scanReads p.region = true := by
  induction ps generalizing e with
  | nil => simp
  | cons p ps ih =>
    obtain ⟨g, hg⟩ := he
    obtain ⟨rs, hc⟩ := e.contend_eq p
    rw [List.foldl_cons, ih ⟨g, by rw [hc]; exact hg⟩]
    have hreg : (e.contend p).latched = e.latched := by rw [hc]
    have hone : (e.contend p).raced ≠ [] ↔
        e.raced ≠ [] ∨ p.generates = true ∧ e.latched.scanReads p.region = true := by
      unfold Engine.contend Engine.generates
      rw [hg]
      rcases hp : p.run with _ | (_ | _ | _ | _) <;> simp only [] <;> (try split) <;> simp_all
    rw [hone, hreg, or_assoc]
    simp only [List.mem_cons, exists_eq_or_imp]

/-! Instances -/

theorem State.Ok.mem {s : State} (h : s.Ok) : s.mem.wf :=
  h.formed.mem

theorem State.Ok.eng {s : State} (h : s.Ok) : s.eng.Ok :=
  h.engines _ (List.mem_cons_self ..)

theorem State.Ok.peer {s : State} (h : s.Ok) {p : Engine} (hp : p ∈ s.peers) : p.Ok :=
  h.engines _ (List.mem_cons_of_mem _ hp)

/-- A started instance, as the launch leaves it. -/
theorem accept_start (e : Engine) (r : Run) : e.accept.start r = e.started r := rfl

theorem Engine.Ok.started {e : Engine} (h : e.Ok) {r : Run}
    (hr : Engine.RunOk (e.started r)) : (e.started r).Ok :=
  ⟨h.legal, by simp [Engine.started], fun _ => ⟨rfl, rfl⟩, hr⟩

theorem started_gen_ok {e : Engine} (h : e.Ok) (ht : e.status.tplValid = true)
    (hf : (latch e.operands).genFits e.cfg.addrBits = true) {g : GenRun} (hg : GenRun.Ok e.cfg (latch e.operands) g) :
    (e.started (.gen g)).Ok :=
  h.started ⟨ht, hf, hg, by simp [Engine.started]⟩

theorem started_scan_ok {e : Engine} (h : e.Ok) (ht : e.status.tplValid = true) (hs : e.operands.scoop.toNat ≤ 4095)
    (hf : (latch e.operands).fits e.cfg.addrBits = true) {r : ScanRun} (hr : ScanRun.Ok e.cfg (latch e.operands) r) :
    (e.started (.scan r)).Ok :=
  h.started ⟨ht, hf, hs, hr⟩

/-! The launch checks -/

/-- Whatever fits passes GEN's check. -/
theorem Latched.genFits_of_fits {l : Latched} {n : Nat} (h : l.fits n = true) : l.genFits n = true := by
  rw [Latched.genFits, h, Bool.or_true]

theorem launch_idle {s : State} (h : s.eng.busy = false) (op : Option Instr)
    (begin : State → Host.Outcome State Fault Refusal) :
    launch op begin s =
      if launchCheck op (latch s.eng.operands) s.eng.status.tplValid s.eng.cfg.addrBits = .none then
        begin (s.withEng s.eng.accept)
      else .next (s.withEng (s.eng.failed
        (launchCheck op (latch s.eng.operands) s.eng.status.tplValid s.eng.cfg.addrBits))) := by
  unfold launch
  rw [h]
  simp only [Bool.false_eq_true, if_false, Engine.accept_latched, Engine.accept_status, Status.clearOutcome_tplValid,
    Engine.accept_cfg]
  split
  · rename_i hc
    rw [hc, if_pos rfl]
  · rename_i c hc
    rw [if_neg hc]
    exact grant_idle rfl

/-- A GEN or SCAN whose checks pass, its REGION ordinary memory, and that makes no race, starts. -/
theorem startOnRegion_starts {s : State} {r : Run} (hd : s.touchesDevice (latch s.eng.operands).region = false)
    (hc : ∀ p ∈ s.peers, (s.eng.started r).contend p = s.eng.started r ∧ p.contend (s.eng.started r) = p) :
    startOnRegion r (s.withEng s.eng.accept) = grant (s.withEng (s.eng.started r)) := by
  unfold startOnRegion
  have hd' : (s.withEng s.eng.accept).touchesDevice (s.withEng s.eng.accept).eng.region = false := hd
  rw [hd']
  simp only [Bool.false_eq_true, if_false]
  have : ((s.withEng s.eng.accept).withEng ((s.withEng s.eng.accept).eng.start r)) = s.withEng (s.eng.started r) := rfl
  rw [this, State.contend_same hc]

theorem grant_untilDone {s : State} (h : s.pace = .untilDone) (e : Engine) :
    grant (s.withEng e) = .next (finish (s.withEng e)) := by
  unfold grant grantedTurns finish
  rw [State.withEng_pace, h]

theorem grant_none {s : State} (h : s.pace = .turns 0) (e : Engine) : grant (s.withEng e) = .next (s.withEng e) := by
  unfold grant grantedTurns
  rw [State.withEng_pace, h]
  rfl

/-- A started GEN makes no race where no other instance's command overlaps its REGION. -/
theorem gen_contend {s : State} (h : s.GenStarts) (g : GenRun) (hg : (s.eng.started (.gen g)).Ok) :
    ∀ p ∈ s.peers, (s.eng.started (.gen g)).contend p = s.eng.started (.gen g) ∧
      p.contend (s.eng.started (.gen g)) = p := by
  intro p hp
  cases hu : p.usesRegion
  · refine ⟨Engine.contend_idle hu, ?_⟩
    unfold Engine.contend
    unfold Engine.usesRegion at hu
    split <;> simp_all
  · have ho : Range.overlaps (s.eng.started (.gen g)).region p.region = false := h.exclusive p hp hu
    exact ⟨Engine.contend_disjoint hg ho, Engine.contend_disjoint (h.ok.peer hp) (by rw [Range.overlaps_comm]; exact ho)⟩

/-- A started SCAN makes no race where no GEN of another instance overlaps its REGION. -/
theorem scan_contend {s : State} (h : s.ScanStarts) (r : ScanRun) (hg : (s.eng.started (.scan r)).Ok) :
    ∀ p ∈ s.peers, (s.eng.started (.scan r)).contend p = s.eng.started (.scan r) ∧
      p.contend (s.eng.started (.scan r)) = p := by
  intro p hp
  cases hu : p.generates
  · unfold Engine.generates at hu
    cases hr : p.run with
    | none => simp [Engine.contend, hr]
    | some x =>
      cases x with
      | init q => simp [Engine.contend, hr]
      | gen q => rw [hr] at hu; simp at hu
      | scan q => simp [Engine.contend, hr, Engine.started]
      | lost => simp [Engine.contend, hr]
  · have ho : Range.overlaps (s.eng.started (.scan r)).region p.region = false := h.exclusive p hp hu
    exact ⟨Engine.contend_disjoint hg ho, Engine.contend_disjoint (h.ok.peer hp) (by rw [Range.overlaps_comm]; exact ho)⟩

/-- INIT from an idle state. -/
theorem execInit_starts {s : State} (h : s.eng.busy = false) :
    execInit s = grant (s.withEng (s.eng.started (.init .hashInit))) := by
  unfold execInit
  rw [launch_idle h]
  exact if_pos rfl

/-- GEN from a state in which it starts. -/
theorem execGen_starts {s : State} (h : s.GenStarts) :
    execGen s = grant (s.withEng (s.eng.started (.gen (genBatch s.eng.cfg (latch s.eng.operands) 0)))) := by
  have hc : launchCheck (some .gen) (latch s.eng.operands) s.eng.status.tplValid s.eng.cfg.addrBits = .none := by
    simp [launchCheck, h.template, h.fits]
  unfold execGen
  rw [launch_idle h.idle, if_pos hc]
  exact startOnRegion_starts h.ordinary (gen_contend h _
    (started_gen_ok h.ok.eng h.template h.fits (genBatch_ok _ _ (Nat.zero_le _))))

/-- SCAN from a state in which it starts. -/
theorem execScan_starts {s : State} (h : s.ScanStarts) :
    execScan s = grant (s.withEng (s.eng.started (.scan (scanBatch 0 Best.initial)))) := by
  have hs : ¬ 4095 < (latch s.eng.operands).scoop.toNat := Nat.not_lt.mpr h.scoop
  have hc : launchCheck (some .scan) (latch s.eng.operands) s.eng.status.tplValid s.eng.cfg.addrBits = .none := by
    simp [launchCheck, h.template, h.fits, hs]
  unfold execScan
  rw [launch_idle h.idle, if_pos hc]
  exact startOnRegion_starts h.ordinary (scan_contend h _
    (started_scan_ok h.ok.eng h.template h.scoop h.fits ⟨Nat.zero_le _, .inl rfl, trivial⟩))

end Sys2Proof.Machine
end

