-- ==== Sys2Proof/Laws/Access.lean ====
section
/-! SUPPORT. Accesses from outside the engines: what each operation of an access leaves of the invariant. -/

namespace Sys2Proof.Machine

/-! Instances -/

theorem Engine.Ok.withRaced {e : Engine} (h : e.Ok) {rs : List Range}
    (hr : ∀ g, e.run = some (.gen g) → ∀ r ∈ rs, Range.inside r e.region) (hi : e.run = none → rs = []) :
    Engine.Ok { e with raced := rs } := by
  refine ⟨h.legal, h.errcode, h.busy, ?_⟩
  have hrun := h.run
  unfold Engine.RunOk at *
  cases hx : e.run with
  | none => simpa [hx] using hi hx
  | some x =>
    rw [hx] at hrun
    cases x with
    | init p => simp
    | gen g => simpa only [hx] using ⟨hrun.1, hrun.2.1, hrun.2.2.1, hr g hx⟩
    | scan r => simpa only [hx] using hrun
    | lost => exact hrun.elim

theorem Range.inside_self (r : Range) : Range.inside r r :=
  ⟨Nat.le_refl _, Nat.le_refl _⟩

theorem Engine.Ok.raceWrite {e : Engine} (h : e.Ok) (r : Range) : (e.raceWrite r).Ok := by
  unfold Engine.raceWrite
  split
  · rename_i g hg
    split
    · refine h.withRaced (fun g' _ q hq => ?_) (by simp [hg])
      rcases List.mem_cons.mp hq with rfl | hq
      · exact Range.inside_self _
      · exact (h.gen hg).2.2.2 q hq
    · exact h
  · rename_i g hg
    split
    · exact h.withRaced (by simp [hg]) (by simp [hg])
    · exact h
  all_goals exact h

theorem Engine.Ok.contend {e : Engine} (h : e.Ok) (o : Engine) : (e.contend o).Ok := by
  unfold Engine.contend
  split
  · rename_i g q hg ho
    split
    · rename_i hov
      refine h.withRaced (fun g' _ r hr => ?_) (by simp [hg])
      rcases List.mem_cons.mp hr with rfl | hr
      · exact buffersOver_inside hov
      · exact (h.gen hg).2.2.2 r hr
    · exact h
  · rename_i g q hg ho
    split
    · rename_i hov
      refine h.withRaced (fun g' _ r hr => ?_) (by simp [hg])
      rcases List.mem_cons.mp hr with rfl | hr
      · exact buffersOver_inside hov
      · exact (h.gen hg).2.2.2 r hr
    · exact h
  · rename_i g q hg ho
    split
    · exact h.withRaced (by simp [hg]) (by simp [hg])
    · exact h
  · exact h

theorem Engine.Ok.writeOffset {e : Engine} (h : e.Ok) (off : Nat) (v : Word) : (e.writeOffset off v).Ok := by
  unfold Engine.writeOffset
  split
  · rename_i r _
    have plain : ∀ o : Operands, Engine.Ok { e with operands := o } := fun o =>
      ⟨h.legal, h.errcode, h.busy, h.run⟩
    cases r
    case status =>
      refine ⟨h.legal, ?_, fun hb => ?_, h.run⟩
      · simp only [Engine.writeRegister, Status.writeOneToClear]
        have := h.errcode
        cases v.getLsbD 3 <;> simp_all
      · have := h.busy hb
        simp only [Engine.writeRegister, Status.writeOneToClear]
        rw [this.1, this.2]
        exact ⟨rfl, rfl⟩
    case irqEn => exact ⟨h.legal, h.errcode, h.busy, h.run⟩
    all_goals exact plain _
  · exact h

theorem Engine.Ok.failed {e : Engine} (h : e.Ok) {c : ErrCode} (hc : c ≠ .none) : (e.failed c).Ok :=
  ⟨h.legal, ErrCode.code_ok hc, fun hb => by simp [Engine.busy, Engine.failed] at hb, rfl⟩

theorem Engine.Ok.refuse {e : Engine} (h : e.Ok) : e.refuse.Ok :=
  ⟨h.legal, h.errcode, h.busy, h.run⟩

theorem Engine.reset_ok {c : EngineConfig} (h : c.Legal) : (Engine.reset c).Ok :=
  ⟨h, by simp [Engine.reset], fun hb => by simp [Engine.busy, Engine.reset] at hb, rfl⟩

/-! The form of a state -/

/-- The form of a state rests on memory, the parameters of the instances in any order, and the cached addresses. -/
theorem State.Formed.of {s t : State} (h : s.Formed) (hm : t.mem.wf)
    (hc : (t.engines.map Engine.cfg).Perm (s.engines.map Engine.cfg)) (hk : (t.hostCache.map CacheByte.addr).Nodup) :
    t.Formed := by
  refine ⟨hm, fun e he => ?_, ?_, hk⟩
  · obtain ⟨e', he', hx⟩ := List.mem_map.mp (hc.mem_iff.mp (List.mem_map_of_mem (f := Engine.cfg) he))
    rw [← hx]
    exact h.legal e' he'
  · have := (hc.map EngineConfig.mmioBase).nodup_iff
    rw [List.map_map, List.map_map] at this
    exact this.mpr h.windows

theorem State.Formed.withMem {s : State} (h : s.Formed) {m : Memory} (hm : m.wf) : (s.withMem m).Formed :=
  h.of hm (List.Perm.refl _) h.cache

theorem State.Formed.withEng {s : State} (h : s.Formed) {e : Engine} (hc : e.cfg = s.eng.cfg) : (s.withEng e).Formed :=
  h.of h.mem (by simp [State.engines, hc]) h.cache

theorem State.Formed.freeRange {s : State} (h : s.Formed) (r : Range) : (s.freeRange r).Formed :=
  h.of (Memory.wf_fillFree h.mem _ _ _ _) (List.Perm.refl _) h.cache

theorem State.Formed.mapEngines {s : State} (h : s.Formed) {e : Engine} {f : Engine → Engine} (hc : e.cfg = s.eng.cfg)
    (hf : ∀ p ∈ s.peers, (f p).cfg = p.cfg) : State.Formed { s with eng := e, peers := s.peers.map f } := by
  refine h.of h.mem ?_ h.cache
  have hm : s.peers.map (Engine.cfg ∘ f) = s.peers.map Engine.cfg := List.map_congr_left fun p hp => hf p hp
  simp only [State.engines, List.map_cons, List.map_map, hc, hm]
  exact List.Perm.refl _

theorem State.Formed.turn {s : State} (h : s.Formed) : (turn s).Formed := by
  have hf := turn_frame s
  refine h.of (turn_wf h.mem) ?_ (by rw [hf.hostCache]; exact h.cache)
  simp only [State.engines, List.map_cons, hf.peers, hf.cfg]
  exact List.Perm.refl _

theorem State.Formed.runTurns {s : State} (h : s.Formed) (n : Nat) : (runTurns n s).Formed := by
  induction n generalizing s with
  | zero => exact h
  | succ n ih =>
    cases hb : s.eng.busy
    · rw [runTurns_idle hb]
      exact h
    · rw [runTurns_busy hb]
      exact ih h.turn

theorem Engine.contend_cfg (e o : Engine) : (e.contend o).cfg = e.cfg := by
  obtain ⟨rs, h⟩ := e.contend_eq o
  rw [h]

theorem Engine.foldl_contend_cfg (ps : List Engine) (e : Engine) : (ps.foldl Engine.contend e).cfg = e.cfg := by
  obtain ⟨rs, h⟩ := Engine.foldl_contend_eq ps e
  rw [h]

theorem Engine.raceWrite_cfg (r : Range) (e : Engine) : (e.raceWrite r).cfg = e.cfg := by
  obtain ⟨rs, h⟩ := Engine.raceWrite_eq r e
  rw [h]

theorem State.Formed.contend {s : State} (h : s.Formed) : s.contend.Formed :=
  h.mapEngines (Engine.foldl_contend_cfg _ _) fun p _ => p.contend_cfg _

theorem State.Formed.raceWrite {s : State} (h : s.Formed) (r : Range) : (s.raceWrite r).Formed :=
  h.mapEngines (Engine.raceWrite_cfg r _) fun p _ => Engine.raceWrite_cfg r p

theorem State.Formed.abandon {s : State} (h : s.Formed) : s.abandon.Formed := by
  unfold State.abandon
  split
  · exact h.freeRange _
  all_goals exact h

theorem State.Formed.drawn {s : State} (h : s.Formed) (n : Nat) : (s.drawn n).Formed :=
  h.of h.mem (List.Perm.refl _) h.cache

theorem State.Formed.losePower {s : State} (h : s.Formed) : s.losePower.Formed :=
  (h.abandon.withEng (by rw [Engine.unretained_cfg, State.abandon_eng])).drawn _

theorem State.Formed.resetEngine {s : State} (h : s.Formed) : s.resetEngine.Formed :=
  h.abandon.withEng (congrArg Engine.cfg s.abandon_eng).symm

/-! States -/

theorem State.Ok.withEng {s : State} (h : s.Ok) {e : Engine} (he : e.Ok) (hc : e.cfg = s.eng.cfg) : (s.withEng e).Ok := by
  refine ⟨h.formed.withEng hc, fun x hx => ?_⟩
  rcases List.mem_cons.mp hx with rfl | hx
  · exact he
  · exact h.peer hx

theorem State.Ok.withMem {s : State} (h : s.Ok) {m : Memory} (hm : m.wf) : (s.withMem m).Ok :=
  ⟨h.formed.withMem hm, h.engines⟩

theorem State.Ok.freeRange {s : State} (h : s.Ok) (r : Range) : (s.freeRange r).Ok :=
  ⟨h.formed.freeRange r, h.engines⟩

theorem State.Ok.mapEngines {s : State} (h : s.Ok) {e : Engine} {f : Engine → Engine} (he : e.Ok)
    (hc : e.cfg = s.eng.cfg) (hf : ∀ p ∈ s.peers, (f p).Ok ∧ (f p).cfg = p.cfg) :
    State.Ok { s with eng := e, peers := s.peers.map f } := by
  refine ⟨h.formed.mapEngines hc fun p hp => (hf p hp).2, fun x hx => ?_⟩
  rcases List.mem_cons.mp hx with rfl | hx
  · exact he
  · obtain ⟨p, hp, rfl⟩ := List.mem_map.mp hx
    exact (hf p hp).1

theorem Engine.Ok.foldlContend {ps : List Engine} {e : Engine} (h : e.Ok) : (ps.foldl Engine.contend e).Ok := by
  induction ps generalizing e with
  | nil => exact h
  | cons p ps ih => exact ih (h.contend p)

theorem State.Ok.contend {s : State} (h : s.Ok) : s.contend.Ok :=
  State.Ok.mapEngines h h.eng.foldlContend (Engine.foldl_contend_cfg _ _) fun p hp =>
    ⟨(h.peer hp).contend _, p.contend_cfg _⟩

theorem State.Ok.raceWrite {s : State} (h : s.Ok) (r : Range) : (s.raceWrite r).Ok :=
  State.Ok.mapEngines h (h.eng.raceWrite r) (Engine.raceWrite_cfg r _) fun p hp =>
    ⟨(h.peer hp).raceWrite r, Engine.raceWrite_cfg r p⟩

theorem State.Ok.turn {s : State} (h : s.Ok) : (turn s).Ok := by
  refine ⟨h.formed.turn, fun x hx => ?_⟩
  rcases List.mem_cons.mp hx with rfl | hx
  · exact turn_ok h.eng
  · rw [(turn_frame s).peers] at hx
    exact h.peer hx

theorem State.Ok.runTurns {s : State} (h : s.Ok) (n : Nat) : (runTurns n s).Ok := by
  induction n generalizing s with
  | zero => exact h
  | succ n ih =>
    cases hb : s.eng.busy
    · rw [runTurns_idle hb]
      exact h
    · rw [runTurns_busy hb]
      exact ih h.turn

theorem State.Ok.resetEngine {s : State} (h : s.Ok) : s.resetEngine.Ok := by
  refine ⟨h.formed.resetEngine, fun x hx => ?_⟩
  rcases List.mem_cons.mp hx with rfl | hx
  · exact Engine.reset_ok h.eng.legal
  · rw [State.resetEngine_peers] at hx
    exact h.peer hx

/-! Addressing an instance -/

theorem swapIn_perm {p : Engine → Bool} {e : Engine} {qs : List Engine} {x : Engine × List Engine}
    (h : swapIn p e qs = some x) : (x.1 :: x.2).Perm (e :: qs) ∧ p x.1 = true := by
  induction qs generalizing x with
  | nil => simp [swapIn] at h
  | cons q qs ih =>
    unfold swapIn at h
    split at h
    · cases h
      exact ⟨List.Perm.swap _ _ _, by assumption⟩
    · cases hs : swapIn p e qs with
      | none => simp [hs] at h
      | some y =>
        rw [hs] at h
        simp only [Option.map_some, Option.some.injEq] at h
        obtain ⟨h1, h2⟩ := ih hs
        subst h
        exact ⟨(List.Perm.swap _ _ _).trans ((h1.cons q).trans (List.Perm.swap _ _ _)), h2⟩

/-- The addressed state has the same instances; its own meets the test; nothing else differs. -/
theorem State.focusOn_spec {p : Engine → Bool} {s t : State} (h : s.focusOn p = some t) :
    t.engines.Perm s.engines ∧ p t.eng = true ∧ t = { s with eng := t.eng, peers := t.peers } := by
  unfold State.focusOn at h
  split at h
  · cases h
    exact ⟨List.Perm.refl _, by assumption, rfl⟩
  · cases hs : swapIn p s.eng s.peers with
    | none => simp [hs] at h
    | some x =>
      rw [hs] at h
      simp only [Option.map_some, Option.some.injEq] at h
      subst h
      exact ⟨(swapIn_perm hs).1, (swapIn_perm hs).2, rfl⟩

theorem State.Formed.focusOn {p : Engine → Bool} {s t : State} (h : s.Formed) (hf : s.focusOn p = some t) : t.Formed := by
  obtain ⟨h1, -, h3⟩ := State.focusOn_spec hf
  refine h.of ?_ (h1.map Engine.cfg) ?_ <;> rw [h3]
  · exact h.mem
  · exact h.cache

theorem State.Ok.focusOn {p : Engine → Bool} {s t : State} (h : s.Ok) (hf : s.focusOn p = some t) : t.Ok :=
  ⟨h.formed.focusOn hf, fun e he => h.engines e ((State.focusOn_spec hf).1.mem_iff.mp he)⟩

theorem State.focus_none {s : State} {a : Nat} (h : ∀ e ∈ s.engines, e.windowHolds a = false) :
    s.focus a = none := by
  cases hf : s.focus a with
  | none => rfl
  | some u =>
    obtain ⟨h1, h2, -⟩ := State.focusOn_spec hf
    have := h u.eng (h1.mem_iff.mp (List.mem_cons_self ..))
    rw [this] at h2; cases h2

theorem swapIn_mem {p : Engine → Bool} {e : Engine} {qs : List Engine} {x : Engine × List Engine}
    (h : swapIn p e qs = some x) : x.1 ∈ qs := by
  induction qs generalizing x with
  | nil => simp [swapIn] at h
  | cons q qs ih =>
    unfold swapIn at h
    split at h
    · cases h; exact List.mem_cons_self ..
    · cases hs : swapIn p e qs with
      | none => simp [hs] at h
      | some y =>
        rw [hs] at h; simp only [Option.map_some, Option.some.injEq] at h
        have := ih hs
        subst h; exact List.mem_cons_of_mem _ this

theorem swapIn_some {p : Engine → Bool} (e : Engine) {qs : List Engine} (h : ∃ q ∈ qs, p q = true) :
    ∃ x, swapIn p e qs = some x := by
  induction qs with
  | nil => obtain ⟨q, hq, -⟩ := h; cases hq
  | cons q qs ih =>
    unfold swapIn
    split
    · exact ⟨_, rfl⟩
    · rename_i hn
      obtain ⟨q', hq, hp⟩ := h
      rcases List.mem_cons.mp hq with rfl | hq
      · exact absurd hp hn
      · obtain ⟨x, hx⟩ := ih ⟨q', hq, hp⟩; exact ⟨_, by rw [hx]; rfl⟩

/-! Abandoned commands -/

theorem State.abandon_gen {s : State} (hg : s.eng.generates = true) : s.abandon = s.freeRange s.eng.region := by
  unfold Engine.generates at hg; unfold State.abandon; split <;> simp_all

theorem State.abandon_other {s : State} (hg : s.eng.generates = false) : s.abandon = s := by
  unfold Engine.generates at hg; unfold State.abandon; split <;> simp_all

/-! The host's cache -/

theorem cacheLookup_put (c : CacheByte) (cache : List CacheByte) (x : Nat) :
    cacheLookup x (cachePut c cache) = if x = c.addr then some c else cacheLookup x cache := by
  unfold cacheLookup cachePut
  by_cases h : x = c.addr
  · simp [h]
  · rw [if_neg h, List.find?_cons_of_neg (by simpa using Ne.symm h), List.find?_filter]
    congr 1
    funext d
    by_cases hd : d.addr = x
    · simp [hd, h]
    · simp [hd]

theorem cacheLookup_addr {x : Nat} {cache : List CacheByte} {c : CacheByte} (h : cacheLookup x cache = some c) :
    c.addr = x := by
  have := List.find?_some h
  simpa using this

/-- Where each address is cached at most once, the lookup finds exactly the bytes in the cache. -/
theorem cacheLookup_iff {cache : List CacheByte} (h : (cache.map CacheByte.addr).Nodup) {x : Nat} {c : CacheByte} :
    cacheLookup x cache = some c ↔ c ∈ cache ∧ c.addr = x := by
  refine ⟨fun hc => ⟨List.mem_of_find?_eq_some hc, cacheLookup_addr hc⟩, fun ⟨hc, hx⟩ => ?_⟩
  cases hl : cacheLookup x cache with
  | none =>
    have := List.find?_eq_none.mp hl c hc
    simp [hx] at this
  | some d =>
    have hd := List.mem_of_find?_eq_some hl
    rw [List.inj_on_of_nodup_map h hd hc ((cacheLookup_addr hl).trans hx.symm)]

theorem cachePut_nodup {cache : List CacheByte} (h : (cache.map CacheByte.addr).Nodup) (c : CacheByte) :
    ((cachePut c cache).map CacheByte.addr).Nodup := by
  unfold cachePut
  rw [List.map_cons, List.nodup_cons]
  refine ⟨fun hc => ?_, (List.filter_sublist.map _).nodup h⟩
  obtain ⟨d, hd, hx⟩ := List.mem_map.mp hc
  simp [hx] at hd

/-! Host memory accesses -/

theorem State.Formed.storeByte {s : State} (h : s.Formed) (a : Nat) (b : Byte) : (storeByte s a b).Formed :=
  (h.raceWrite _).withMem (Memory.wf_write h.mem a b)

theorem State.Ok.storeByte {s : State} (h : s.Ok) (a : Nat) (b : Byte) : (storeByte s a b).Ok :=
  (h.raceWrite _).withMem (Memory.wf_write h.formed.mem a b)

/-- One byte of a host write: to memory, or to the cache, and a race either way. -/
theorem hostStore_cons (s : State) (a : Nat) (b : Byte) (bs : List Byte) :
    hostStore s a (b :: bs) = hostStore (if s.plat.dmaCoherent then storeByte s a b
      else { s.raceWrite { base := a, len := 1 } with
        hostCache := cachePut { addr := a, value := b, dirty := true } s.hostCache }) (a + 1) bs := rfl

theorem State.Formed.hostStore {s : State} (h : s.Formed) (a : Nat) (bs : List Byte) : (hostStore s a bs).Formed := by
  induction bs generalizing s a with
  | nil => exact h
  | cons b bs ih =>
    rw [hostStore_cons]
    apply ih
    split
    · exact h.storeByte a b
    · exact (h.raceWrite { base := a, len := 1 }).of h.mem (List.Perm.refl _) (cachePut_nodup h.cache _)

theorem State.Ok.hostStore {s : State} (h : s.Ok) (a : Nat) (bs : List Byte) : (hostStore s a bs).Ok := by
  induction bs generalizing s a with
  | nil => exact h
  | cons b bs ih =>
    rw [hostStore_cons]
    apply ih
    split
    · exact h.storeByte a b
    · have hr := h.raceWrite { base := a, len := 1 }
      exact ⟨hr.formed.of h.formed.mem (List.Perm.refl _) (cachePut_nodup h.formed.cache _), hr.engines⟩

theorem State.Formed.cleanBytes {s : State} (h : s.Formed) (r : Range) (cs : List CacheByte) :
    (cleanBytes r s cs).Formed := by
  induction cs generalizing s with
  | nil => exact h
  | cons c cs ih =>
    unfold Machine.cleanBytes
    apply ih
    split
    · exact h.storeByte c.addr c.value
    · exact h

theorem State.Ok.cleanBytes {s : State} (h : s.Ok) (r : Range) (cs : List CacheByte) : (cleanBytes r s cs).Ok := by
  induction cs generalizing s with
  | nil => exact h
  | cons c cs ih =>
    unfold Machine.cleanBytes
    apply ih
    split
    · exact h.storeByte c.addr c.value
    · exact h

theorem State.Formed.cacheClean {s : State} (h : s.Formed) (r : Range) : (cacheClean s r).Formed := by
  have hc := h.cleanBytes r s.hostCache
  refine hc.of hc.mem (List.Perm.refl _) ?_
  unfold Machine.cacheClean
  rw [List.map_map]
  have : (CacheByte.addr ∘ fun c : CacheByte => if Range.holds r c.addr = true then { c with dirty := false } else c) =
      CacheByte.addr := by
    funext c
    simp only [Function.comp]
    split <;> rfl
  rw [this]
  exact hc.cache

theorem State.Ok.cacheClean {s : State} (h : s.Ok) (r : Range) : (cacheClean s r).Ok :=
  ⟨h.formed.cacheClean r, (h.cleanBytes r s.hostCache).engines⟩

theorem State.Formed.cacheInvalidate {s : State} (h : s.Formed) (r : Range) : (cacheInvalidate s r).Formed :=
  h.of h.mem (List.Perm.refl _) ((List.filter_sublist.map _).nodup h.cache)

theorem State.Ok.cacheInvalidate {s : State} (h : s.Ok) (r : Range) : (cacheInvalidate s r).Ok :=
  ⟨h.formed.cacheInvalidate r, h.engines⟩

/-- What a read leaves in the cache: nothing new, or one clean byte. -/
theorem State.cacheFill_eq (s : State) (a : Nat) (b : Byte) :
    s.cacheFill a b = s ∨ s.cacheFill a b =
      { s with hostCache := cachePut { addr := a, value := b, dirty := false } s.hostCache } := by
  unfold State.cacheFill
  split
  · exact .inl rfl
  · exact .inr rfl

/-- A host read of a byte changes only the host's cache, by `cacheFill`, and the counter of free values. -/
theorem hostLoadByte_frame (s : State) (a : Nat) :
    ∃ c d, (hostLoadByte s a).2 = { s with hostCache := c, draws := d } ∧
      ((s.hostCache.map CacheByte.addr).Nodup → (c.map CacheByte.addr).Nodup) := by
  have hfill : ∀ b, ∃ c, s.cacheFill a b = { s with hostCache := c } ∧
      ((s.hostCache.map CacheByte.addr).Nodup → (c.map CacheByte.addr).Nodup) := by
    intro b
    rcases s.cacheFill_eq a b with h | h
    · exact ⟨s.hostCache, h, id⟩
    · exact ⟨_, h, fun hn => cachePut_nodup hn _⟩
  unfold hostLoadByte
  split
  · obtain ⟨c, hc, hn⟩ := hfill (Config.freeByte s.draws)
    exact ⟨c, _, by rw [hc]; rfl, hn⟩
  · split
    · exact ⟨s.hostCache, s.draws, rfl, id⟩
    · obtain ⟨c, hc, hn⟩ := hfill (s.mem.read a)
      exact ⟨c, s.draws, hc, hn⟩

/-- A host read changes only the host's cache and the counter of free values. -/
theorem hostLoad_frame (s : State) (a n : Nat) :
    ∃ c d, (hostLoad s a n).2 = { s with hostCache := c, draws := d } ∧
      ((s.hostCache.map CacheByte.addr).Nodup → (c.map CacheByte.addr).Nodup) := by
  induction n generalizing s a with
  | zero => exact ⟨_, _, rfl, id⟩
  | succ n ih =>
    obtain ⟨c, d, h1, n1⟩ := hostLoadByte_frame s a
    obtain ⟨c', d', h2, n2⟩ := ih (hostLoadByte s a).2 (a + 1)
    unfold hostLoad
    simp only
    rw [h2]
    rw [h1] at n2 ⊢
    exact ⟨c', d', rfl, n2 ∘ n1⟩

/-- A host write where the platform is coherent. -/
theorem hostStore_coherent {s : State} (hc : s.plat.dmaCoherent = true) (a : Nat) (bs : List Byte) :
    (hostStore s a bs).mem = s.mem.writeBytes a bs ∧ (hostStore s a bs).plat = s.plat := by
  induction bs generalizing s a with
  | nil => exact ⟨rfl, rfl⟩
  | cons b bs ih =>
    rw [hostStore_cons, if_pos hc]
    obtain ⟨h1, h2⟩ := ih (s := storeByte s a b) hc (a + 1)
    exact ⟨h1, h2⟩

/-- A host write changes of the instances only their races. -/
theorem hostStore_engines (s : State) (a : Nat) (bs : List Byte) :
    (hostStore s a bs).engines.map Engine.unraced = s.engines.map Engine.unraced := by
  have hr : ∀ (s : State) r, (s.raceWrite r).engines.map Engine.unraced = s.engines.map Engine.unraced := by
    intro s r
    have : ∀ e : Engine, (e.raceWrite r).unraced = e.unraced := by
      intro e; obtain ⟨rs, h⟩ := Engine.raceWrite_eq r e; rw [h]; rfl
    simp only [State.engines, State.raceWrite_eng, State.raceWrite_peers, List.map_cons, List.map_map, this]
    congr 1
    exact List.map_congr_left fun p _ => this p
  induction bs generalizing s a with
  | nil => rfl
  | cons b bs ih =>
    rw [hostStore_cons, ih]
    split <;> exact hr s _

/-- A host write where the platform is not coherent. -/
theorem hostStore_uncached {s : State} (hc : s.plat.dmaCoherent = false) (a : Nat) (bs : List Byte) :
    (hostStore s a bs).mem = s.mem ∧ (hostStore s a bs).plat = s.plat ∧
      (∀ i, (h : i < bs.length) → (hostStore s a bs).cached (a + i) =
        some { addr := a + i, value := bs[i], dirty := true }) ∧
      (∀ x, x < a ∨ a + bs.length ≤ x → (hostStore s a bs).cached x = s.cached x) := by
  induction bs generalizing s a with
  | nil => exact ⟨rfl, rfl, fun i h => absurd h (Nat.not_lt_zero i), fun _ _ => rfl⟩
  | cons b bs ih =>
    rw [hostStore_cons, if_neg (by rw [hc]; simp)]
    generalize hu : ({ s.raceWrite { base := a, len := 1 } with
        hostCache := cachePut { addr := a, value := b, dirty := true } s.hostCache } : State) = u
    have hcu : u.plat.dmaCoherent = false := by rw [← hu]; exact hc
    have hcache : ∀ x, u.cached x = if x = a then some { addr := a, value := b, dirty := true } else s.cached x := by
      intro x
      unfold State.cached
      rw [hcu, hc, ← hu]
      exact cacheLookup_put _ _ x
    obtain ⟨h1, h2, h3, h4⟩ := ih hcu (a + 1)
    refine ⟨h1.trans (by rw [← hu]; rfl), h2.trans (by rw [← hu]; rfl), fun i hi => ?_, fun x hx => ?_⟩
    · cases i with
      | zero =>
        rw [h4 _ (by omega), hcache, if_pos (by omega)]
        rfl
      | succ i =>
        have := h3 i (by simpa using hi)
        rw [show a + (i + 1) = a + 1 + i by omega, this]
        rfl
    · rw [List.length_cons] at hx
      rw [h4 x (by omega), hcache, if_neg (by omega)]

theorem State.genOwned_idle {s : State} (h : ∀ e ∈ s.engines, e.generates = false) (a : Nat) : s.genOwned a = false := by
  unfold State.genOwned
  rw [← Bool.not_eq_true, List.any_eq_true]
  rintro ⟨e, he, hx⟩
  have := h e he
  unfold Engine.generates at this
  split at hx <;> simp_all

/-- The byte memory holds at an address after some dirty bytes of a range are cleaned: the dirty byte for it, if one. -/
theorem cleanBytes_mem {s : State} (hm : s.mem.wf) (r : Range) (cs : List CacheByte)
    (hn : (cs.map CacheByte.addr).Nodup) (x : Nat) :
    (cleanBytes r s cs).mem.wf ∧ (cleanBytes r s cs).plat = s.plat ∧ (cleanBytes r s cs).hostCache = s.hostCache ∧
    (∀ c ∈ cs, c.addr = x → c.dirty = true → Range.holds r x = true →
      (cleanBytes r s cs).mem.read x = c.value) ∧
    ((∀ c ∈ cs, c.addr = x → c.dirty = false) ∨ Range.holds r x = false →
      (cleanBytes r s cs).mem.read x = s.mem.read x) := by
  induction cs generalizing s with
  | nil => exact ⟨hm, rfl, rfl, (fun c hc => absurd hc List.not_mem_nil), fun _ => rfl⟩
  | cons c cs ih =>
    rw [List.map_cons, List.nodup_cons] at hn
    unfold cleanBytes
    generalize hu : (if (c.dirty && Range.holds r c.addr) = true then storeByte s c.addr c.value else s) = u
    have hmu : u.mem = if (c.dirty && Range.holds r c.addr) = true then s.mem.write c.addr c.value else s.mem := by
      rw [← hu]; split <;> rfl
    have hpu : u.plat = s.plat := by rw [← hu]; split <;> rfl
    have hcu : u.hostCache = s.hostCache := by rw [← hu]; split <;> rfl
    have hwu : u.mem.wf := by
      rw [hmu]; split
      · exact Memory.wf_write hm _ _
      · exact hm
    have hread : u.mem.read x =
        if (c.dirty && Range.holds r c.addr) = true ∧ x = c.addr then c.value else s.mem.read x := by
      rw [hmu]
      by_cases h : (c.dirty && Range.holds r c.addr) = true
      · rw [if_pos h, Memory.read_write hm]; simp only [h, true_and]
      · rw [if_neg h, if_neg (fun hh => h hh.1)]
    obtain ⟨h1, h2, h3, h4, h5⟩ := ih hwu hn.2
    refine ⟨h1, h2.trans hpu, h3.trans hcu, fun d hd hx hdd hr => ?_, fun h => ?_⟩
    · rcases List.mem_cons.mp hd with rfl | hd
      · rw [h5 (.inl fun c' hc' hx' => absurd (hx.trans hx'.symm ▸ List.mem_map_of_mem hc') hn.1), hread,
          if_pos ⟨by rw [hdd, hx, hr]; rfl, hx.symm⟩]
      · exact h4 d hd hx hdd hr
    · rw [h5 (h.imp (fun h c' hc' => h c' (List.mem_cons_of_mem _ hc')) id), hread, if_neg]
      rintro ⟨ha, rfl⟩
      rw [Bool.and_eq_true] at ha
      rcases h with h | h
      · rw [h c (List.mem_cons_self ..) rfl] at ha; exact absurd ha.1 (by simp)
      · rw [h] at ha; exact absurd ha.2 (by simp)

theorem State.genOwned_iff (s : State) (a : Nat) :
    s.genOwned a = true ↔ ∃ e ∈ s.engines, e.generates = true ∧ Range.holds e.region a = true := by
  unfold State.genOwned
  rw [List.any_eq_true]
  constructor
  · rintro ⟨e, he, h⟩
    refine ⟨e, he, ?_⟩
    unfold Engine.generates
    split at h <;> simp_all
  · rintro ⟨e, he, h, h'⟩
    refine ⟨e, he, ?_⟩
    unfold Engine.generates at h
    split <;> simp_all

/-- The end of the memory address space is that of the widest instance. -/
theorem State.le_memoryEnd (s : State) (n : Nat) :
    n ≤ s.memoryEnd ↔ n = 0 ∨ ∃ e ∈ s.engines, n ≤ 2 ^ e.cfg.addrBits := by
  have key : ∀ (es : List Engine) (m : Nat),
      n ≤ es.foldl (fun m e => max m (2 ^ e.cfg.addrBits)) m ↔ n ≤ m ∨ ∃ e ∈ es, n ≤ 2 ^ e.cfg.addrBits := by
    intro es
    induction es with
    | nil => intro m; simp
    | cons e es ih =>
      intro m
      rw [List.foldl_cons, ih]
      simp only [List.mem_cons, exists_eq_or_imp, le_max_iff, or_assoc]
  have := key s.engines 0
  unfold State.memoryEnd
  rw [this]; simp

end Sys2Proof.Machine
end

