-- ==== Sys2Proof/Laws/PerInstr.lean ====
section
/-! SUPPORT. What holds of every command as syntax, one lemma per constructor. -/

namespace Sys2Proof.Laws.WordShape

/-- The word of a command is legal, has a reserved field of 0 and the command's OPCODE, and decodes to the command (R95,
R97, R99). -/
def Statement (i : Instr) : Prop :=
  i.wf = true ∧ wordWf (encode i) = true ∧ reservedField (encode i) = 0#56 ∧ opcodeField (encode i) = opcodeOf i ∧
    decodeTableWord 64 (encode i).toNat = some i

theorem init : Statement .init := by
  unfold Statement
  decide

theorem gen : Statement .gen := by
  unfold Statement
  decide

theorem scan : Statement .scan := by
  unfold Statement
  decide

end Sys2Proof.Laws.WordShape
end

