-- ==== Sys2Proof/Laws/Words.lean ====
section
/-! SUPPORT. Fields of a word built by concatenation: which part a bit or a field lies in. -/

namespace Sys2Proof.Machine

/-- A field that lies in the low part. -/
theorem extract_low {m n : Nat} (a : BitVec m) (b : BitVec n) {s k : Nat} (h : s + k ≤ n) :
    (a ++ b).extractLsb' s k = b.extractLsb' s k := by
  ext i hi
  rw [BitVec.getElem_extractLsb', BitVec.getElem_extractLsb', BitVec.getLsbD_append, if_pos (by omega)]

/-- A field that lies in the high part. -/
theorem extract_high {m n : Nat} (a : BitVec m) (b : BitVec n) {s k : Nat} (h : n ≤ s) :
    (a ++ b).extractLsb' s k = a.extractLsb' (s - n) k := by
  ext i hi
  rw [BitVec.getElem_extractLsb', BitVec.getElem_extractLsb', BitVec.getLsbD_append, if_neg (by omega),
    show s + i - n = s - n + i by omega]

/-- A whole part is its own field. -/
theorem extract_self {n : Nat} (a : BitVec n) : a.extractLsb' 0 n = a := by
  ext i hi
  rw [BitVec.getElem_extractLsb', Nat.zero_add, BitVec.getLsbD_eq_getElem hi]

/-- A bit that lies in the low part. -/
theorem bit_low {m n : Nat} (a : BitVec m) (b : BitVec n) {i : Nat} (h : i < n) : (a ++ b).getLsbD i = b.getLsbD i := by
  rw [BitVec.getLsbD_append, if_pos h]

/-- A bit that lies in the high part. -/
theorem bit_high {m n : Nat} (a : BitVec m) (b : BitVec n) {i : Nat} (h : n ≤ i) :
    (a ++ b).getLsbD i = a.getLsbD (i - n) := by
  rw [BitVec.getLsbD_append, if_neg (by omega)]

/-- A word is its low byte exactly when its high field is 0. -/
theorem word_eq_low {v : BitVec 64} : v = 0#56 ++ v.extractLsb' 0 8 ↔ v.extractLsb' 8 56 = 0#56 := by
  constructor
  · intro h
    rw [h, extract_high _ _ (by omega)]
    exact extract_self _
  · intro h
    apply BitVec.eq_of_getLsbD_eq
    intro i hi
    rcases Nat.lt_or_ge i 8 with h8 | h8
    · rw [bit_low _ _ h8, BitVec.getLsbD_extractLsb', Nat.zero_add]
      simp [h8]
    · have := congrArg (fun x => x.getLsbD (i - 8)) h
      simp only [BitVec.getLsbD_extractLsb', BitVec.getLsbD_zero, Bool.and_eq_false_iff, decide_eq_false_iff_not] at this
      rw [bit_high _ _ h8, BitVec.getLsbD_zero]
      rw [show 8 + (i - 8) = i by omega] at this
      rcases this with h9 | h9
      · omega
      · exact h9

end Sys2Proof.Machine
end

