-- ==== Sys2Proof/Tests/Slice0.lean ====
section
/-! SUPPORT. The model's own tests: expected values from the spec's test vectors (95_test_vectors.md) or computed by hand from
its rules, and a concrete state for the hypotheses of every statement. -/

namespace Sys2Proof.Tests

open Sys2Proof Sys2Proof.Machine

/-! Well-formedness: every check refuses an ill-formed term -/

theorem test_wf_word_reserved_field : wordWf 0x0000000000000102#64 = false := by decide
theorem test_wf_word_reserved_opcode : wordWf 0x04#64 = false ∧ wordWf 0x00#64 = false := by decide
theorem test_wf_commands : Instr.init.wf = true ∧ Instr.gen.wf = true ∧ Instr.scan.wf = true := by decide
theorem test_wf_register_width : registerAccessWf 0x10 4 = false ∧ registerAccessWf 0x10 8 = true := by decide
theorem test_wf_register_alignment : registerAccessWf 0x14 8 = false := by decide
theorem test_wf_window_cap :
    ¬ EngineConfig.Legal { EngineConfig.doc with windowCap := 96 } ∧
      ¬ EngineConfig.Legal { EngineConfig.doc with windowCap := 0 } ∧
      ¬ EngineConfig.Legal { EngineConfig.doc with windowCap := 262208 } := by decide
theorem test_wf_lanes :
    ¬ EngineConfig.Legal { EngineConfig.doc with lanes := 0 } ∧
      ¬ EngineConfig.Legal { EngineConfig.doc with lanes := 65536 } := by decide
theorem test_wf_addr_bits :
    ¬ EngineConfig.Legal { EngineConfig.doc with addrBits := 0 } ∧
      ¬ EngineConfig.Legal { EngineConfig.doc with addrBits := 65 } := by decide
theorem test_wf_mmio_base : ¬ EngineConfig.Legal { EngineConfig.doc with mmioBase := 0x80 } := by decide

/-- The two configurations of the spec (R7, R8), and the least and the greatest legal ones. -/
theorem test_wf_legal_configurations :
    EngineConfig.Legal .doc ∧ EngineConfig.Legal .net ∧
      EngineConfig.Legal { windowCap := 64, finalSeedTail := true, deadlineOrder := .be, lanes := 1, addrBits := 1,
                           mmioBase := 0 } ∧
      EngineConfig.Legal { EngineConfig.doc with windowCap := 262144, lanes := 65535 } := by decide

/-! Decoding: TV-L2-ENC-1, each word written out from OPCODE = v[7:0], RSVD = v[63:8] -/

theorem test_decode_init : decode (0#56 ++ 0b00000001#8) = .ok .init := by decide
theorem test_decode_gen : decode (0#56 ++ 0b00000010#8) = .ok .gen := by decide
theorem test_decode_scan : decode (0#56 ++ 0b00000011#8) = .ok .scan := by decide
theorem test_decode_illegal :
    decode 0x0000000000000000#64 = .error .reservedOpcode ∧ decode 0x0000000000000004#64 = .error .reservedOpcode ∧
      decode 0x00000000000000FF#64 = .error .reservedOpcode ∧ decode 0x0000000000000102#64 = .error .reservedField ∧
      decode 0x8000000000000001#64 = .error .reservedField := by decide
theorem test_encode_words :
    encode .init = 0x0000000000000001#64 ∧ encode .gen = 0x0000000000000002#64 ∧ encode .scan = 0x0000000000000003#64 := by
  decide
theorem test_table_words :
    decodeTableWord 64 1 = some .init ∧ decodeTableWord 64 2 = some .gen ∧ decodeTableWord 64 3 = some .scan ∧
      decodeTableWord 64 0 = none := by decide

/-! Registers -/

/-- TV-L2-REG-1: CAPS of three configurations. -/
theorem test_caps :
    capsWord .doc = 0x0002000040100008#64 ∧ capsWord .net = 0x0000100040120008#64 ∧
      capsWord { EngineConfig.doc with deadlineOrder := .be, lanes := 1, addrBits := 48 } = 0x0002000030110001#64 := by
  decide

/-- The engine of TV-L2-STAT-1, STATUS = 0x1030E. -/
def statusEngine : Engine :=
  { Engine.reset .doc with
    status := { tplValid := true, done := true, err := true, errcode := 0x03, reject := true } }

/-- TV-L2-STAT-1, row by row. -/
theorem test_status_write_one_to_clear :
    [0x4#64, 0x8, 0x10000, 0x1000C, 0x3, 0xFF00, 0xFFFFFFFFFFFFFFFF].map
        (fun w => (statusEngine.writeOffset 0x10 w).statusWord) =
      [0x1030A, 0x10006, 0x0030E, 0x00002, 0x1030E, 0x1030E, 0x00002] := by decide

/-- TV-L2-IRQ-1: IRQ_EN as written and read back, and the interrupt. -/
theorem test_interrupt :
    ([0x0#64, 0x1, 0xFFFFFFFFFFFFFFFF, 0xFFFFFFFFFFFFFFFE].map fun w =>
        ((statusEngine.writeOffset 0x18 w).irq, (statusEngine.writeOffset 0x18 w).readOffset 0x18)) =
      [(false, 0), (true, 1), (true, 1), (false, 0)] ∧
      ((Engine.reset .doc).writeOffset 0x18 0x1).irq = false := by decide

/-- TV-L2-REG-1: writes and reads of an operand register, a result register and reserved offsets. -/
theorem test_register_window :
    (statusEngine.writeOffset 0x38 0x123).readOffset 0x38 = 0x123#64 ∧
      (statusEngine.writeOffset 0x50 5).readOffset 0x50 = 0#64 ∧ statusEngine.readOffset 0x08 = 0#64 ∧
      (statusEngine.writeOffset 0x48 5).readOffset 0x48 = 0#64 ∧ statusEngine.readOffset 0xF8 = 0#64 := by decide

/-- TV-L2-PRIM-4: the generation signature from its four registers. -/
theorem test_gensig :
    (gensigBytes { (Engine.reset .doc).operands with
      gensig0 := 0x0706050403020100, gensig1 := 0x0F0E0D0C0B0A0908
      gensig2 := 0x1716151413121110, gensig3 := 0x1F1E1D1C1B1A1918 }).toList =
      (List.range 32).map (BitVec.ofNat 8) := by decide

/-! Byte strings -/

/-- TV-L2-PRIM-1. -/
theorem test_seed :
    (s16 0x0123456789ABCDEF 5).toList =
        [0x01, 0x23, 0x45, 0x67, 0x89, 0xAB, 0xCD, 0xEF, 0, 0, 0, 0, 0, 0, 0, 5] ∧
      (seed32 0 0).toList = List.replicate 16 0 ++ 0x80 :: List.replicate 15 0 := by decide

/-- TV-L2-PRIM-2: the padded lengths and the terminator's place. -/
theorem test_pad :
    ([0, 16, 48, 63, 64, 96].map fun n => (pad (List.replicate n 0xFF)).length) = [64, 64, 64, 64, 128, 128] ∧
      (pad (List.replicate 63 0xFF))[63]? = some 0x80#8 ∧ (pad (List.replicate 64 0xFF))[64]? = some 0x80#8 := by
  simp [pad, termByte]

/-- TV-L2-PRIM-3. -/
theorem test_deadline :
    let d : HashBlock := (#v[1, 2, 3, 4, 5, 6, 7, 8] : Vector Byte 8) ++ Vector.replicate 24 (0xAA : Byte)
    deadline .le d = 0x0807060504030201#64 ∧ deadline .be d = 0x0102030405060708#64 := by decide

/-! GEN -/

/-- TV-L2-GEN-1: nonce numbers wrap. -/
theorem test_nonce_wraps :
    let l : Latched := { Latched.reset with start := 0xFFFFFFFFFFFFFFFE, count := 3 }
    [l.nonceValue 0, l.nonceValue 1, l.nonceValue 2] = [0xFFFFFFFFFFFFFFFE, 0xFFFFFFFFFFFFFFFF, 0] := by decide

/-- TV-L2-GEN-3: K(k) and V(k) around the cap, CB = 4096, 128 and 2. -/
theorem test_block_schedule :
    ([1, 2, 3, 4, 5, 4095, 4096, 4097, 4098, 8192].map fun k => (roundBlocks 4096 k, roundShape 4096 k)) =
        [(0, .t1), (0, .t2), (1, .t1), (1, .t2), (2, .t1), (2047, .t1), (2047, .t2), (2048, .t3), (2048, .t3),
          (2048, .t3)] ∧
      ([127, 128, 129, 130].map fun k => (roundBlocks 128 k, roundShape 128 k)) =
        [(63, .t1), (63, .t2), (64, .t3), (64, .t3)] ∧
      ([1, 2, 3, 8192].map fun k => (roundBlocks 2 k, roundShape 2 k)) = [(0, .t1), (0, .t2), (1, .t3), (1, .t3)] := by
  decide

/-! SCAN -/

/-- TV-L2-SCAN-1: the two addresses of a scoop. -/
theorem test_scoop_addresses :
    ([0#64, 1, 7, 2047, 2048, 4095].map fun s =>
        let l : Latched := { Latched.reset with scoop := s }
        (l.scoopAddrA 0, l.scoopAddrB 0)) =
      [(0, 262112), (64, 262048), (448, 261664), (131008, 131104), (131072, 131040), (262080, 32)] := by decide

/-- TV-L2-SCAN-4, rows 1, 2, 3, 4, 8, 9 and 10. -/
theorem test_reduction :
    ([[50#64, 20, 90, 20], [50, 20, 90, 20, 70, 30, 30, 300, 20], [7, 7, 7], List.replicate 5 0xFFFFFFFFFFFFFFFF,
        [9, 9, 9, 9, 9, 9, 9, 9, 8], [1, 0, 0xFFFFFFFFFFFFFFFF, 0], []].map fun ds =>
          ((reduceFrom Best.initial 0 ds).value, (reduceFrom Best.initial 0 ds).index)) =
      [(20, 1), (20, 1), (7, 0), (0xFFFFFFFFFFFFFFFF, 0), (8, 8), (0, 1), (0xFFFFFFFFFFFFFFFF, 0)] := by decide

/-! Commands, one step each -/

/-- STATUS of the addressed instance after a step. -/
def statusAfter : Host.Outcome State Fault Refusal → Option Word
  | .next s => some s.eng.statusWord
  | .fault _ | .refused _ => none

/-- BEST_DEADLINE and BEST_OFFSET of the addressed instance after a step. -/
def bestAfter : Host.Outcome State Fault Refusal → Option (Word × Word)
  | .next s => some (s.eng.bestDeadline, s.eng.bestOffset)
  | .fault _ | .refused _ => none

/-- An idle instance with its template built. -/
def readyEngine (buf count scoop : Word) : Engine :=
  { Engine.reset .doc with
    status := { tplValid := true, done := false, err := false, errcode := 0x00, reject := false }
    operands := { (Engine.reset .doc).operands with bufAddr := buf, count := count, scoop := scoop } }

/-- A machine with that instance. -/
def ready (buf count scoop : Word) : State :=
  { State.reset with eng := readyEngine buf count scoop, pace := .untilDone }

/-- TV-L2-INIT-1. -/
theorem test_init_from_reset : statusAfter (step (State.reset.withFetchWord 64 1)) = some 0x6#64 := by decide

/-- TV-L2-INIT-4: INIT keeps REJECT. -/
theorem test_init_keeps_reject :
    statusAfter (exec .init { State.reset with eng := statusEngine, pace := .untilDone }) = some 0x10006#64 := by decide

/-- TV-L2-GEN-6 row m, and row f. -/
theorem test_gen_launch_errors :
    statusAfter (step (State.reset.withFetchWord 64 2)) = some 0x20C#64 ∧
      statusAfter (exec .gen (ready 0xFFFFFFFFFFFC0001 1 5000)) = some 0x40E#64 := by decide

/-- TV-L2-GEN-6 row c, and TV-L2-STAT-2: a running GEN shows BUSY. -/
theorem test_gen_runs :
    statusAfter (exec .gen (ready 0xFFFFFFFFFFFFFFFF 0 0)) = some 0x6#64 ∧
      statusAfter (exec .gen { ready 0xFFFFFFFFFFFC0000 1 5000 with pace := .turns 0 }) = some 0x3#64 := by decide

/-- R153, R182: beyond a narrow address space a GEN with COUNT = 0 passes ADDR_RANGE, and with COUNT = 1 it does not; a SCAN
with COUNT = 0 does not either, but does at its end. -/
theorem test_empty_region :
    let narrow (buf count : Word) : State :=
      { ready 0 0 0 with
        eng := { readyEngine buf count 4095 with cfg := { EngineConfig.doc with addrBits := 20 } } }
    statusAfter (exec .gen (narrow 0x100001 0)) = some 0x6#64 ∧
      statusAfter (exec .gen (narrow 0x100001 1)) = some 0x40E#64 ∧
      statusAfter (exec .scan (narrow 0x100001 0)) = some 0x40E#64 ∧
      statusAfter (exec .scan (narrow 0x100000 0)) = some 0x6#64 := by decide

/-- TV-L2-SCAN-3 rows c, e, f and g. -/
theorem test_scan_launch_errors :
    statusAfter (step (State.reset.withFetchWord 64 3)) = some 0x20C#64 ∧
      statusAfter (exec .scan (ready 0x10000000 1 4096)) = some 0x30E#64 ∧
      statusAfter (exec .scan (ready 0xFFFFFFFFFFFC0000 2 4096)) = some 0x30E#64 ∧
      statusAfter (exec .scan (ready 0xFFFFFFFFFFFC0000 2 0)) = some 0x40E#64 := by decide

/-- TV-L2-SCAN-3 row a, and row b's completion. -/
theorem test_scan_runs :
    bestAfter (exec .scan (ready 0x123 0 0)) = some (0xFFFFFFFFFFFFFFFF#64, 0#64) ∧
      statusAfter (exec .scan (ready 0x10000000 1 4095)) = some 0x6#64 := by decide

/-- TV-L2-ENC-1 and TV-L2-ERR-1: an illegal word ends with ILLEGAL_CMD before every other check. -/
theorem test_illegal_word :
    statusAfter (commandWrite 0x0102 State.reset) = some 0x10C#64 ∧
      statusAfter (commandWrite 0x0102 (ready 0xFFFFFFFFFFFC0001 1 5000)) = some 0x10E#64 := by decide

/-! States for the hypotheses of the statements -/

theorem readyEngine_ok (buf count scoop : Word) : (readyEngine buf count scoop).Ok :=
  ⟨show EngineConfig.Legal .doc by decide, by simp [readyEngine], fun h => by simp [Engine.busy, readyEngine, Engine.reset] at h, rfl⟩

/-- The ready machine over another memory map. -/
def readyOn (plat : Platform) (buf count scoop : Word) : State :=
  { ready buf count scoop with plat := plat }

theorem readyOn_ok (plat : Platform) (buf count scoop : Word) : (readyOn plat buf count scoop).Ok :=
  have h : ∀ e ∈ (readyOn plat buf count scoop).engines, e.Ok := by
    intro e he
    rw [List.mem_singleton.mp he]
    exact readyEngine_ok buf count scoop
  ⟨⟨Memory.wf_nil, fun e he => (h e he).legal, by simp [State.engines, readyOn, ready, State.reset],
    by simp [readyOn, ready, State.reset]⟩, h⟩

/-- The ready machine's REGION is ordinary memory where the map has no device. -/
theorem readyOn_ordinary {plat : Platform} (hp : plat.devices = []) {buf count scoop : Word}
    (hf : buf.toNat + count.toNat * nonceSize ≤ 2 ^ 64) :
    (readyOn plat buf count scoop).touchesDevice (latch (readyEngine buf count scoop).operands).region = false := by
  have hw : Range.overlaps (registerWindow EngineConfig.doc) (latch (readyEngine buf count scoop).operands).region =
      false := by
    rw [← Bool.not_eq_true, Range.overlaps_iff]
    simp only [registerWindow, EngineConfig.doc, Latched.region, latch, readyEngine, windowSize]
    omega
  simp only [State.touchesDevice, State.deviceRanges, readyOn, hp, List.nil_append, State.engines, ready, State.reset,
    List.map_cons, List.map_nil, List.any_cons, List.any_nil, Bool.or_false]
  exact hw

theorem readyOn_genStarts {plat : Platform} (hp : plat.devices = []) {buf count : Word} (scoop : Word)
    (hf : buf.toNat + count.toNat * nonceSize ≤ 2 ^ 64) : (readyOn plat buf count scoop).GenStarts where
  ok := readyOn_ok plat buf count scoop
  idle := rfl
  template := rfl
  fits := Latched.genFits_of_fits (decide_eq_true hf)
  ordinary := readyOn_ordinary hp hf
  exclusive := fun _ h => absurd h List.not_mem_nil

theorem readyOn_scanStarts {plat : Platform} (hp : plat.devices = []) {buf count scoop : Word}
    (hs : scoop.toNat ≤ 4095) (hf : buf.toNat + count.toNat * nonceSize ≤ 2 ^ 64) :
    (readyOn plat buf count scoop).ScanStarts where
  ok := readyOn_ok plat buf count scoop
  idle := rfl
  template := rfl
  scoop := hs
  fits := decide_eq_true hf
  ordinary := readyOn_ordinary hp hf
  exclusive := fun _ h => absurd h List.not_mem_nil

/-- Where every address answers, every access is admitted. -/
theorem readyOn_admits (buf count scoop : Word) :
    (readyOn .default buf count scoop).AdmitsGen (latch (readyEngine buf count scoop).operands) ∧
      (readyOn .default buf count scoop).AdmitsScan (latch (readyEngine buf count scoop).operands) :=
  ⟨fun _ _ _ _ => rfl, fun _ _ => ⟨rfl, rfl⟩⟩

/-- A launch from a state in which the command starts answers a next state. -/
theorem readyOn_answers {plat : Platform} (hp : plat.devices = []) {buf count scoop : Word}
    (hs : scoop.toNat ≤ 4095) (hf : buf.toNat + count.toNat * nonceSize ≤ 2 ^ 64) :
    (∃ t, exec .gen (readyOn plat buf count scoop) = .next t) ∧
      ∃ t, exec .scan (readyOn plat buf count scoop) = .next t :=
  ⟨⟨_, execGen_starts (readyOn_genStarts hp scoop hf)⟩, ⟨_, execScan_starts (readyOn_scanStarts hp hs hf)⟩⟩

/-- A GEN running on the ready instance. -/
def genEngine (buf count : Word) : Engine :=
  let e := readyEngine buf count 0
  e.started (.gen (genBatch e.cfg (latch e.operands) 0))

/-- A SCAN running on the ready instance. -/
def scanEngine (buf count scoop : Word) : Engine :=
  (readyEngine buf count scoop).started (.scan (scanBatch 0 Best.initial))

theorem genEngine_ok {buf count : Word} (hf : buf.toNat + count.toNat * nonceSize ≤ 2 ^ 64) : (genEngine buf count).Ok :=
  started_gen_ok (readyEngine_ok buf count 0) rfl (Latched.genFits_of_fits (decide_eq_true hf)) (genBatch_ok _ _ (Nat.zero_le _))

/-- A machine with an instance in place of the reset one. -/
def machine (e : Engine) : State :=
  { State.reset with eng := e }

/-- An instance with its register window at an address. -/
def at' (base : Nat) (e : Engine) : Engine :=
  { e with cfg := { e.cfg with mmioBase := base } }

/-! The command word -/

theorem test_witness_EncodeAndDecodeAgree : Instr.scan.wf = true ∧ decode 0x3#64 = .ok .scan := by decide

/-- Each disjunct alone, at the bounds of the reserved OPCODEs. -/
theorem test_witness_IllegalWordEndsAtOnce :
    State.reset.eng.busy = false ∧ (0x0102#64).extractLsb' 8 56 ≠ 0#56 ∧ (0x0#64).extractLsb' 0 8 = 0x00#8 ∧
      0x04#8 ≤ (0x04#64).extractLsb' 0 8 ∧ 0x04#8 ≤ (0xFF#64).extractLsb' 0 8 ∧
      ¬ (0x04#8 ≤ (0x03#64).extractLsb' 0 8) := by decide

/-! Registers -/

theorem test_witness_CapsReportsTheConfiguration : (readyEngine 0 0 0).cfg.Legal := by decide
theorem test_witness_WrittenRegisterReadsBack :
    (0x78 : Nat) ∈ [0x20, 0x28, 0x30, 0x38, 0x40, 0x60, 0x68, 0x70, 0x78] ∧ (0x20 : Nat) ≠ 0x78 := by decide

/-- The least and the greatest reserved offset, and 0x48. -/
theorem test_witness_OtherOffsetsIgnoreWrites :
    (8 * 9 = 0x48 ∧ (9 : Nat) < 32) ∧ (0x80 ≤ 8 * 16 ∧ (16 : Nat) < 32) ∧ (0x80 ≤ 8 * 31 ∧ (31 : Nat) < 32) := by decide
theorem test_witness_InterruptIsEnableAndDone : (0x4#64).getLsbD 2 = true := by decide

/-! Hash messages -/

/-- Round 1, both parities, and the two sides of the cap. -/
theorem test_witness_RoundCallIsTheHashOfItsMessage :
    (4096 % 2 = 0 ∧ 2 ≤ 4096) ∧ ([] : List HashBlock).length = 1 - 1 ∧ (List.replicate 1 zero32).length = 2 - 1 ∧
      (List.replicate 4095 zero32).length = 4096 - 1 ∧ (List.replicate 4096 zero32).length = 4097 - 1 ∧
      (List.replicate 8191 zero32).length = 8192 - 1 := by
  simp only [List.length_replicate, List.length_nil]
  decide
theorem test_witness_FinalCallIsTheHashOfTheChain : (List.replicate 8192 zero32).length = 8192 :=
  List.length_replicate
theorem test_witness_ChainBlockHashesTheBlocksAbove :
    (8191 < 8192 ∧ 8192 - 8191 ≤ 4096) ∧ (8192 - 4096 ≤ 4096) ∧ (4095 < 8192 ∧ ¬ 8192 - 4095 ≤ 4096) := by decide

/-- The first capped round of CB = 2, the chains differing beyond the window. -/
theorem test_witness_CappedRoundReadsOnlyItsWindow :
    2 < 4 ∧ ([zero32, zero32, zero32] : List HashBlock).take 2 = ([zero32, zero32, term32] : List HashBlock).take 2 ∧
      zero32 ≠ term32 := by decide

theorem test_witness_HashPadsToWholeBlocks :
    ([] : List Byte).length % 64 = 0 ∧ (([] : List Byte).length + 1 + 63) % 64 = 0 := by decide
theorem test_witness_StoredBlockIsMaskedChainBlock : 0 < 8192 ∧ 8191 < 8192 := by decide
theorem test_witness_CompressionsPerNonce :
    (1 ≤ 1 ∧ 1 ≤ 4096) ∧ (1 ≤ 4096 ∧ 4096 ≤ 4096) ∧ (1 ≤ 1 ∧ 1 ≤ 8192) ∧ 1 ≤ 8192 ∧ 8192 ≤ 8192 := by decide

/-! The command lifecycle -/

theorem test_witness_BusyEngineRejectsEveryCommandWrite :
    (machine (genEngine 0 1)).eng.busy = true ∧ (machine (scanEngine 0 1 4095)).eng.busy = true := ⟨rfl, rfl⟩

/-- Each launch check, at its bound. -/
theorem test_witness_LaunchChecksInOrder :
    (State.reset.eng.busy = false ∧ State.reset.eng.status.tplValid = false) ∧
      ((ready 0 0 4096).eng.busy = false ∧ (ready 0 0 4096).eng.status.tplValid = true ∧
        4095 < (ready 0 0 4096).eng.operands.scoop.toNat) ∧
      ((ready 0xFFFFFFFFFFFC0001 1 4095).eng.operands.scoop.toNat ≤ 4095 ∧
        (ready 0xFFFFFFFFFFFC0001 1 4095).eng.operands.count ≠ 0#64 ∧
        2 ^ 64 < (0xFFFFFFFFFFFC0001#64).toNat + (1#64).toNat * 262144) ∧
      2 ^ 20 < (0x100001#64).toNat + (0#64).toNat * 262144 := by decide

/-- GEN and SCAN with a REGION that ends at the end of the address space, and with the largest COUNT that fits. -/
theorem test_witness_PassedLaunchStartsTheCommand :
    ({ ready 0 0 0 with pace := .turns 0 }).pace = .turns 0 ∧ (ready 0 0 0).eng.busy = false ∧
      (readyOn .default 0xFFFFFFFFFFFC0000 1 0).GenStarts ∧ (readyOn .default 0 0x400000000000 0).GenStarts ∧
      (readyOn .default 0xFFFFFFFFFFFC0000 1 4095).ScanStarts :=
  ⟨rfl, rfl, readyOn_genStarts rfl _ (by decide), readyOn_genStarts rfl _ (by decide),
    readyOn_scanStarts rfl (by decide) (by decide)⟩

theorem test_witness_EveryCommandEnds :
    (genEngine 0 1).Ok ∧ (genEngine 0 1).busy = true ∧ turnsLeft (genEngine 0 1) ≤ 16386 :=
  ⟨genEngine_ok (by decide), rfl, by decide⟩

/-- Two SCANs at one position, over memories that differ. -/
theorem test_witness_SequenceDependsOnNoData :
    let s := machine (scanEngine 0 1 0)
    let s' := (machine (scanEngine 0 1 0)).withMem [(0, 1)]
    s.eng.cfg = s'.eng.cfg ∧ s.plat.absent = s'.plat.absent ∧ s.eng.latched.buf = s'.eng.latched.buf ∧
      s.eng.latched.count = s'.eng.latched.count ∧ s.eng.latched.scoop = s'.eng.latched.scoop ∧
      s.eng.position = s'.eng.position ∧ s ≠ s' := by decide
theorem test_witness_OperandWriteLeavesTheRunningCommand :
    (machine (scanEngine 0 1 0)).eng.busy = true ∧ (0x20 : Nat) ∈ [0x20, 0x28, 0x30, 0x38, 0x40, 0x60, 0x68, 0x70, 0x78] := by
  decide

/-! INIT, GEN and SCAN -/

theorem test_witness_InitBuildsTheTemplate :
    (machine statusEngine).eng.busy = false ∧ (ready 0 0 0).pace = .untilDone ∧
      ∃ n, ({ State.reset with pace := .turns 3 }).pace = .turns n ∧ 3 ≤ n := ⟨rfl, rfl, 3, rfl, by decide⟩

theorem test_witness_GenWritesEveryNonceBuffer :
    (readyOn .default 0xFFFFFFFFFFFC0000 1 0).GenStarts ∧
      (readyOn .default 0xFFFFFFFFFFFC0000 1 0).AdmitsGen
        (latch (readyOn .default 0xFFFFFFFFFFFC0000 1 0).eng.operands) ∧
      (readyOn .default 0xFFFFFFFFFFFC0000 1 0).pace = .untilDone :=
  ⟨readyOn_genStarts rfl _ (by decide), (readyOn_admits _ _ _).1, rfl⟩

theorem test_witness_GenLeavesPlotsInItsRegion :
    (readyOn .default 0 2 0).GenStarts ∧ (readyOn .default 0 2 0).AdmitsGen (latch (readyOn .default 0 2 0).eng.operands) ∧
      (readyOn .default 0 2 0).pace = .untilDone ∧ (∃ t, exec .gen (readyOn .default 0 2 0) = .next t) ∧
      1 < (readyOn .default 0 2 0).eng.operands.count.toNat ∧ 8191 < 8192 :=
  ⟨readyOn_genStarts rfl _ (by decide), (readyOn_admits _ _ _).1, rfl, (readyOn_answers rfl (by decide) (by decide)).1,
    by decide, by decide⟩

/-- Two GENs of one nonce at different addresses, the second at the end of the address space. -/
theorem test_witness_GenDependsOnAccountAndNonceOnly :
    let s := readyOn .default 0 1 0
    let s' := readyOn .default 0xFFFFFFFFFFFC0000 1 0
    (s.GenStarts ∧ s.AdmitsGen (latch s.eng.operands) ∧ s.pace = .untilDone ∧ ∃ t, exec .gen s = .next t) ∧
      (s'.GenStarts ∧ s'.AdmitsGen (latch s'.eng.operands) ∧ s'.pace = .untilDone ∧ ∃ t, exec .gen s' = .next t) ∧
      s.eng.cfg.windowCap = s'.eng.cfg.windowCap ∧ s.eng.cfg.finalSeedTail = s'.eng.cfg.finalSeedTail ∧
      s.eng.operands.accountId = s'.eng.operands.accountId ∧ 0 < s.eng.operands.count.toNat ∧
      0 < s'.eng.operands.count.toNat ∧ (latch s.eng.operands).nonceValue 0 = (latch s'.eng.operands).nonceValue 0 :=
  ⟨⟨readyOn_genStarts rfl _ (by decide), (readyOn_admits _ _ _).1, rfl, (readyOn_answers rfl (by decide) (by decide)).1⟩,
    ⟨readyOn_genStarts rfl _ (by decide), (readyOn_admits _ _ _).1, rfl, (readyOn_answers rfl (by decide) (by decide)).1⟩,
    rfl, rfl, rfl, by decide, by decide, rfl⟩

/-- A GEN that runs and a GEN that fails its checks, both idle before; a byte outside the REGION. -/
theorem test_witness_GenChangesNothingElse :
    (readyOn .default 0 1 0).Ok ∧ (readyOn .default 0 1 0).eng.busy = false ∧
      (∃ t, exec .gen (readyOn .default 0 1 0) = .next t) ∧ (∃ t, exec .gen State.reset = .next t) ∧
      Range.holds (latch (readyOn .default 0 1 0).eng.operands).region 262144 = false :=
  ⟨readyOn_ok _ _ _ _, rfl, (readyOn_answers rfl (by decide) (by decide)).1, ⟨_, rfl⟩, by decide⟩

theorem test_witness_ScanFindsTheBestDeadline :
    (readyOn .default 0xFFFFFFFFFFFC0000 1 4095).ScanStarts ∧
      (readyOn .default 0xFFFFFFFFFFFC0000 1 4095).AdmitsScan
        (latch (readyOn .default 0xFFFFFFFFFFFC0000 1 4095).eng.operands) ∧
      (readyOn .default 0xFFFFFFFFFFFC0000 1 4095).pace = .untilDone :=
  ⟨readyOn_scanStarts rfl (by decide) (by decide), (readyOn_admits _ _ _).2, rfl⟩

theorem test_witness_ScanResultIsTheLeastDeadline : 1 ≤ ({ Latched.reset with count := 1 }).count.toNat := by decide

/-- The last scoop of the last of two buffers. -/
theorem test_witness_ScanReadsTheMirroredBlocksOfGen :
    let s := readyOn .default 0 2 0
    let l : Latched := { Latched.reset with buf := 0, scoop := 4095 }
    s.GenStarts ∧ s.AdmitsGen (latch s.eng.operands) ∧ s.pace = .untilDone ∧ (∃ t, exec .gen s = .next t) ∧
      l.buf = s.eng.operands.bufAddr ∧ l.scoop.toNat ≤ 4095 ∧ 1 < s.eng.operands.count.toNat :=
  ⟨readyOn_genStarts rfl _ (by decide), (readyOn_admits _ _ _).1, rfl, (readyOn_answers rfl (by decide) (by decide)).1,
    rfl, by decide, by decide⟩

theorem test_witness_ResultsAreTheSameForEveryWidth :
    let s := readyOn .default 0 9 4095
    s.pace = .untilDone ∧ (1 ≤ 65535 ∧ 65535 ≤ 65535) ∧ (s.GenStarts ∧ s.AdmitsGen (latch s.eng.operands)) ∧
      s.ScanStarts ∧ s.AdmitsScan (latch s.eng.operands) :=
  ⟨rfl, by decide, ⟨readyOn_genStarts rfl _ (by decide), (readyOn_admits _ _ _).1⟩,
    readyOn_scanStarts rfl (by decide) (by decide), (readyOn_admits _ _ _).2⟩

/-- The greatest BUF_ADDR, with ADDR_BITS = 64 and with the narrowest address space. -/
theorem test_witness_EmptyCommandsComplete :
    let e := readyEngine 0xFFFFFFFFFFFFFFFF 0 4095
    let e' := { e with cfg := { EngineConfig.doc with addrBits := 1 } }
    (e.busy = false ∧ e.status.tplValid = true ∧ e.operands.count = 0#64 ∧ e.operands.scoop.toNat ≤ 4095 ∧
        e.operands.bufAddr.toNat ≤ 2 ^ e.cfg.addrBits) ∧
      (e'.busy = false ∧ e'.status.tplValid = true ∧ 2 ^ e'.cfg.addrBits < e'.operands.bufAddr.toNat) ∧
      (ready 0xFFFFFFFFFFFFFFFF 0 4095).pace = .untilDone := by decide

theorem test_witness_ScanChangesNothingElse :
    (readyOn .default 0 1 0).eng.busy = false ∧ (∃ t, exec .scan (readyOn .default 0 1 0) = .next t) ∧
      ∃ t, exec .scan (ready 0 0 4096) = .next t :=
  ⟨rfl, (readyOn_answers rfl (by decide) (by decide)).2, ⟨_, rfl⟩⟩
theorem test_witness_InitChangesNothingElse :
    State.reset.eng.busy = false ∧ ∃ t, exec .init State.reset = .next t := ⟨rfl, ⟨_, rfl⟩⟩

/-! Errors during a run -/

/-- The last byte of HashBlock 0 is refused: the first read of scoop 0, and the first write of nonce buffer 0. -/
def refusing : Platform :=
  { Platform.default with absent := [{ base := 31, len := 1 }] }

theorem test_witness_RefusedReadEndsTheScan :
    (readyOn refusing 0 1 0).ScanStarts ∧ (readyOn refusing 0 1 0).pace = .untilDone ∧
      ∃ n < (readyOn refusing 0 1 0).eng.operands.count.toNat,
        (readyOn refusing 0 1 0).admitsBlock ((latch (readyOn refusing 0 1 0).eng.operands).scoopAddrA n) = false ∨
          (readyOn refusing 0 1 0).admitsBlock ((latch (readyOn refusing 0 1 0).eng.operands).scoopAddrB n) = false :=
  ⟨readyOn_scanStarts rfl (by decide) (by decide), rfl, 0, by decide, .inl (by decide)⟩

theorem test_witness_RefusedWriteEndsTheGen :
    (readyOn refusing 0 1 0).GenStarts ∧ (readyOn refusing 0 1 0).pace = .untilDone ∧
      (∃ n < (readyOn refusing 0 1 0).eng.operands.count.toNat, ∃ j < 8192,
        (readyOn refusing 0 1 0).admitsBlock ((latch (readyOn refusing 0 1 0).eng.operands).blockAddr n j) = false) ∧
      ((readyOn refusing 0 1 0).answersAt 30 = true ∧ (readyOn refusing 0 1 0).answersAt 31 = false) ∧
      Range.holds (latch (readyOn refusing 0 1 0).eng.operands).region 262144 = false :=
  ⟨readyOn_genStarts rfl _ (by decide), rfl, ⟨0, by decide, 0, by decide, by decide⟩, by decide, by decide⟩

/-- A device at the last byte of the REGION, and the instance's own register window inside the REGION. -/
theorem test_witness_DeviceRegionIsRefused :
    let s := readyOn { Platform.default with devices := [{ base := 262143, len := 1 }] } 0 1 4095
    let s' := machine (at' 0x1000 (readyEngine 0 1 4095))
    (s.eng.busy = false ∧ s.eng.status.tplValid = true ∧ (latch s.eng.operands).fits s.eng.cfg.addrBits = true ∧
        s.touchesDevice (latch s.eng.operands).region = true ∧ s.eng.operands.scoop.toNat ≤ 4095) ∧
      s'.touchesDevice (latch s'.eng.operands).region = true := by decide

/-! The machine's step -/

/-- A machine with two instances, windows at 0x1000 and 0x2000, and one access to come. -/
def twoEngines (x : Access) (p : Pace) : State :=
  { machine (at' 0x1000 (readyEngine 0x100000 1 0)) with
    peers := [at' 0x2000 (readyEngine 0x200000 1 0)], inputs := [{ access := x, pace := p }] }

/-- A command for the second instance. -/
theorem test_witness_StepRunsTheDecodedCommand :
    let s := twoEngines (.regWrite 0x2008 8 1) .untilDone
    (∃ t, (s.take { access := .regWrite 0x2008 8 1, pace := .untilDone } []).focus 0x2008 = some t ∧
        0x2008 - t.eng.cfg.mmioBase = 0x08) ∧
      0x2008 % 8 = 0 ∧ decode 1#64 = .ok .init ∧ decode 4#64 = .error .reservedOpcode :=
  ⟨⟨_, rfl, rfl⟩, by decide⟩

/-- An operand write, a narrow access, an unaligned one, a wait, and an address in no window. -/
theorem test_witness_StepAccessesRegisters :
    let s := twoEngines (.regWrite 0x2038 8 7) (.turns 0)
    (∃ t, (s.take { access := .regWrite 0x2038 8 7, pace := .turns 0 } []).focus 0x2038 = some t ∧
        0x2038 - t.eng.cfg.mmioBase ≠ 0x08) ∧
      (0x2038 % 8 = 0 ∧ 4 ≠ 8 ∧ 0x203C % 8 ≠ 0) ∧
      (twoEngines (.elapse 0x2038) (.turns 0)).inputs = [{ access := .elapse 0x2038, pace := .turns 0 }] ∧
      (∀ e ∈ s.engines, e.windowHolds 0x1100 = false) ∧ ∀ e ∈ s.engines, e.windowHolds 0x0FFF = false :=
  ⟨⟨_, rfl, by decide⟩, by decide⟩

/-- A narrow register access is refused by name, and an access outside every window. -/
theorem test_register_access_refusals :
    step (twoEngines (.regRead 0x1000 4) (.turns 0)) = .refused .registerAccessForm ∧
      step (twoEngines (.regRead 0x1100 8) (.turns 0)) = .refused .noSuchWindow := ⟨rfl, rfl⟩

/-- The addressed instance runs; a peer alone runs; nothing runs; a lost command does not advance. -/
theorem test_witness_StepWithoutAccess :
    let s := { machine (at' 0x1000 (readyEngine 0 0 0)) with peers := [at' 0x2000 (scanEngine 0 1 0)] }
    ((machine (scanEngine 0 1 0)).inputs = [] ∧ (machine (scanEngine 0 1 0)).eng.advances = true) ∧
      (s.inputs = [] ∧ s.eng.advances = false ∧ ∃ e ∈ s.peers, e.advances = true) ∧
      (State.reset.inputs = [] ∧ ∀ e ∈ State.reset.engines, e.advances = false) ∧
      { Engine.reset .doc with run := some .lost }.busy = true := by decide

/-! Memory and races -/

/-- A write and a read of the last byte of a 48-bit memory, of a byte beyond it, of an absent byte and of a device's. -/
theorem test_witness_HostWriteReachesMemory :
    let s : State :=
      { State.reset with
        eng := { Engine.reset .doc with cfg := { EngineConfig.doc with addrBits := 48 } }
        plat := { Platform.default with absent := [{ base := 7, len := 1 }], devices := [{ base := 9, len := 1 }] }
        inputs := [{ access := .memRead 0xFFFFFFFFFFFF 1, pace := .turns 0 }] }
    (s.mem.wf ∧ s.plat.dmaCoherent = true ∧ ∀ e ∈ s.engines, e.busy = false) ∧
      (s.touchesDevice { base := 0xFFFFFFFFFFFF, len := 1 } = false ∧
        (∃ e ∈ s.engines, 0xFFFFFFFFFFFF + 1 ≤ 2 ^ e.cfg.addrBits) ∧
        ∀ d ∈ s.plat.absent, Range.overlaps d { base := 0xFFFFFFFFFFFF, len := 1 } = false) ∧
      (∀ e ∈ s.engines, 2 ^ e.cfg.addrBits < 0x1000000000000 + 1) ∧
      (∃ d ∈ s.plat.absent, Range.overlaps d { base := 6, len := 2 } = true) ∧
      s.touchesDevice { base := 8, len := 2 } = true ∧ s.touchesDevice { base := 6, len := 2 } = false := by decide
/-- A machine that is not coherent, with a stale clean byte at 5 and a dirty one at 6. -/
def cachedMachine : State :=
  { State.reset with
    plat := { Platform.default with dmaCoherent := false }
    mem := [(5, 9), (6, 9)]
    hostCache := [{ addr := 5, value := 7, dirty := false }, { addr := 6, value := 8, dirty := true }] }

/-- A stale read, a clean of one byte of the cache and an invalidate (R89). -/
theorem test_host_cache :
    (hostLoadByte cachedMachine 5).1 = 7 ∧ (hostLoadByte (cacheInvalidate cachedMachine { base := 5, len := 1 }) 5).1 = 9 ∧
      (cacheClean cachedMachine { base := 0, len := 6 }).mem = [(5, 9), (6, 9)] ∧
      (cacheClean cachedMachine { base := 6, len := 1 }).mem = [(5, 9), (6, 8)] := by decide

theorem test_witness_UncleanedWriteStaysInTheCache :
    let s := cachedMachine
    s.Formed ∧ s.plat.dmaCoherent = false ∧ (∀ x, s.genOwned x = false) ∧
      s.cached 5 = some { addr := 5, value := 7, dirty := false } ∧
      s.cached 6 = some { addr := 6, value := 8, dirty := true } ∧ s.cached 4 = none ∧
      Range.holds { base := 6, len := 1 } 6 = true ∧ Range.holds { base := 6, len := 1 } 5 = false ∧
      Range.inside { base := 4, len := ([1, 2] : List Byte).length } { base := 4, len := 2 } :=
  ⟨⟨by decide, by decide, by decide, by decide⟩, rfl, fun _ => rfl, by decide, by decide, by decide, by decide, by decide,
    by unfold Range.inside; decide⟩

/-- The last byte of a running GEN's REGION, and the first one after it; where the platform is not coherent, a byte cached and
one not. -/
theorem test_witness_HostReadInsideARunningGenIsFree :
    let s := machine (genEngine 0 1)
    let s' := { cachedMachine with eng := genEngine 0 1 }
    (∃ e ∈ s.engines, e.generates = true ∧ Range.holds e.region 262143 = true) ∧
      (∀ e ∈ s.engines, e.generates = true → Range.holds e.region 262144 = false) ∧ s.plat.dmaCoherent = true ∧
      s'.plat.dmaCoherent = false ∧ (∃ e ∈ s'.engines, e.generates = true ∧ Range.holds e.region 5 = true) ∧
      s'.cached 5 = some { addr := 5, value := 7, dirty := false } ∧ s'.cached 4 = none ∧
      cachedMachine.genOwned 4 = false := by
  decide
theorem machine_ok {e : Engine} (h : e.Ok) : (machine e).Ok := by
  have he : ∀ x ∈ (machine e).engines, x.Ok := by
    intro x hx
    rw [List.mem_singleton.mp hx]
    exact h
  exact ⟨⟨Memory.wf_nil, fun x hx => (he x hx).legal, by simp [State.engines, machine, State.reset],
    by simp [machine, State.reset]⟩, he⟩

theorem scanEngine_ok {buf count scoop : Word} (hs : scoop.toNat ≤ 4095)
    (hf : buf.toNat + count.toNat * nonceSize ≤ 2 ^ 64) : (scanEngine buf count scoop).Ok :=
  started_scan_ok (readyEngine_ok buf count scoop) rfl hs (decide_eq_true hf) ⟨Nat.zero_le _, .inl rfl, trivial⟩

/-- The first and the last byte of the REGION. -/
theorem test_witness_HostWriteIntoARunningGenFreesItsRegion :
    let s := machine (genEngine 0 1)
    s.Ok ∧ s.eng.generates = true ∧ s.eng.raced = [] ∧ Range.holds s.eng.region 0 = true ∧
      Range.holds s.eng.region 262143 = true ∧ s.answersAt 262143 = true :=
  ⟨machine_ok (genEngine_ok (by decide)), by decide⟩

/-- The bounds of the two blocks a SCAN of scoop 7 reads: [448, 480) and [261664, 261696). -/
theorem test_witness_HostWriteIntoARunningScanFreesItsResult :
    let e := scanEngine 0 1 7
    (machine e).Ok ∧ (machine e).AdmitsScan e.latched ∧ e.run = some (.scan (scanBatch 0 Best.initial)) ∧
      e.latched.scanReads { base := 448, len := 1 } = true ∧ e.latched.scanReads { base := 479, len := 1 } = true ∧
      e.latched.scanReads { base := 261664, len := 1 } = true ∧ e.latched.scanReads { base := 261695, len := 1 } = true ∧
      e.latched.scanReads { base := 447, len := 1 } = false ∧ e.latched.scanReads { base := 480, len := 1 } = false :=
  ⟨machine_ok (scanEngine_ok (by decide) (by decide)), fun _ _ => ⟨rfl, rfl⟩, rfl, by decide⟩

/-- REGIONs that share one byte and REGIONs that touch; a SCAN beside a GEN. -/
theorem test_witness_OverlappingCommandsRace :
    ((genEngine 0 1).raced = [] ∧ (genEngine 0 1).generates = true ∧ (genEngine 262143 1).usesRegion = true ∧
        Range.overlaps (genEngine 0 1).region (genEngine 262143 1).region = true ∧
        Range.holds (genEngine 0 1).region 262143 = true ∧ Range.holds (genEngine 262143 1).region 262143 = true ∧
        Range.overlaps (genEngine 0 1).region (genEngine 262144 1).region = false) ∧
      (scanEngine 0 1 0).run = some (.scan (scanBatch 0 Best.initial)) ∧ (scanEngine 0 1 0).usesRegion = true ∧
      (scanEngine 0 1 0).generates = false ∧ (scanEngine 0 1 4095).latched.scanReads (genEngine 262111 1).region = true ∧
      (scanEngine 0 1 4095).latched.scanReads (genEngine 262112 1).region = false := by decide

/-- A GEN of three nonce buffers loses those that share a byte with the REGION beside it, be it a GEN's or a SCAN's: the first
two, the second by its first byte; the middle one alone; the last two, the second by its last byte; none where the REGIONs
only touch. -/
theorem test_raced_nonce_buffers :
    ((genEngine 262144 3).contend (genEngine 1 2)).raced = [{ base := 262144, len := 524288 }] ∧
      ((genEngine 262144 3).contend (scanEngine 524288 1 0)).raced = [{ base := 524288, len := 262144 }] ∧
      ((genEngine 262144 3).contend (genEngine 786431 9)).raced = [{ base := 524288, len := 524288 }] ∧
      ((genEngine 262144 3).contend (scanEngine 0 1 0)).raced = [] ∧
      ((genEngine 262144 3).contend (genEngine 1048576 1)).raced = [] := by decide

/-- A launch beside a running GEN, over its REGION: GEN and SCAN both race. -/
theorem test_launch_beside_a_gen :
    let s := { machine (at' 0x1000000 (readyEngine 0 1 4095)) with peers := [at' 0x1000100 (genEngine 262111 1)] }
    (s.eng.busy = false ∧ s.eng.status.tplValid = true ∧ s.pace = .turns 0 ∧
        (latch s.eng.operands).fits s.eng.cfg.addrBits = true ∧ (latch s.eng.operands).genFits s.eng.cfg.addrBits = true ∧
        s.touchesDevice (latch s.eng.operands).region = false ∧ s.eng.operands.scoop.toNat ≤ 4095) ∧
      (∀ t, exec .gen s = .next t → t.eng.raced = [{ base := 0, len := 262144 }] ∧
        t.peers.map Engine.raced = [[{ base := 262111, len := 262144 }]]) ∧
      ∀ t, exec .scan s = .next t → t.eng.raced = [{ base := 262111, len := 262144 }] ∧
        t.peers.map Engine.raced = [[{ base := 262111, len := 262144 }]] := by
  refine ⟨by decide, fun t h => ?_, fun t h => ?_⟩ <;> cases h <;> decide

/-- A GEN and a SCAN that have been raced and meet the invariant. -/
theorem test_witness_raced_commands :
    let g := (genEngine 0 1).raceWrite { base := 5, len := 1 }
    let r := (scanEngine 0 1 0).raceWrite { base := 5, len := 1 }
    ((machine g).Ok ∧ g.raced = [{ base := 0, len := 262144 }] ∧ g.generates = true) ∧
      (machine r).Ok ∧ r.raced ≠ [] ∧ r.run = some (.scan (scanBatch 0 Best.initial)) ∧
      (machine r).AdmitsScan r.latched :=
  ⟨⟨machine_ok ((genEngine_ok (by decide)).raceWrite _), by decide, by decide⟩,
    machine_ok ((scanEngine_ok (by decide) (by decide)).raceWrite _), by decide, by decide, fun _ _ => ⟨rfl, rfl⟩⟩

/-- A GEN at its start that lost two of its three nonce buffers to a GEN beside it; its writes are admitted. -/
theorem test_witness_raced_gen_keeps_a_buffer :
    let g := (genEngine 262144 3).contend (genEngine 1 2)
    (machine g).Ok ∧ g.run = some (.gen (genBatch g.cfg g.latched 0)) ∧ (machine g).AdmitsGen g.latched ∧
      ∀ r ∈ g.raced, Range.holds r 786431 = true ∧ Range.holds r 786432 = false :=
  ⟨machine_ok ((genEngine_ok (by decide)).contend _), by decide, fun _ _ _ _ => rfl, by decide⟩

/-- A command for the first instance leaves the second. -/
theorem test_witness_OtherInstancesKeepTheirState :
    let s := twoEngines (.regWrite 0x1008 8 1) .untilDone
    s.inputs = [{ access := .regWrite 0x1008 8 1, pace := .untilDone }] ∧ (∃ t, step s = .next t) ∧
      at' 0x2000 (readyEngine 0x200000 1 0) ∈ s.engines ∧
      (at' 0x2000 (readyEngine 0x200000 1 0)).windowHolds 0x1008 = false :=
  ⟨rfl, ⟨_, rfl⟩, by decide, by decide⟩

/-! Reset and loss of power -/

/-- Reset while idle and while a GEN runs, and the reset access that names the instance. -/
theorem test_witness_ResetEventClearsTheInstance :
    (State.reset.mem.wf ∧ State.reset.eng.generates = false) ∧
      ((machine (genEngine 0 1)).mem.wf ∧ (machine (genEngine 0 1)).eng.generates = true ∧
        (machine (genEngine 0 1)).answersAt 262143 = true ∧
        Range.holds (machine (genEngine 0 1)).eng.region 262144 = false) ∧
      ∃ s, ((twoEngines (.reset 0x1000) (.turns 0)).take { access := .reset 0x1000, pace := .turns 0 } []).focus 0x1000 =
        some s := by
  refine ⟨by decide, by decide, ⟨_, rfl⟩⟩

/-- A loss of power of an idle instance frees its registers and not its peer's; CAPS stays; a reset then clears it (U28). -/
theorem test_power_loss :
    (∃ t, step (twoEngines (.powerLoss 0x1000) (.turns 0)) = .next t ∧ t.eng.readOffset 0x00 = 0x0002000040100008#64 ∧
        t.eng.readOffset 0x38 = Config.freeWord 5 ∧ t.peers = [at' 0x2000 (readyEngine 0x200000 1 0)]) ∧
      (machine statusEngine).losePower.resetEngine.eng = Engine.reset .doc :=
  ⟨⟨_, rfl, by decide, rfl, rfl⟩, by rw [State.resetEngine_eng, State.losePower_eng]; rfl⟩

/-- A loss of power while idle and while a GEN runs, and the access that names the instance. -/
theorem test_witness_PowerLossFreesEveryRegister :
    ((machine (readyEngine 0 1 0)).mem.wf ∧ (machine (readyEngine 0 1 0)).eng.generates = false) ∧
      ((machine (genEngine 0 1)).mem.wf ∧ (machine (genEngine 0 1)).eng.generates = true ∧
        (machine (genEngine 0 1)).answersAt 262143 = true ∧
        Range.holds (machine (genEngine 0 1)).eng.region 262144 = false) ∧
      ∃ s, ((twoEngines (.powerLoss 0x1000) (.turns 0)).take { access := .powerLoss 0x1000, pace := .turns 0 } []).focus
        0x1000 = some s := by
  refine ⟨by decide, by decide, ⟨_, rfl⟩⟩

/-! The whole machine -/

/-- A state that has the invariant, at a step that runs INIT, and one that keeps only its form, at a loss of power. -/
theorem test_witness_StepKeepsTheInvariant :
    (((readyOn .default 0 1 0).withFetchWord 64 1).Ok ∧
        (∀ x rest a, ((readyOn .default 0 1 0).withFetchWord 64 1).inputs = x :: rest → x.access ≠ .powerLoss a) ∧
        ∃ t, step ((readyOn .default 0 1 0).withFetchWord 64 1) = .next t) ∧
      (twoEngines (.powerLoss 0x2000) (.turns 0)).Formed ∧
      ∃ t, step (twoEngines (.powerLoss 0x2000) (.turns 0)) = .next t :=
  have h := readyOn_ok .default 0 1 0
  ⟨⟨⟨⟨h.formed.mem, h.formed.legal, h.formed.windows, h.formed.cache⟩, h.engines⟩,
    (fun x rest a hx h => by cases hx; cases h), ⟨_, rfl⟩⟩,
    ⟨by decide, by decide, by decide, by decide⟩, ⟨_, rfl⟩⟩
theorem test_witness_ConfigurationNeverChanges : ∃ t, step (twoEngines (.reset 0x2000) (.turns 0)) = .next t := ⟨_, rfl⟩

/-- A reset of the first instance leaves the second its template, and so does a loss of its power. -/
theorem test_witness_OnlyResetClearsTheTemplate :
    let s := twoEngines (.reset 0x1000) (.turns 0)
    let s' := twoEngines (.powerLoss 0x1000) (.turns 0)
    let e := at' 0x2000 (readyEngine 0x200000 1 0)
    (∃ t, step s = .next t) ∧ (∃ t, step s' = .next t) ∧ e ∈ s.engines ∧ e ∈ s'.engines ∧ e.status.tplValid = true ∧
      e.windowHolds 0x1000 = false ∧
      ∀ x rest a, s.inputs = x :: rest → x.access = .reset a ∨ x.access = .powerLoss a → e.windowHolds a = false := by
  refine ⟨⟨_, rfl⟩, ⟨_, rfl⟩, by decide, by decide, rfl, by decide, fun x rest a h hx => ?_⟩
  cases h
  rcases hx with hx | hx <;> cases hx
  decide

theorem test_witness_OnlyInitBuildsTheTemplate :
    let s := machine { Engine.reset .doc with run := some (.init .finish) }
    s.eng.status.tplValid = false ∧ (turn s).eng.status.tplValid = true := by decide

end Sys2Proof.Tests
end

section
/-! Byte strings of the scope family: the positional value of the integer decoders (R17), the deadline (R21) and the
bytes of the constant blocks (R18). Big-endian facts come from the little-endian ones by reversing the bytes. -/

namespace Sys2Proof.Machine

/-! The integer encoders and decoders -/

@[simp] theorem be64_getElem (v : Word) (i : Nat) (hi : i < 8) : (be64 v)[i] = v.extractLsb' (56 - 8 * i) 8 :=
  Vector.getElem_ofFn hi

@[simp] theorem le64_getElem (v : Word) (i : Nat) (hi : i < 8) : (le64 v)[i] = v.extractLsb' (8 * i) 8 :=
  Vector.getElem_ofFn hi

theorem le64_getElem_toNat (v : Word) (i : Nat) (hi : i < 8) :
    (le64 v)[i].toNat = v.toNat / 2 ^ (8 * i) % 2 ^ 8 := by
  rw [le64_getElem, BitVec.extractLsb'_toNat, Nat.shiftRight_eq_div_pow]

theorem append_byte_toNat {m : Nat} (a : BitVec m) (b : Byte) : (a ++ b).toNat = 2 ^ 8 * a.toNat + b.toNat := by
  rw [BitVec.toNat_append, ← Nat.shiftLeft_add_eq_or_of_lt b.isLt, Nat.shiftLeft_eq, Nat.mul_comm]

/-- Byte `i` weighs `2 ^ (8 * i)`: the fact the inverses and the deadline's sums rest on. -/
theorem le64dec_toNat (b : Vector Byte 8) :
    (le64dec b).toNat = b[0].toNat + 2 ^ 8 * b[1].toNat + 2 ^ 16 * b[2].toNat + 2 ^ 24 * b[3].toNat +
      2 ^ 32 * b[4].toNat + 2 ^ 40 * b[5].toNat + 2 ^ 48 * b[6].toNat + 2 ^ 56 * b[7].toNat := by
  simp only [le64dec, append_byte_toNat]
  omega

theorem le64dec_le64 (v : Word) : le64dec (le64 v) = v := by
  apply BitVec.eq_of_toNat_eq
  simp only [le64dec_toNat, le64_getElem_toNat]
  omega

theorem le64_le64dec (b : Vector Byte 8) : le64 (le64dec b) = b := by
  refine Vector.ext fun i hi => BitVec.eq_of_toNat_eq ?_
  rw [le64_getElem_toNat, le64dec_toNat]
  interval_cases i <;> omega

theorem be64_eq_reverse (v : Word) : be64 v = (le64 v).reverse := by
  refine Vector.ext fun i hi => ?_
  rw [Vector.getElem_reverse, be64_getElem, le64_getElem, show 56 - 8 * i = 8 * (8 - 1 - i) by omega]

theorem be64dec_eq_reverse (b : Vector Byte 8) : be64dec b = le64dec b.reverse := by
  simp only [be64dec, le64dec, Vector.getElem_reverse]

theorem be64dec_be64 (v : Word) : be64dec (be64 v) = v := by
  rw [be64dec_eq_reverse, be64_eq_reverse, Vector.reverse_reverse, le64dec_le64]

theorem be64_be64dec (b : Vector Byte 8) : be64 (be64dec b) = b := by
  rw [be64_eq_reverse, be64dec_eq_reverse, le64_le64dec, Vector.reverse_reverse]

theorem be64dec_toNat (b : Vector Byte 8) :
    (be64dec b).toNat = b[7].toNat + 2 ^ 8 * b[6].toNat + 2 ^ 16 * b[5].toNat + 2 ^ 24 * b[4].toNat +
      2 ^ 32 * b[3].toNat + 2 ^ 40 * b[2].toNat + 2 ^ 48 * b[1].toNat + 2 ^ 56 * b[0].toNat := by
  simp only [be64dec_eq_reverse, le64dec_toNat, Vector.getElem_reverse]

theorem lowBytes_eq (d : HashBlock) : lowBytes d = #v[d[0], d[1], d[2], d[3], d[4], d[5], d[6], d[7]] := rfl

/-! The constant blocks -/

theorem append_getElem_add {n m : Nat} (x : Vector Byte n) (y : Vector Byte m) (i : Nat) (hi : i < m) :
    (x ++ y)[n + i] = y[i] := by
  rw [Vector.getElem_append_right (by omega) (by omega)]
  simp only [Nat.add_sub_cancel_left]

theorem s16_getElem_account (a v : Word) (i : Nat) (hi : i < 8) :
    (s16 a v)[i] = a.extractLsb' (56 - 8 * i) 8 :=
  (Vector.getElem_append_left hi).trans (be64_getElem a i hi)

theorem s16_getElem_nonce (a v : Word) (i : Nat) (hi : i < 8) :
    (s16 a v)[8 + i] = v.extractLsb' (56 - 8 * i) 8 :=
  (append_getElem_add (be64 a) (be64 v) i hi).trans (be64_getElem v i hi)

theorem seed32_getElem_s16 (a v : Word) (i : Nat) (hi : i < 16) : (seed32 a v)[i] = (s16 a v)[i] :=
  Vector.getElem_append_left hi

theorem seed32_getElem_add (a v : Word) (i : Nat) (hi : i < 16) :
    (seed32 a v)[16 + i] = (#v[termByte] ++ Vector.replicate 15 (0 : Byte))[i] :=
  append_getElem_add (s16 a v) (#v[termByte] ++ Vector.replicate 15 (0 : Byte)) i hi

/-- The terminator byte is followed by zeros, in Seed32 and in Term32. -/
theorem termByte_zeros_getElem (n i : Nat) (hi : i < n) :
    (#v[termByte] ++ Vector.replicate n (0 : Byte))[1 + i] = 0x00#8 :=
  (append_getElem_add #v[termByte] (Vector.replicate n 0) i hi).trans (Vector.getElem_replicate hi)

theorem seed32_getElem_termByte (a v : Word) : (seed32 a v)[16] = termByte :=
  seed32_getElem_add a v 0 (by omega)

theorem seed32_getElem_zero (a v : Word) (i : Nat) (hi : i < 15) : (seed32 a v)[17 + i] = 0x00#8 := by
  have h := (seed32_getElem_add a v (1 + i) (by omega)).trans (termByte_zeros_getElem 15 i hi)
  simpa only [← Nat.add_assoc] using h

theorem zero32_getElem (i : Nat) (hi : i < 32) : zero32[i] = 0x00#8 :=
  Vector.getElem_replicate hi

end Sys2Proof.Machine

namespace Sys2Proof.Proofs

open Sys2Proof.Machine

/-- Settles O11: the decoders' positional value gives the little-endian inverses, and byte reversal the big-endian ones. -/
theorem integerEncodersAreInverse : Obligations.IntegerEncodersAreInverse := by
  intro v b
  have hbytes (i : Fin 8) :
      (be64 v)[i.val] = v.extractLsb' (56 - 8 * i.val) 8 ∧ (le64 v)[i.val] = v.extractLsb' (8 * i.val) 8 :=
    ⟨be64_getElem v i i.isLt, le64_getElem v i i.isLt⟩
  exact ⟨hbytes, be64dec_be64 v, le64dec_le64 v, be64_be64dec b, le64_le64dec b⟩

/-- Settles O12: each order decodes the low bytes, whose weighted sum is the decoder's positional value. -/
theorem deadlineReadsDigestBytesZeroToSeven : Obligations.DeadlineReadsDigestBytesZeroToSeven := by
  intro d
  have hle : deadline .le d = le64dec #v[d[0], d[1], d[2], d[3], d[4], d[5], d[6], d[7]] :=
    congrArg le64dec (lowBytes_eq d)
  have hbe : deadline .be d = be64dec #v[d[0], d[1], d[2], d[3], d[4], d[5], d[6], d[7]] :=
    congrArg be64dec (lowBytes_eq d)
  refine ⟨hle, hbe, ?_, ?_⟩
  · rw [hle, le64dec_toNat]
    rfl
  · rw [hbe, be64dec_toNat]
    rfl

/-- Settles O13, one part of each block at a time. -/
theorem seedHoldsAccountThenNonce : Obligations.SeedHoldsAccountThenNonce := by
  intro a v
  refine ⟨fun i => ⟨?_, ?_⟩, fun i => ?_, ?_, fun i => ?_, rfl, fun i => ?_, fun i => ?_⟩
  · exact s16_getElem_account a v i i.isLt
  · exact s16_getElem_nonce a v i i.isLt
  · exact seed32_getElem_s16 a v i i.isLt
  · exact seed32_getElem_termByte a v
  · exact seed32_getElem_zero a v i i.isLt
  · exact termByte_zeros_getElem 31 i i.isLt
  · exact zero32_getElem i i.isLt

end Sys2Proof.Proofs
end

section
/-! The register family: the words a host reads, field by field (R34, R36, R43), what a read or a write at an offset does
(R47 to R49), and the bytes of the generation signature (R45). -/

namespace Sys2Proof.Machine

/-! The fields of CAPS -/

theorem orderBit_getLsbD_zero (o : ByteOrder) : (orderBit o).getLsbD 0 = true ↔ o = .be := by
  cases o <;> decide

theorem capsWord_lanes (c : EngineConfig) : (capsWord c).extractLsb' 0 16 = BitVec.ofNat 16 c.lanes :=
  (extract_low _ _ (by decide)).trans (extract_self _)

theorem capsWord_deadlineOrder (c : EngineConfig) : (capsWord c).getLsbD 16 = (orderBit c.deadlineOrder).getLsbD 0 := by
  simp (disch := decide) only [capsWord, bit_high, bit_low]

theorem capsWord_finalSeedTail (c : EngineConfig) : (capsWord c).getLsbD 17 = c.finalSeedTail := by
  simp (disch := decide) only [capsWord, bit_high, bit_low]
  cases c.finalSeedTail <;> rfl

theorem capsWord_reserved (c : EngineConfig) : (capsWord c).extractLsb' 18 2 = 0#2 := by
  simp (disch := decide) only [capsWord, extract_high, extract_low]
  exact extract_self _

theorem capsWord_version (c : EngineConfig) : (capsWord c).extractLsb' 20 4 = 1#4 := by
  simp (disch := decide) only [capsWord, extract_high, extract_low]
  exact extract_self _

theorem capsWord_addrBits (c : EngineConfig) : (capsWord c).extractLsb' 24 8 = BitVec.ofNat 8 c.addrBits := by
  simp (disch := decide) only [capsWord, extract_high, extract_low]
  exact extract_self _

theorem capsWord_windowCap (c : EngineConfig) : (capsWord c).extractLsb' 32 32 = BitVec.ofNat 32 c.windowCap := by
  simp (disch := decide) only [capsWord, extract_high]
  exact extract_self _

/-! The reserved fields of STATUS and IRQ_EN -/

theorem statusWord_reserved_low (e : Engine) : e.statusWord.extractLsb' 4 4 = 0#4 := by
  simp (disch := decide) only [Engine.statusWord, extract_high, extract_low]
  exact extract_self _

theorem statusWord_reserved_high (e : Engine) : e.statusWord.extractLsb' 17 47 = 0#47 := by
  simp (disch := decide) only [Engine.statusWord, extract_high]
  exact extract_self _

theorem irqEnWord_reserved (e : Engine) : e.irqEnWord.extractLsb' 1 63 = 0#63 :=
  (extract_high _ _ (by decide)).trans (extract_self _)

/-- A write to STATUS takes bits 2, 3 and 16 of the value only (R36). -/
theorem Status.writeOneToClear_mask (x : Status) (v : Word) :
    x.writeOneToClear v = x.writeOneToClear (v &&& 0x1000C#64) := by
  have hbit (i : Nat) (hi : (0x1000C#64).getLsbD i = true) : (v &&& 0x1000C#64).getLsbD i = v.getLsbD i := by
    rw [BitVec.getLsbD_and, hi, Bool.and_true]
  simp only [Status.writeOneToClear, hbit 2 (by decide), hbit 3 (by decide), hbit 16 (by decide)]

/-! Host reads and writes by offset -/

theorem Engine.readOffset_caps (e : Engine) : e.readOffset 0x00 = capsWord e.cfg := rfl
theorem Engine.readOffset_cmd (e : Engine) : e.readOffset 0x08 = 0#64 := rfl
theorem Engine.readOffset_status (e : Engine) : e.readOffset 0x10 = e.statusWord := rfl
theorem Engine.readOffset_irqEn (e : Engine) : e.readOffset 0x18 = e.irqEnWord := rfl

theorem Engine.writeOffset_caps (e : Engine) (v : Word) : e.writeOffset 0x00 v = e := rfl
theorem Engine.writeOffset_bestDeadline (e : Engine) (v : Word) : e.writeOffset 0x50 v = e := rfl
theorem Engine.writeOffset_bestOffset (e : Engine) (v : Word) : e.writeOffset 0x58 v = e := rfl

theorem Engine.writeOffset_status (e : Engine) (v : Word) :
    e.writeOffset 0x10 v = { e with status := e.status.writeOneToClear v } := rfl

theorem Engine.writeOffset_irqEn (e : Engine) (v : Word) : e.writeOffset 0x18 v = { e with doneIe := v.getLsbD 0 } := rfl

theorem Engine.readOffset_none {off : Nat} (h : registerAt off = none) (e : Engine) : e.readOffset off = 0#64 := by
  simp [Engine.readOffset, h]

theorem Engine.writeOffset_none {off : Nat} (h : registerAt off = none) (e : Engine) (v : Word) :
    e.writeOffset off v = e := by
  simp only [Engine.writeOffset, h]

/-- The slots of the window's reserved offsets hold no register (R32, R49). -/
theorem registerAt_reserved : ∀ k < 32, 8 * k = 0x48 ∨ 0x80 ≤ 8 * k → registerAt (8 * k) = none := by
  decide

/-! The generation signature -/

theorem gensigBytes_getElem_0 (o : Operands) (b : Nat) (hb : b < 8) :
    (gensigBytes o)[b] = o.gensig0.extractLsb' (8 * b) 8 :=
  (Vector.getElem_append_left (by omega)).trans <| (Vector.getElem_append_left (by omega)).trans <|
    (Vector.getElem_append_left hb).trans (le64_getElem _ b hb)

theorem gensigBytes_getElem_1 (o : Operands) (b : Nat) (hb : b < 8) :
    (gensigBytes o)[8 + b] = o.gensig1.extractLsb' (8 * b) 8 :=
  (Vector.getElem_append_left (by omega)).trans <| (Vector.getElem_append_left (by omega)).trans <|
    (append_getElem_add _ _ b hb).trans (le64_getElem _ b hb)

theorem gensigBytes_getElem_2 (o : Operands) (b : Nat) (hb : b < 8) :
    (gensigBytes o)[16 + b] = o.gensig2.extractLsb' (8 * b) 8 :=
  (Vector.getElem_append_left (by omega)).trans <| (append_getElem_add _ _ b hb).trans (le64_getElem _ b hb)

theorem gensigBytes_getElem_3 (o : Operands) (b : Nat) (hb : b < 8) :
    (gensigBytes o)[24 + b] = o.gensig3.extractLsb' (8 * b) 8 :=
  (append_getElem_add _ _ b hb).trans (le64_getElem _ b hb)

end Sys2Proof.Machine
end

section
/-! The parameters of the engines and of the platform: no step changes them (R34). One lemma per event, then per access. -/

namespace Sys2Proof.Machine

/-- The same engines' parameters in any order, on the same platform: an access may make another engine the addressed one,
which reorders them. -/
structure State.SameParameters (s t : State) : Prop where
  cfgs : (t.engines.map Engine.cfg).Perm (s.engines.map Engine.cfg)
  plat : t.plat = s.plat

/-- Whatever state the outcome of an event at `s` is, it has the parameters of `s`. -/
def KeepsParameters (s : State) (o : Host.Outcome State Fault Refusal) : Prop :=
  ∀ t, o = .next t → s.SameParameters t

/-! What keeps the parameters: named updates, races, turns and addressing -/

theorem State.SameParameters.refl (s : State) : s.SameParameters s :=
  ⟨.refl _, rfl⟩

theorem State.SameParameters.trans {s t u : State} (h : s.SameParameters t) (k : t.SameParameters u) :
    s.SameParameters u :=
  ⟨k.cfgs.trans h.cfgs, k.plat.trans h.plat⟩

theorem KeepsParameters.after {s t : State} {o : Host.Outcome State Fault Refusal} (h : s.SameParameters t)
    (k : KeepsParameters t o) : KeepsParameters s o :=
  fun u hu => h.trans (k u hu)

/-- An event that maps the peers' records and keeps their parameters, as a race does. -/
theorem State.SameParameters.mapEngines {s t : State} {f : Engine → Engine} (he : t.eng.cfg = s.eng.cfg)
    (hp : t.peers = s.peers.map f) (hf : ∀ p, (f p).cfg = p.cfg) (hplat : t.plat = s.plat) : s.SameParameters t := by
  have hcfgs : t.engines.map Engine.cfg = s.engines.map Engine.cfg := by
    simp only [State.engines, List.map_cons, he, hp, List.map_map, Function.comp_def, hf]
  exact ⟨.of_eq hcfgs, hplat⟩

theorem State.SameParameters.of_eng {s t : State} (he : t.eng.cfg = s.eng.cfg) (hp : t.peers = s.peers)
    (hplat : t.plat = s.plat) : s.SameParameters t :=
  .mapEngines (f := id) he (by rw [hp, List.map_id]) (fun _ => rfl) hplat

theorem State.SameParameters.withEng (s : State) {e : Engine} (he : e.cfg = s.eng.cfg) :
    s.SameParameters (s.withEng e) :=
  .of_eng he rfl rfl

theorem TurnFrame.sameParameters {s t : State} (h : TurnFrame s t) : s.SameParameters t :=
  .of_eng h.cfg h.peers h.plat

theorem State.sameParameters_take (s : State) (x : Input) (rest : List Input) : s.SameParameters (s.take x rest) :=
  .of_eng rfl rfl rfl

theorem State.sameParameters_withAnswer (s : State) (a : Answer) : s.SameParameters (s.withAnswer a) :=
  .of_eng rfl rfl rfl

theorem State.sameParameters_contend (s : State) : s.SameParameters s.contend :=
  .mapEngines (Engine.foldl_contend_cfg _ _) s.contend_peers (fun p => p.contend_cfg _) rfl

theorem State.sameParameters_raceWrite (s : State) (r : Range) : s.SameParameters (s.raceWrite r) :=
  .mapEngines (Engine.raceWrite_cfg r _) (s.raceWrite_peers r) (Engine.raceWrite_cfg r) rfl

theorem State.sameParameters_focusOn {p : Engine → Bool} {s t : State} (h : s.focusOn p = some t) :
    s.SameParameters t := by
  obtain ⟨hperm, -, hrest⟩ := State.focusOn_spec h
  exact ⟨hperm.map Engine.cfg, by rw [hrest]⟩

theorem Engine.writeOffset_cfg (e : Engine) (off : Nat) (v : Word) : (e.writeOffset off v).cfg = e.cfg := by
  cases h : registerAt off with
  | none => rw [Engine.writeOffset_none h]
  | some r =>
    rw [Engine.writeOffset, h]
    cases r <;> rfl

/-! Launches -/

theorem grant_keepsParameters {s t : State} (h : s.SameParameters t) : KeepsParameters s (grant t) := by
  rintro u ⟨⟩
  exact h.trans (runTurns_frame _ t).sameParameters

theorem startOnRegion_keepsParameters (r : Run) (s : State) : KeepsParameters s (startOnRegion r s) := by
  rw [startOnRegion]
  split
  · rintro u ⟨⟩
  · exact grant_keepsParameters ((State.SameParameters.withEng s (s.eng.start_cfg r)).trans (State.sameParameters_contend _))

theorem launch_keepsParameters (op : Option Instr) {begin : State → Host.Outcome State Fault Refusal}
    (hbegin : ∀ t, KeepsParameters t (begin t)) (s : State) : KeepsParameters s (launch op begin s) := by
  unfold launch
  split
  · exact grant_keepsParameters (.withEng s s.eng.refuse_cfg)
  · dsimp only
    split
    · exact .after (.withEng s s.eng.accept_cfg) (hbegin _)
    · exact grant_keepsParameters (.withEng s rfl)

theorem exec_keepsParameters (i : Instr) (s : State) : KeepsParameters s (exec i s) := by
  cases i with
  | init =>
    rw [exec, execInit]
    exact launch_keepsParameters _ (fun t => grant_keepsParameters (.withEng t (t.eng.start_cfg _))) s
  | gen => exact launch_keepsParameters _ (fun t => startOnRegion_keepsParameters _ t) s
  | scan => exact launch_keepsParameters _ (fun t => startOnRegion_keepsParameters _ t) s

theorem commandWrite_keepsParameters (v : Word) (s : State) : KeepsParameters s (commandWrite v s) := by
  unfold commandWrite
  split
  · exact exec_keepsParameters _ s
  · exact launch_keepsParameters none (fun t => grant_keepsParameters (.refl t)) s

/-! Accesses -/

theorem atWindow_keepsParameters {k : Nat → State → Host.Outcome State Fault Refusal}
    (hk : ∀ off t, KeepsParameters t (k off t)) (s : State) (a : Nat) : KeepsParameters s (s.atWindow a k) := by
  unfold State.atWindow
  split
  · rintro u ⟨⟩
  · next t ht => exact .after (State.sameParameters_focusOn ht) (hk _ t)

theorem atMemory_keepsParameters {k : State → Host.Outcome State Fault Refusal} {s : State}
    (hk : KeepsParameters s (k s)) (r : Range) : KeepsParameters s (s.atMemory r k) := by
  unfold State.atMemory
  split
  · rintro u ⟨⟩
  · split
    · rintro u ⟨⟩
    · exact hk

theorem registerWrite_keepsParameters (a size : Nat) (v : Word) (s : State) :
    KeepsParameters s (registerWrite a size v s) := by
  refine atWindow_keepsParameters (fun off t => ?_) s a
  split
  · split
    · exact commandWrite_keepsParameters v t
    · exact grant_keepsParameters (.withEng t (t.eng.writeOffset_cfg off v))
  · rintro u ⟨⟩

theorem registerRead_keepsParameters (a size : Nat) (s : State) : KeepsParameters s (registerRead a size s) := by
  refine atWindow_keepsParameters (fun off t => ?_) s a
  split
  · exact grant_keepsParameters (t.sameParameters_withAnswer _)
  · rintro u ⟨⟩

theorem sameParameters_storeByte (s : State) (a : Nat) (b : Byte) : s.SameParameters (storeByte s a b) :=
  (s.sameParameters_raceWrite _).trans (.of_eng rfl rfl rfl)

theorem sameParameters_hostStore (s : State) (a : Nat) (bs : List Byte) : s.SameParameters (hostStore s a bs) := by
  induction bs generalizing s a with
  | nil => exact .refl s
  | cons b bs ih =>
    rw [hostStore_cons]
    refine .trans ?_ (ih _ _)
    split
    · exact sameParameters_storeByte s a b
    · exact (s.sameParameters_raceWrite { base := a, len := 1 }).trans (.of_eng rfl rfl rfl)

theorem sameParameters_hostLoad (s : State) (a n : Nat) : s.SameParameters (hostLoad s a n).2 := by
  obtain ⟨c, d, h, -⟩ := hostLoad_frame s a n
  rw [h]
  exact .of_eng rfl rfl rfl

theorem sameParameters_cleanBytes (r : Range) (s : State) (cs : List CacheByte) :
    s.SameParameters (cleanBytes r s cs) := by
  induction cs generalizing s with
  | nil => exact .refl s
  | cons c cs ih =>
    unfold cleanBytes
    refine .trans ?_ (ih _)
    split
    · exact sameParameters_storeByte s c.addr c.value
    · exact .refl s

theorem sameParameters_cacheClean (s : State) (r : Range) : s.SameParameters (cacheClean s r) :=
  (sameParameters_cleanBytes r s s.hostCache).trans (.of_eng rfl rfl rfl)

theorem State.sameParameters_resetEngine (s : State) : s.SameParameters s.resetEngine :=
  .of_eng (by rw [s.resetEngine_eng]; rfl) s.resetEngine_peers s.resetEngine_plat

theorem State.sameParameters_losePower (s : State) : s.SameParameters s.losePower :=
  .of_eng (by rw [s.losePower_eng, Engine.unretained_cfg]) s.losePower_peers s.losePower_plat

theorem performAccess_keepsParameters (x : Access) (s : State) : KeepsParameters s (performAccess x s) := by
  cases x with
  | regWrite a size v => exact registerWrite_keepsParameters a size v s
  | regRead a size => exact registerRead_keepsParameters a size s
  | memWrite a bs =>
    rw [performAccess]
    refine atMemory_keepsParameters ?_ _
    exact grant_keepsParameters (sameParameters_hostStore s a bs)
  | memRead a n =>
    rw [performAccess]
    refine atMemory_keepsParameters ?_ _
    exact grant_keepsParameters ((sameParameters_hostLoad s a n).trans (State.sameParameters_withAnswer _ _))
  | cacheClean a n => exact grant_keepsParameters (sameParameters_cacheClean s _)
  | cacheInvalidate a n => exact grant_keepsParameters (.of_eng rfl rfl rfl)
  | reset a => exact atWindow_keepsParameters (fun _ t => grant_keepsParameters t.sameParameters_resetEngine) s a
  | powerLoss a => exact atWindow_keepsParameters (fun _ t => grant_keepsParameters t.sameParameters_losePower) s a
  | elapse a => exact atWindow_keepsParameters (fun _ t => grant_keepsParameters (.refl t)) s a

theorem sameParameters_runAlone (s : State) : s.SameParameters (runAlone s) := by
  unfold runAlone
  split
  · next t ht => exact (State.sameParameters_focusOn ht).trans (turn_frame t).sameParameters
  · exact .refl s

/-- Every step keeps the parameters of every engine, and the platform. -/
theorem step_keepsParameters (s : State) : KeepsParameters s (step s) := by
  unfold step stepMachine
  split
  · rintro u ⟨⟩
    exact sameParameters_runAlone s
  · next x rest _ => exact .after (s.sameParameters_take x rest) (performAccess_keepsParameters _ _)

end Sys2Proof.Machine

namespace Sys2Proof.Proofs

open Sys2Proof.Machine

/-- Settles O5: CAPS is a word of the parameters alone, and the parameters fit their fields and outlive every step. -/
theorem capsReportsTheConfiguration : Obligations.CapsReportsTheConfiguration := by
  refine ⟨fun e hlegal => ?_, fun s t h => ?_, by decide⟩
  · obtain ⟨-, -, hcap, -, hlanes, -, haddr, -⟩ := hlegal
    refine ⟨?_, ?_, capsWord_finalSeedTail e.cfg, capsWord_reserved e.cfg, capsWord_version e.cfg, ?_, ?_,
      e.writeOffset_caps, rfl⟩
    · rw [e.readOffset_caps, capsWord_lanes, BitVec.toNat_ofNat, Nat.mod_eq_of_lt (by omega)]
    · rw [e.readOffset_caps, capsWord_deadlineOrder, orderBit_getLsbD_zero]
    · rw [e.readOffset_caps, capsWord_addrBits, BitVec.toNat_ofNat, Nat.mod_eq_of_lt (by omega)]
    · rw [e.readOffset_caps, capsWord_windowCap, BitVec.toNat_ofNat, Nat.mod_eq_of_lt (by omega)]
  · have hperm := ((step_keepsParameters s t h).cfgs).map capsWord
    rwa [List.map_map, List.map_map] at hperm

/-- Settles O8, from the words a host reads and from the slots that hold no register. -/
theorem otherOffsetsIgnoreWrites : Obligations.OtherOffsetsIgnoreWrites := by
  intro e v
  refine ⟨e.readOffset_cmd, ?_, fun k hk hres => ?_, ⟨capsWord_reserved e.cfg, statusWord_reserved_low e,
    statusWord_reserved_high e, irqEnWord_reserved e⟩, ?_, ?_⟩
  · simp only [List.forall_mem_cons]
    exact ⟨e.writeOffset_caps v, e.writeOffset_bestDeadline v, e.writeOffset_bestOffset v, List.forall_mem_nil _⟩
  · have hnone := registerAt_reserved k hk hres
    exact ⟨e.readOffset_none hnone, e.writeOffset_none hnone v⟩
  · rw [e.writeOffset_status, e.status.writeOneToClear_mask v, ← e.writeOffset_status]
  · rw [e.writeOffset_irqEn, e.writeOffset_irqEn, BitVec.getLsbD_and]
    simp

/-- Settles O9: each register reads back as written, and its bytes stand in the signature in the order of `le64`. -/
theorem gensigBytesAreLittleEndian : Obligations.GensigBytesAreLittleEndian := by
  intro e v b
  refine ⟨?_, gensigBytes_getElem_0 e.operands b b.isLt, gensigBytes_getElem_1 e.operands b b.isLt,
    gensigBytes_getElem_2 e.operands b b.isLt, gensigBytes_getElem_3 e.operands b b.isLt⟩
  simp only [List.forall_mem_cons]
  exact ⟨⟨rfl, rfl⟩, ⟨rfl, rfl⟩, ⟨rfl, rfl⟩, ⟨rfl, rfl⟩, List.forall_mem_nil _⟩

end Sys2Proof.Proofs
end

section
/-! GEN run to completion: what its one step leaves, and the nonce values of its buffers (R143). -/

namespace Sys2Proof.Machine

theorem Latched.nonceValue_eq_ofNat (l : Latched) (n : Nat) : l.nonceValue n = BitVec.ofNat 64 (l.start.toNat + n) := by
  rw [Latched.nonceValue, BitVec.ofNat_add, BitVec.ofNat_toNat, BitVec.setWidth_eq]

/-- A GEN just started, with no race marked and every write admitted, leaves the pseudocode's memory once it has had all its
turns. -/
theorem finish_started_gen {s : State} (h : s.GenStarts) (ha : s.AdmitsGen (latch s.eng.operands)) :
    finish (s.withEng (s.eng.started (.gen (genBatch s.eng.cfg (latch s.eng.operands) 0)))) =
      (s.withMem (writeNonces s.eng.cfg (latch s.eng.operands) s.mem s.eng.operands.count.toNat)).withEng
        s.eng.succeeded :=
  finish_gen (s.withEng (s.eng.started (.gen (genBatch s.eng.cfg (latch s.eng.operands) 0)))) h.ok.eng.legal
    (fun _ => started_gen_ok h.ok.eng h.template h.fits) ha rfl

/-- GEN as one command, launch and turns together: the pseudocode's memory and the outcome of success, and nothing else. -/
theorem exec_gen_completes {s : State} (h : s.GenStarts) (ha : s.AdmitsGen (latch s.eng.operands))
    (hp : s.pace = .untilDone) :
    exec .gen s =
      .next ((s.withMem
        (writeNonces s.eng.cfg (latch s.eng.operands) s.mem s.eng.operands.count.toNat)).withEng s.eng.succeeded) := by
  rw [← finish_started_gen h ha, ← grant_untilDone hp]
  exact execGen_starts h

end Sys2Proof.Machine

namespace Sys2Proof.Proofs

open Sys2Proof.Machine

/-- Settles O29: a completed GEN leaves the pseudocode's memory, which is then read inside and outside the REGION. -/
theorem genLeavesPlotsInItsRegion : Obligations.GenLeavesPlotsInItsRegion := by
  intro s t hstarts hadmits hpace hexec
  cases (exec_gen_completes hstarts hadmits hpace).symm.trans hexec
  obtain ⟨-, hinside, houtside⟩ :=
    writeNonces_read s.eng.cfg (latch s.eng.operands) s.mem hstarts.ok.mem s.eng.operands.count.toNat
  refine ⟨fun n hn j hj => ?_, houtside⟩
  have hblock := hinside n hn j hj
  rwa [Latched.nonceValue_eq_ofNat] at hblock

end Sys2Proof.Proofs
end

section
/-! The encoding family: the words the decoder refuses (R99), and the outcome of such a word written while idle. -/

namespace Sys2Proof.Machine

theorem decode_reservedField {v : Word} (h : reservedField v ≠ 0#56) : decode v = .error .reservedField :=
  if_neg h

theorem opcodeCommand_reserved {op : BitVec 8} (h : op = 0x00#8 ∨ 0x04#8 ≤ op) :
    opcodeCommand op = .error .reservedOpcode := by
  have hinit : op ≠ 0x01#8 := by rintro rfl; revert h; decide
  have hgen : op ≠ 0x02#8 := by rintro rfl; revert h; decide
  have hscan : op ≠ 0x03#8 := by rintro rfl; revert h; decide
  rw [opcodeCommand, if_neg hinit, if_neg hgen, if_neg hscan]

/-- A word with either fault is refused; where it has both, the reserved field is the reason given. -/
theorem decode_illegal {v : Word}
    (h : reservedField v ≠ 0#56 ∨ opcodeField v = 0x00#8 ∨ 0x04#8 ≤ opcodeField v) : ∃ why, decode v = .error why := by
  by_cases hres : reservedField v = 0#56
  · have hop := h.resolve_left (not_not_intro hres)
    exact ⟨.reservedOpcode, (if_pos hres).trans (opcodeCommand_reserved hop)⟩
  · exact ⟨.reservedField, decode_reservedField hres⟩

/-- No command starts: the launch check fails for want of an operation, whatever the operands (R182). -/
theorem illegalCommand_idle {s : State} (h : s.eng.busy = false) :
    illegalCommand s = .next (s.withEng (s.eng.failed .illegalCmd)) :=
  launch_idle h none _

theorem commandWrite_of_error {v : Word} {why : Illegal} (h : decode v = .error why) (s : State) :
    commandWrite v s = illegalCommand s := by
  rw [commandWrite, h]

end Sys2Proof.Machine

namespace Sys2Proof.Proofs

open Sys2Proof.Machine

/-- Settles O4: the decoder refuses the word, and the launch request of a refused word fails at once. -/
theorem illegalWordEndsAtOnce : Obligations.IllegalWordEndsAtOnce := by
  intro v s hillegal hidle
  obtain ⟨why, hdecode⟩ := decode_illegal hillegal
  rw [commandWrite_of_error hdecode, illegalCommand_idle hidle]

end Sys2Proof.Proofs
end

section
/-! The lifecycle family: a CMD write while BUSY is refused, and REJECT has no part in the running command (R112). -/

namespace Sys2Proof.Machine

/-- An update of the instance that keeps BUSY and commutes with one turn commutes with any number of turns. -/
theorem runTurns_update {f : Engine → Engine} (hbusy : ∀ e, (f e).busy = e.busy)
    (hturn : ∀ s : State, turn (s.withEng (f s.eng)) = (turn s).withEng (f (turn s).eng)) (n : Nat) (s : State) :
    runTurns n (s.withEng (f s.eng)) = (runTurns n s).withEng (f (runTurns n s).eng) := by
  induction n generalizing s with
  | zero => rfl
  | succ n ih =>
    have hsame : (s.withEng (f s.eng)).eng.busy = s.eng.busy := hbusy s.eng
    cases hb : s.eng.busy with
    | false => rw [runTurns_idle (hsame.trans hb), runTurns_idle hb]
    | true => rw [runTurns_busy (hsame.trans hb), runTurns_busy hb, hturn, ih]

theorem Engine.refuse_busy (e : Engine) : e.refuse.busy = e.busy := rfl

theorem turn_refuse (s : State) : turn (s.withEng s.eng.refuse) = (turn s).withEng (turn s).eng.refuse :=
  turn_update Engine.refuse s (hrun := Engine.refuse_run) (hcfg := Engine.refuse_cfg) (hlat := Engine.refuse_latched)
    (hrc := Engine.refuse_raced) (hm := fun _ _ => rfl) (hb := fun _ => rfl) (hc := fun _ => rfl)
    (hr := fun _ _ => rfl) (hw := fun _ _ _ => rfl)

theorem runTurns_refuse (n : Nat) (s : State) :
    runTurns n (s.withEng s.eng.refuse) = (runTurns n s).withEng (runTurns n s).eng.refuse :=
  runTurns_update Engine.refuse_busy turn_refuse n s

theorem grantedTurns_refuse (s : State) : grantedTurns (s.withEng s.eng.refuse) = grantedTurns s := rfl

theorem launch_busy {s : State} (h : s.eng.busy = true) (op : Option Instr)
    (begin : State → Host.Outcome State Fault Refusal) :
    launch op begin s = .next (runTurns (grantedTurns s) (s.withEng s.eng.refuse)) := by
  rw [launch, if_pos h, grant, grantedTurns_refuse]

theorem exec_busy {s : State} (h : s.eng.busy = true) (i : Instr) :
    exec i s = .next (runTurns (grantedTurns s) (s.withEng s.eng.refuse)) := by
  cases i with
  | init => rw [exec, execInit, launch_busy h]
  | gen => rw [exec, execGen, launch_busy h]
  | scan => rw [exec, execScan, launch_busy h]

theorem commandWrite_of_ok {v : Word} {i : Instr} (h : decode v = .ok i) (s : State) : commandWrite v s = exec i s := by
  rw [commandWrite, h]

/-- No part of the word matters: every command, and the illegal one, is a launch request. -/
theorem commandWrite_busy {s : State} (h : s.eng.busy = true) (v : Word) :
    commandWrite v s = .next (runTurns (grantedTurns s) (s.withEng s.eng.refuse)) := by
  cases hv : decode v with
  | error why => rw [commandWrite_of_error hv, illegalCommand, launch_busy h]
  | ok i => rw [commandWrite_of_ok hv, exec_busy h]

end Sys2Proof.Machine

namespace Sys2Proof.Proofs

open Sys2Proof.Machine

/-- Settles O21: every CMD write to a busy instance is the same refusal, which no turn looks at. -/
theorem busyEngineRejectsEveryCommandWrite : Obligations.BusyEngineRejectsEveryCommandWrite :=
  fun v s hbusy => ⟨commandWrite_busy hbusy v, turn_refuse s, fun n => runTurns_refuse n s⟩

end Sys2Proof.Proofs
end

section
/-! INIT run to completion: what its turns leave from any of its positions, and that any pace of three turns or more
completes it (R125). -/

namespace Sys2Proof.Machine

theorem turn_init {s : State} {p : InitPos} (h : s.eng.run = some (.init p)) : turn s = initTurn p s := by
  rw [turn, h]

/-- A turn before the last moves RUN only, and the completion discards RUN: every position ends in the same state. -/
theorem finish_init {s : State} {p : InitPos} (h : s.eng.run = some (.init p)) :
    finish s = s.withEng s.eng.buildTemplate.complete := by
  have hbusy : s.eng.busy = true := by rw [Engine.busy, h, Option.isSome_some]
  have hfirst (n : Nat) (hn : turnsLeft s.eng = n + 1) : finish s = runTurns n (initTurn p s) := by
    rw [finish, hn, runTurns_busy hbusy, turn_init h]
  cases p with
  | hashInit => exact hfirst 2 (by rw [turnsLeft, h])
  | deriveFast => exact hfirst 1 (by rw [turnsLeft, h])
  | finish => exact hfirst 0 (by rw [turnsLeft, h])

/-- Turns beyond those a command needs find the instance idle. -/
theorem runTurns_eq_finish {s : State} (h : (finish s).eng.busy = false) {n : Nat} (hn : turnsLeft s.eng ≤ n) :
    runTurns n s = finish s := by
  obtain ⟨extra, rfl⟩ := Nat.exists_eq_add_of_le hn
  rw [runTurns_add]
  exact runTurns_idle h extra

theorem grant_eq_finish {s : State} (h : (finish s).eng.busy = false)
    (hp : s.pace = .untilDone ∨ ∃ n, s.pace = .turns n ∧ turnsLeft s.eng ≤ n) : grant s = .next (finish s) := by
  rcases hp with hp | ⟨n, hp, hn⟩
  · exact grant_untilDone hp s.eng
  · have hgranted : grantedTurns s = n := by rw [grantedTurns, hp]
    rw [grant, hgranted, runTurns_eq_finish h hn]

/-- INIT as one command, launch and turns together. -/
theorem exec_init_completes {s : State} (h : s.eng.busy = false)
    (hp : s.pace = .untilDone ∨ ∃ n, s.pace = .turns n ∧ 3 ≤ n) :
    exec .init s = .next (s.withEng (s.eng.started (.init .hashInit)).buildTemplate.complete) := by
  have hfinish : finish (s.withEng (s.eng.started (.init .hashInit))) =
      s.withEng (s.eng.started (.init .hashInit)).buildTemplate.complete := finish_init rfl
  rw [exec, execInit_starts h, ← hfinish]
  exact grant_eq_finish (by rw [hfinish]; rfl) hp

end Sys2Proof.Machine

namespace Sys2Proof.Proofs

open Sys2Proof.Machine

/-- Settles O27: the launch and the completion write STATUS, the latched operands and RUN, and the instance they leave is
the one stated. -/
theorem initBuildsTheTemplate : Obligations.InitBuildsTheTemplate :=
  ⟨rfl, fun _ hidle hpace => exec_init_completes hidle hpace⟩

end Sys2Proof.Proofs
end

section
/-! The chain and the stored HashBlocks of one nonce (R136, R142), read by index, and what of the configuration they depend
on. -/

namespace Sys2Proof.Machine

/-- A capped round has at least CB blocks above it, so that its window is never cut short. -/
theorem roundMessage_length {cb k : Nat} {above : List HashBlock} (h : above.length + 1 = k) (seed : Vector Byte 16) :
    (roundMessage cb k above seed).length = if k ≤ cb then 32 * above.length + 16 else 32 * cb := by
  rw [roundMessage]
  split
  · rw [List.length_append, concatBlocks_length, Vector.length_toList]
  · have hwindow : (above.take cb).length = cb := List.length_take_of_le (by omega)
    rw [concatBlocks_length, hwindow]

theorem xorBlock_getElem (x y : HashBlock) (i : Nat) (hi : i < 32) : (xorBlock x y)[i] = x[i] ^^^ y[i] :=
  Vector.getElem_ofFn hi

theorem getD_map_of_lt {xs : List HashBlock} {j : Nat} (h : j < xs.length) (f : HashBlock → HashBlock) :
    (xs.map f).getD j zero32 = f (xs.getD j zero32) := by
  rw [List.getD_eq_getElem _ _ (by rwa [List.length_map]), List.getElem_map, List.getD_eq_getElem _ _ h]

theorem plotNonce_getD (bh : List Block → HashBlock) (cfg : EngineConfig) (a v : Word) {j : Nat}
    (hj : j < blocksPerNonce) :
    (plotNonce bh cfg a v).getD j zero32 =
      xorBlock ((chainAfter bh (capBlocks cfg) (s16 a v) blocksPerNonce).getD j zero32)
        (hash bh (finalMessage cfg.finalSeedTail (chainAfter bh (capBlocks cfg) (s16 a v) blocksPerNonce) (s16 a v))) := by
  rw [plotNonce]
  exact getD_map_of_lt (hj.trans_eq (chainAfter_length bh (capBlocks cfg) (s16 a v) blocksPerNonce).symm) _

/-- Of the configuration, PlotNonce reads the window cap and the tail only. -/
theorem plotNonce_congr (bh : List Block → HashBlock) {cfg cfg' : EngineConfig} (hcap : cfg.windowCap = cfg'.windowCap)
    (htail : cfg.finalSeedTail = cfg'.finalSeedTail) (a v : Word) : plotNonce bh cfg a v = plotNonce bh cfg' a v := by
  rw [plotNonce, plotNonce, capBlocks, capBlocks, hcap, htail]

end Sys2Proof.Machine

namespace Sys2Proof.Proofs

open Sys2Proof.Machine

/-- Settles O17: the blocks above X[j] are the chain before round `8192 - j`, whose message X[j] hashes. -/
theorem chainBlockHashesTheBlocksAbove : Obligations.ChainBlockHashesTheBlocksAbove := by
  intro bh cb seed j hj
  have hlen : (chainAfter bh cb seed 8192).length = 8192 := chainAfter_length bh cb seed 8192
  have habove : ((chainAfter bh cb seed 8192).drop (j + 1)).length = 8191 - j := by
    rw [List.length_drop, hlen]
    omega
  have hmessage := roundMessage_length (cb := cb) (k := 8192 - j)
    (above := (chainAfter bh cb seed 8192).drop (j + 1)) (by omega) seed
  rw [habove] at hmessage
  exact ⟨hlen, chainAfter_getD bh cb seed 8192 j hj, hmessage⟩

/-- Settles O18: a stored HashBlock is the chain block masked with the final digest, byte by byte. -/
theorem storedBlockIsMaskedChainBlock : Obligations.StoredBlockIsMaskedChainBlock := by
  intro bh cfg a v j b hj
  rw [plotNonce_getD bh cfg a v hj]
  exact xorBlock_getElem _ _ b b.isLt

end Sys2Proof.Proofs
end

section
/-! What of an instance the result of a GEN or SCAN depends on: not the place of a buffer (R146), and not the lane width
(R151, R172). -/

namespace Sys2Proof.Machine

theorem Memory.readBlock_getElem (m : Memory) (a i : Nat) (hi : i < 32) : (m.readBlock a)[i] = m.read (a + i) :=
  Vector.getElem_ofFn hi

/-- Byte `i` of a written buffer is byte `i % 32` of its HashBlock `i / 32`. -/
theorem writeNonces_read_byte (cfg : EngineConfig) (l : Latched) {m : Memory} (hm : m.wf) {c n i : Nat} (hn : n < c)
    (hi : i < nonceSize) :
    (writeNonces cfg l m c).read (l.nonceBase n + i) =
      ((plotNonce Config.bh cfg l.acct (l.nonceValue n)).getD (i / 32) zero32)[i % 32]'(Nat.mod_lt i (by decide)) := by
  obtain ⟨-, hinside, -⟩ := writeNonces_read cfg l m hm c
  have hj : i / 32 < blocksPerNonce := Nat.div_lt_of_lt_mul hi
  rw [← hinside n hn (i / 32) hj, Memory.readBlock_getElem, Latched.blockAddr, Nat.add_assoc, Nat.div_add_mod]

theorem writeNonces_congr {cfg cfg' : EngineConfig} (hcap : cfg.windowCap = cfg'.windowCap)
    (htail : cfg.finalSeedTail = cfg'.finalSeedTail) (l : Latched) (m : Memory) (n : Nat) :
    writeNonces cfg l m n = writeNonces cfg' l m n := by
  have hone : writeNonce cfg l = writeNonce cfg' l := by
    funext m n
    rw [writeNonce, writeNonce, plotNonce_congr Config.bh hcap htail]
  rw [writeNonces, writeNonces, hone]

theorem scanResult_congr {cfg cfg' : EngineConfig} (h : cfg.deadlineOrder = cfg'.deadlineOrder) (l : Latched)
    (m : Memory) : scanResult cfg l m = scanResult cfg' l m := by
  have hone : deadlineOf cfg l m = deadlineOf cfg' l m := by
    funext n
    rw [deadlineOf, deadlineOf, h]
  rw [scanResult, scanResult, hone]

/-- A SCAN just started, with no race marked and every read admitted, leaves the pseudocode's result once it has had all its
turns. -/
theorem finish_started_scan {s : State} (h : s.ScanStarts) (ha : s.AdmitsScan (latch s.eng.operands)) :
    finish (s.withEng (s.eng.started (.scan (scanBatch 0 Best.initial)))) =
      s.withEng (s.eng.succeeded.withBest (scanResult s.eng.cfg (latch s.eng.operands) s.mem).value
        (BitVec.ofNat 64 (scanResult s.eng.cfg (latch s.eng.operands) s.mem).index)) :=
  finish_scan (s.withEng (s.eng.started (.scan (scanBatch 0 Best.initial)))) h.ok.eng.legal
    (fun _ => started_scan_ok h.ok.eng h.template h.scoop h.fits) ha rfl

/-- SCAN as one command, launch and turns together: the pseudocode's result and the outcome of success, and nothing else. -/
theorem exec_scan_completes {s : State} (h : s.ScanStarts) (ha : s.AdmitsScan (latch s.eng.operands))
    (hp : s.pace = .untilDone) :
    exec .scan s =
      .next (s.withEng (s.eng.succeeded.withBest (scanResult s.eng.cfg (latch s.eng.operands) s.mem).value
        (BitVec.ofNat 64 (scanResult s.eng.cfg (latch s.eng.operands) s.mem).index))) := by
  rw [← finish_started_scan h ha, ← grant_untilDone hp]
  exact execScan_starts h

/-- The instance built with another lane width. -/
def Engine.withLanes (e : Engine) (w : Nat) : Engine :=
  { e with cfg := { e.cfg with lanes := w } }

section
variable {s : State} {w : Nat} (hw : 1 ≤ w ∧ w ≤ 65535)
include hw

theorem Engine.Ok.withLanes {e : Engine} (h : e.Ok) (hidle : e.busy = false) : (e.withLanes w).Ok := by
  obtain ⟨hmul, hlow, hhigh, -, -, hrest⟩ := h.legal
  have hnone : e.run = none := Option.isNone_iff_eq_none.mp (Option.isSome_eq_false_iff.mp hidle)
  have hrun := h.run
  rw [Engine.RunOk, hnone] at hrun
  refine ⟨⟨hmul, hlow, hhigh, hw.1, hw.2, hrest⟩, h.errcode, h.busy, ?_⟩
  rw [Engine.RunOk, show (e.withLanes w).run = none from hnone]
  exact hrun

/-- Nothing runs, so no batch has been formed yet with the width the instance had. -/
theorem State.Ok.withLanes (h : s.Ok) (hidle : s.eng.busy = false) : (s.withEng (s.eng.withLanes w)).Ok := by
  have heng := h.eng.withLanes hw hidle
  have hengines : ∀ e ∈ (s.withEng (s.eng.withLanes w)).engines, e.Ok :=
    List.forall_mem_cons.mpr ⟨heng, fun _ hp => h.peer hp⟩
  exact ⟨⟨h.mem, fun e he => (hengines e he).legal, h.formed.windows, h.formed.cache⟩, hengines⟩

theorem State.GenStarts.withLanes (h : s.GenStarts) : (s.withEng (s.eng.withLanes w)).GenStarts :=
  ⟨h.ok.withLanes hw h.idle, h.idle, h.template, h.fits, h.ordinary, h.exclusive⟩

theorem State.ScanStarts.withLanes (h : s.ScanStarts) : (s.withEng (s.eng.withLanes w)).ScanStarts :=
  ⟨h.ok.withLanes hw h.idle, h.idle, h.template, h.scoop, h.fits, h.ordinary, h.exclusive⟩

end

end Sys2Proof.Machine

namespace Sys2Proof.Proofs

open Sys2Proof.Machine

/-- Settles O30: each byte is that of the same PlotNonce. -/
theorem genDependsOnAccountAndNonceOnly : Obligations.GenDependsOnAccountAndNonceOnly := by
  intro s s' t t' hstarts hadmits hpace hexec hstarts' hadmits' hpace' hexec' hcap htail hacct n hn n' hn' hnonce i hi
  cases (exec_gen_completes hstarts hadmits hpace).symm.trans hexec
  cases (exec_gen_completes hstarts' hadmits' hpace').symm.trans hexec'
  have hplot : plotNonce Config.bh s.eng.cfg (latch s.eng.operands).acct ((latch s.eng.operands).nonceValue n) =
      plotNonce Config.bh s'.eng.cfg (latch s'.eng.operands).acct ((latch s'.eng.operands).nonceValue n') := by
    rw [hnonce, show (latch s.eng.operands).acct = (latch s'.eng.operands).acct from hacct,
      plotNonce_congr Config.bh hcap htail]
  have hbyte := writeNonces_read_byte s.eng.cfg (latch s.eng.operands) hstarts.ok.mem hn hi
  rw [hplot] at hbyte
  exact hbyte.trans (writeNonces_read_byte s'.eng.cfg (latch s'.eng.operands) hstarts'.ok.mem hn' hi).symm

/-- Settles O36: the instance of another width starts the same command and completes it as the pseudocode says, which reads
no width. -/
theorem resultsAreTheSameForEveryWidth : Obligations.ResultsAreTheSameForEveryWidth := by
  intro s w hpace hlow hhigh
  have hw : 1 ≤ w ∧ w ≤ 65535 := ⟨hlow, hhigh⟩
  refine ⟨fun hstarts hadmits => ?_, fun hstarts hadmits => ?_⟩
  · have hwide := exec_gen_completes (hstarts.withLanes hw) hadmits hpace
    exact ⟨_, _, exec_gen_completes hstarts hadmits hpace, hwide, writeNonces_congr rfl rfl _ _ _, rfl⟩
  · have hwide := exec_scan_completes (hstarts.withLanes hw) hadmits hpace
    have hresult : scanResult (s.eng.withLanes w).cfg (latch s.eng.operands) s.mem =
        scanResult s.eng.cfg (latch s.eng.operands) s.mem := scanResult_congr rfl _ _
    exact ⟨_, _, exec_scan_completes hstarts hadmits hpace, hwide, congrArg Best.value hresult,
      congrArg (fun best : Best => BitVec.ofNat 64 best.index) hresult, rfl, rfl⟩

end Sys2Proof.Proofs
end

section
/-! The interrupt output: DONE_IE and DONE, and what a cleared DONE does to it (R188, R189). -/

namespace Sys2Proof.Machine

theorem Engine.irq_iff (e : Engine) : e.irq = true ↔ e.doneIe = true ∧ e.status.done = true := by
  rw [Engine.irq, Bool.and_eq_true]

theorem Engine.irq_of_not_done {e : Engine} (h : e.status.done = false) : e.irq = false := by
  rw [Engine.irq, h, Bool.and_false]

theorem Status.writeOneToClear_done (x : Status) (v : Word) :
    (x.writeOneToClear v).done = (x.done && !v.getLsbD 2) := rfl

theorem Engine.reset_done (c : EngineConfig) : (Engine.reset c).status.done = false := rfl

end Sys2Proof.Machine

namespace Sys2Proof.Proofs

open Sys2Proof.Machine

/-- Settles O10: an IRQ_EN write sets DONE_IE alone, and the STATUS write, the accepted request and reset drop the output
because each leaves DONE at 0. -/
theorem interruptIsEnableAndDone : Obligations.InterruptIsEnableAndDone := by
  intro e v
  refine ⟨e.irq_iff, ?_, ?_, fun hclear => Engine.irq_of_not_done ?_, Engine.irq_of_not_done ?_,
    Engine.irq_of_not_done (Engine.reset_done e.cfg)⟩
  · rw [e.writeOffset_irqEn, Engine.irq_iff]
  · rw [e.writeOffset_irqEn]
  · rw [e.writeOffset_status, Status.writeOneToClear_done, hclear, Bool.not_true, Bool.and_false]
  · rw [e.accept_status, Status.clearOutcome_done]

end Sys2Proof.Proofs
end

section
/-! Launches, said once: what a launch request of an idle instance answers, from the code of its checks and the state in
which the command has begun (R111 to R113, R182). -/

namespace Sys2Proof.Machine

/-- The position at which a command of the instance starts (R113). -/
def firstRun (e : Engine) : Instr → Run
  | .init => .init .hashInit
  | .gen => .gen (genBatch e.cfg (latch e.operands) 0)
  | .scan => .scan (scanBatch 0 Best.initial)

/-- The state in which a command has just begun, with its races marked on both sides (R91). -/
def State.begun (s : State) (i : Instr) : State :=
  (s.withEng (s.eng.started (firstRun s.eng i))).contend

/-- The code the launch checks of a command give now (R182). -/
def State.launchCode (s : State) (i : Instr) : ErrCode :=
  launchCheck (some i) (latch s.eng.operands) s.eng.status.tplValid s.eng.cfg.addrBits

/-! The state in which a command has begun -/

theorem State.begun_peers (s : State) (i : Instr) :
    (s.begun i).peers = s.peers.map fun p => p.contend (s.eng.started (firstRun s.eng i)) := rfl

theorem State.begun_eng (s : State) (i : Instr) :
    ∃ rs, (s.begun i).eng = { s.eng.started (firstRun s.eng i) with raced := rs } :=
  Engine.foldl_contend_eq s.peers _

theorem State.begun_peers_unraced (s : State) (i : Instr) :
    (s.begun i).peers.map Engine.unraced = s.peers.map Engine.unraced := by
  rw [s.begun_peers, List.map_map]
  exact List.map_congr_left fun p _ => contend_unraced p _

/-- An instance whose command has no REGION races with nothing. -/
theorem Engine.contend_of_not_usesRegion {e o : Engine} (h : e.usesRegion = false) : e.contend o = e := by
  unfold Engine.contend
  unfold Engine.usesRegion at h
  split <;> simp_all

theorem State.begun_init (s : State) : s.begun .init = s.withEng (s.eng.started (.init .hashInit)) :=
  State.contend_same fun _ _ => ⟨Engine.contend_of_not_usesRegion rfl, Engine.contend_idle rfl⟩

/-! The answer of a launch request -/

theorem launch_failed {s : State} (hidle : s.eng.busy = false) {op : Option Instr}
    (hcode : launchCheck op (latch s.eng.operands) s.eng.status.tplValid s.eng.cfg.addrBits ≠ .none)
    (begin : State → Host.Outcome State Fault Refusal) :
    launch op begin s = .next (s.withEng (s.eng.failed
      (launchCheck op (latch s.eng.operands) s.eng.status.tplValid s.eng.cfg.addrBits))) := by
  rw [launch_idle hidle, if_neg hcode]

theorem launch_passed {s : State} (hidle : s.eng.busy = false) {op : Option Instr}
    (hcode : launchCheck op (latch s.eng.operands) s.eng.status.tplValid s.eng.cfg.addrBits = .none)
    (begin : State → Host.Outcome State Fault Refusal) : launch op begin s = begin (s.withEng s.eng.accept) := by
  rw [launch_idle hidle, if_pos hcode]

theorem exec_failed {s : State} {i : Instr} (hidle : s.eng.busy = false) {code : ErrCode} (hcode : s.launchCode i = code)
    (hne : code ≠ .none) : exec i s = .next (s.withEng (s.eng.failed code)) := by
  subst hcode
  rw [State.launchCode] at hne ⊢
  cases i with
  | init => rw [exec, execInit, launch_failed hidle hne]
  | gen => rw [exec, execGen, launch_failed hidle hne]
  | scan => rw [exec, execScan, launch_failed hidle hne]

theorem startOnRegion_accepted (s : State) (r : Run) :
    startOnRegion r (s.withEng s.eng.accept) =
      if s.touchesDevice (latch s.eng.operands).region then .refused .deviceRegion
      else grant (s.withEng (s.eng.started r)).contend := rfl

theorem exec_passed_onRegion {s : State} {i : Instr} (hidle : s.eng.busy = false) (hcode : s.launchCode i = .none)
    (hi : i ≠ .init) : exec i s = startOnRegion (firstRun s.eng i) (s.withEng s.eng.accept) := by
  rw [State.launchCode] at hcode
  cases i with
  | init => exact absurd rfl hi
  | gen => rw [exec, execGen, launch_passed hidle hcode]; rfl
  | scan => rw [exec, execScan, launch_passed hidle hcode]; rfl

theorem exec_refused {s : State} {i : Instr} (hidle : s.eng.busy = false) (hcode : s.launchCode i = .none)
    (hi : i ≠ .init) (hdevice : s.touchesDevice (latch s.eng.operands).region = true) :
    exec i s = .refused .deviceRegion := by
  rw [exec_passed_onRegion hidle hcode hi, startOnRegion_accepted, if_pos hdevice]

theorem exec_begins {s : State} {i : Instr} (hidle : s.eng.busy = false) (hcode : s.launchCode i = .none)
    (hdevice : i ≠ .init → s.touchesDevice (latch s.eng.operands).region = false) :
    exec i s = grant (s.begun i) := by
  by_cases hi : i = .init
  · rw [hi, s.begun_init, exec, execInit_starts hidle]
  · rw [exec_passed_onRegion hidle hcode hi, startOnRegion_accepted, if_neg (Bool.eq_false_iff.mp (hdevice hi)),
      State.begun]

/-- Whatever state the launch request of an idle instance answers: a check failed, or the command began and had some
turns. -/
theorem exec_idle_cases {s t : State} {i : Instr} (hidle : s.eng.busy = false) (h : exec i s = .next t) :
    (∃ code, code ≠ .none ∧ t = s.withEng (s.eng.failed code)) ∨
      (s.launchCode i = .none ∧ ∃ n, t = runTurns n (s.begun i)) := by
  by_cases hcode : s.launchCode i = .none
  · by_cases hrefused : i ≠ .init ∧ s.touchesDevice (latch s.eng.operands).region = true
    · rw [exec_refused hidle hcode hrefused.1 hrefused.2] at h
      cases h
    · rw [exec_begins hidle hcode fun hi => Bool.eq_false_iff.mpr fun hd => hrefused ⟨hi, hd⟩] at h
      cases h
      exact .inr ⟨hcode, _, rfl⟩
  · rw [exec_failed hidle rfl hcode] at h
    cases h
    exact .inl ⟨_, hcode, rfl⟩

/-! The code of the launch checks -/

section
variable {s : State}

theorem State.launchCode_noTemplate (htpl : s.eng.status.tplValid = false) {i : Instr} (hi : i ≠ .init) :
    s.launchCode i = .noTemplate := by
  cases i with
  | init => exact absurd rfl hi
  | gen => rw [launchCode, launchCheck, htpl]; rfl
  | scan => rw [launchCode, launchCheck, htpl]; rfl

variable (htpl : s.eng.status.tplValid = true)
include htpl

theorem State.launchCode_gen :
    s.launchCode .gen = if (latch s.eng.operands).genFits s.eng.cfg.addrBits then .none else .addrRange := by
  rw [launchCode, launchCheck, htpl]
  cases (latch s.eng.operands).genFits s.eng.cfg.addrBits <;> rfl

theorem State.launchCode_scan :
    s.launchCode .scan = if 4095 < s.eng.operands.scoop.toNat then .scoopRange
      else if (latch s.eng.operands).fits s.eng.cfg.addrBits then .none else .addrRange := by
  rw [launchCode, launchCheck, htpl]
  cases (latch s.eng.operands).fits s.eng.cfg.addrBits <;> rfl

theorem State.launchCode_gen_passes (hfits : (latch s.eng.operands).genFits s.eng.cfg.addrBits = true) :
    s.launchCode .gen = .none := by
  rw [launchCode_gen htpl, if_pos hfits]

theorem State.launchCode_scan_passes (hscoop : s.eng.operands.scoop.toNat ≤ 4095)
    (hfits : (latch s.eng.operands).fits s.eng.cfg.addrBits = true) : s.launchCode .scan = .none := by
  rw [launchCode_scan htpl, if_neg (Nat.not_lt.mpr hscoop), if_pos hfits]

end

theorem State.launchCode_gen_none {s : State} (h : s.launchCode .gen = .none) :
    s.eng.status.tplValid = true ∧ (latch s.eng.operands).genFits s.eng.cfg.addrBits = true := by
  cases htpl : s.eng.status.tplValid with
  | false => rw [launchCode_noTemplate htpl (by decide)] at h; cases h
  | true =>
    rw [launchCode_gen htpl] at h
    split at h
    · exact ⟨rfl, by assumption⟩
    · cases h

theorem State.launchCode_scan_none {s : State} (h : s.launchCode .scan = .none) :
    s.eng.status.tplValid = true ∧ s.eng.operands.scoop.toNat ≤ 4095 ∧
      (latch s.eng.operands).fits s.eng.cfg.addrBits = true := by
  cases htpl : s.eng.status.tplValid with
  | false => rw [launchCode_noTemplate htpl (by decide)] at h; cases h
  | true =>
    rw [launchCode_scan htpl] at h
    split at h
    · cases h
    · split at h
      · exact ⟨rfl, by omega, by assumption⟩
      · cases h

end Sys2Proof.Machine
end

section
/-! The induction over a step, packaged once: what holds of a state holds after a step when each event of an access keeps
it. -/

namespace Sys2Proof.Machine

/-- Every state an outcome answers meets `P`. -/
def Answers (P : State → Prop) (o : Host.Outcome State Fault Refusal) : Prop :=
  ∀ t, o = .next t → P t

/-- The events of a register write keep `P`: a turn, a write other than to CMD, and what a launch request leaves. -/
structure KeptByRegisterWrites (P : State → Prop) : Prop where
  turn : ∀ {s}, P s → P (turn s)
  writeOffset : ∀ {s} off v, P s → P (s.withEng (s.eng.writeOffset off v))
  refuse : ∀ {s}, P s → P (s.withEng s.eng.refuse)
  failed : ∀ {s code}, P s → s.eng.busy = false → code ≠ .none → P (s.withEng (s.eng.failed code))
  begun : ∀ {s i}, P s → s.eng.busy = false → s.launchCode i = .none → P (s.begun i)

/-- Every event of an access keeps `P`, reset and loss of power left out. -/
structure KeptByEvents (P : State → Prop) : Prop extends KeptByRegisterWrites P where
  take : ∀ {s} x rest, P s → P (s.take x rest)
  focusOn : ∀ {s t p}, P s → s.focusOn p = some t → P t
  withAnswer : ∀ {s} a, P s → P (s.withAnswer a)
  hostStore : ∀ {s} a bs, P s → P (hostStore s a bs)
  hostLoad : ∀ {s} a n, P s → P (hostLoad s a n).2
  cacheClean : ∀ {s} r, P s → P (cacheClean s r)
  cacheInvalidate : ∀ {s} r, P s → P (cacheInvalidate s r)

section
variable {P : State → Prop} (hP : KeptByRegisterWrites P) {s : State} (hs : P s)
include hP hs

theorem KeptByRegisterWrites.runTurns (n : Nat) : P (runTurns n s) := by
  induction n generalizing s with
  | zero => exact hs
  | succ n ih =>
    cases hb : s.eng.busy with
    | false => rwa [runTurns_idle hb]
    | true => rw [runTurns_busy hb]; exact ih (hP.turn hs)

theorem KeptByRegisterWrites.grant : Answers P (grant s) := by
  rintro t ⟨⟩
  exact hP.runTurns hs _

theorem KeptByRegisterWrites.commandWrite (v : Word) : Answers P (commandWrite v s) := by
  intro t ht
  cases hb : s.eng.busy with
  | true =>
    rw [commandWrite_busy hb] at ht
    cases ht
    exact hP.runTurns (hP.refuse hs) _
  | false =>
    cases hv : decode v with
    | error why =>
      rw [commandWrite_of_error hv, illegalCommand_idle hb] at ht
      cases ht
      exact hP.failed hs hb (by decide)
    | ok i =>
      rw [commandWrite_of_ok hv] at ht
      rcases exec_idle_cases hb ht with ⟨code, hne, rfl⟩ | ⟨hcode, n, rfl⟩
      · exact hP.failed hs hb hne
      · exact hP.runTurns (hP.begun hs hb hcode) n

end

/-! Accesses -/

theorem step_access {s : State} {x : Input} {rest : List Input} (h : s.inputs = x :: rest) :
    step s = performAccess x.access (s.take x rest) := by
  rw [step, stepMachine, h]

theorem step_alone {s : State} (h : s.inputs = []) : step s = .next (runAlone s) := by
  rw [step, stepMachine, h]

theorem answers_atWindow {P : State → Prop} {s : State} {a : Nat}
    {k : Nat → State → Host.Outcome State Fault Refusal}
    (hk : ∀ t, s.focus a = some t → Answers P (k (a - t.eng.cfg.mmioBase) t)) : Answers P (s.atWindow a k) := by
  unfold State.atWindow
  split
  · rintro u ⟨⟩
  · next t ht => exact hk t ht

theorem answers_atMemory {P : State → Prop} {s : State} {r : Range} {k : State → Host.Outcome State Fault Refusal}
    (hk : Answers P (k s)) : Answers P (s.atMemory r k) := by
  unfold State.atMemory
  split
  · rintro u ⟨⟩
  · split
    · rintro u ⟨⟩
    · exact hk

/-- A register write, from what holds of the state that addresses the instance. -/
theorem KeptByRegisterWrites.registerWrite {P : State → Prop} (hP : KeptByRegisterWrites P) {s : State} {a : Nat}
    (hfocus : ∀ t, s.focus a = some t → P t) (size : Nat) (v : Word) : Answers P (registerWrite a size v s) := by
  refine answers_atWindow fun t ht => ?_
  split
  · split
    · exact hP.commandWrite (hfocus t ht) v
    · exact hP.grant (hP.writeOffset _ v (hfocus t ht))
  · rintro u ⟨⟩

section
variable {P : State → Prop} (hP : KeptByEvents P) {s : State} (hs : P s)
include hP hs

theorem KeptByEvents.focus {a : Nat} {t : State} (h : s.focus a = some t) : P t :=
  hP.focusOn hs h

theorem KeptByEvents.registerRead (a size : Nat) : Answers P (registerRead a size s) := by
  refine answers_atWindow fun t ht => ?_
  split
  · exact hP.grant (hP.withAnswer _ (hP.focus hs ht))
  · rintro u ⟨⟩

theorem KeptByEvents.performAccess (x : Access)
    (hreset : ∀ a t, x = .reset a → s.focus a = some t → P t → P t.resetEngine)
    (hloss : ∀ a t, x = .powerLoss a → s.focus a = some t → P t → P t.losePower) :
    Answers P (performAccess x s) := by
  have hfocus : ∀ a t, s.focus a = some t → P t := fun a t => hP.focus hs
  cases x with
  | regWrite a size v => exact hP.registerWrite (hfocus a) size v
  | regRead a size => exact hP.registerRead hs a size
  | memWrite a bs =>
    rw [Machine.performAccess]
    exact answers_atMemory (hP.grant (hP.hostStore a bs hs))
  | memRead a n =>
    rw [Machine.performAccess]
    exact answers_atMemory (hP.grant (hP.withAnswer _ (hP.hostLoad a n hs)))
  | cacheClean a n => exact hP.grant (hP.cacheClean _ hs)
  | cacheInvalidate a n => exact hP.grant (hP.cacheInvalidate _ hs)
  | reset a =>
    rw [Machine.performAccess]
    refine answers_atWindow fun t ht => ?_
    exact hP.grant (hreset a t rfl ht (hfocus a t ht))
  | powerLoss a =>
    rw [Machine.performAccess]
    refine answers_atWindow fun t ht => ?_
    exact hP.grant (hloss a t rfl ht (hfocus a t ht))
  | elapse a =>
    rw [Machine.performAccess]
    refine answers_atWindow fun t ht => ?_
    exact hP.grant (hfocus a t ht)

theorem KeptByEvents.runAlone : P (runAlone s) := by
  unfold Machine.runAlone
  split
  · next t ht => exact hP.turn (hP.focusOn hs ht)
  · exact hs

/-- Holding before a step, `P` holds after it, if the reset and the loss of power the step may do keep it. -/
theorem KeptByEvents.step
    (hreset : ∀ x rest a t, s.inputs = x :: rest → x.access = .reset a → (s.take x rest).focus a = some t → P t →
      P t.resetEngine)
    (hloss : ∀ x rest a t, s.inputs = x :: rest → x.access = .powerLoss a → (s.take x rest).focus a = some t → P t →
      P t.losePower) : Answers P (step s) := by
  cases hx : s.inputs with
  | nil =>
    rw [step_alone hx]
    rintro t ⟨⟩
    exact hP.runAlone hs
  | cons x rest =>
    rw [step_access hx]
    exact hP.performAccess (hP.take x rest hs) x.access (fun a t => hreset x rest a t hx)
      (fun a t => hloss x rest a t hx)

end

end Sys2Proof.Machine
end

section
/-! The form and the invariant of the machine over every event (R29, R41, R180). -/

namespace Sys2Proof.Machine

/-! The form -/

theorem State.Formed.hostLoad {s : State} (h : s.Formed) (a n : Nat) : (hostLoad s a n).2.Formed := by
  obtain ⟨c, d, he, hn⟩ := hostLoad_frame s a n
  rw [he]
  exact h.of h.mem (.refl _) (hn h.cache)

theorem State.Formed.begun {s : State} (h : s.Formed) (i : Instr) : (s.begun i).Formed :=
  State.Formed.contend (s := s.withEng (s.eng.started (firstRun s.eng i))) (h.withEng rfl)

theorem formed_keptByEvents : KeptByEvents State.Formed where
  turn h := h.turn
  writeOffset off v h := h.withEng (Engine.writeOffset_cfg _ off v)
  refuse h := h.withEng rfl
  failed h _ _ := h.withEng rfl
  begun h _ _ := h.begun _
  take _ _ h := h.of h.mem (.refl _) h.cache
  focusOn h hf := h.focusOn hf
  withAnswer _ h := h.of h.mem (.refl _) h.cache
  hostStore a bs h := h.hostStore a bs
  hostLoad a n h := h.hostLoad a n
  cacheClean r h := h.cacheClean r
  cacheInvalidate r h := h.cacheInvalidate r

/-! The invariant -/

/-- A launch that passed its checks leaves an instance in order at the command's first position. -/
theorem Engine.Ok.started_firstRun {s : State} (h : s.eng.Ok) {i : Instr} (hcode : s.launchCode i = .none) :
    (s.eng.started (firstRun s.eng i)).Ok := by
  cases i with
  | init => exact h.started trivial
  | gen =>
    obtain ⟨htpl, hfits⟩ := State.launchCode_gen_none hcode
    exact started_gen_ok h htpl hfits (genBatch_ok _ _ (Nat.zero_le _))
  | scan =>
    obtain ⟨htpl, hscoop, hfits⟩ := State.launchCode_scan_none hcode
    exact started_scan_ok h htpl hscoop hfits ⟨Nat.zero_le _, .inl rfl, trivial⟩

theorem State.Ok.begun {s : State} (h : s.Ok) {i : Instr} (hcode : s.launchCode i = .none) : (s.begun i).Ok :=
  (h.withEng (h.eng.started_firstRun hcode) rfl).contend

theorem State.Ok.of_engines {s t : State} (h : s.Ok) (hf : t.Formed) (he : t.engines = s.engines) : t.Ok :=
  ⟨hf, fun e hm => h.engines e (he ▸ hm)⟩

theorem hostLoad_engines (s : State) (a n : Nat) : (hostLoad s a n).2.engines = s.engines := by
  obtain ⟨c, d, he, -⟩ := hostLoad_frame s a n
  rw [he]
  rfl

theorem ok_keptByEvents : KeptByEvents State.Ok where
  turn h := h.turn
  writeOffset off v h := h.withEng (h.eng.writeOffset off v) (Engine.writeOffset_cfg _ off v)
  refuse h := h.withEng h.eng.refuse rfl
  failed h _ hne := h.withEng (h.eng.failed hne) rfl
  begun h _ hcode := h.begun hcode
  take x rest h := h.of_engines (formed_keptByEvents.take x rest h.formed) rfl
  focusOn h hf := h.focusOn hf
  withAnswer a h := h.of_engines (formed_keptByEvents.withAnswer a h.formed) rfl
  hostStore a bs h := h.hostStore a bs
  hostLoad a n h := h.of_engines (h.formed.hostLoad a n) (hostLoad_engines _ a n)
  cacheClean r h := h.cacheClean r
  cacheInvalidate r h := h.cacheInvalidate r

end Sys2Proof.Machine

namespace Sys2Proof.Proofs

open Sys2Proof.Machine

/-- Settles O57: the invariant and the form are each kept by every event, the form by a loss of power as well. -/
theorem stepKeepsTheInvariant : Obligations.StepKeepsTheInvariant := by
  refine ⟨fun s t hok hpower => ?_, fun s t hformed => ?_⟩
  · refine ok_keptByEvents.step hok (fun _ _ _ _ _ _ _ h => h.resetEngine) (fun x rest a u hx ha => ?_) t
    exact absurd ha (hpower x rest a hx)
  · exact formed_keptByEvents.step hformed (fun _ _ _ _ _ _ _ h => h.resetEngine)
      (fun _ _ _ _ _ _ _ h => h.losePower) t

end Sys2Proof.Proofs
end

section
/-! The template and the other instances over a step: what TPL_VALID outlives (R38), and what a register write leaves of
the instances it does not address (R197). -/

namespace Sys2Proof.Machine

/-! Instances with the record of races left out -/

theorem exists_unraced_eq {es es' : List Engine} (h : es'.map Engine.unraced = es.map Engine.unraced) {e : Engine}
    (he : e ∈ es) : ∃ e' ∈ es', e'.unraced = e.unraced :=
  List.mem_map.mp (h ▸ List.mem_map_of_mem (f := Engine.unraced) he)

theorem Engine.unraced_cfg (e : Engine) : e.unraced.cfg = e.cfg := rfl
theorem Engine.unraced_status (e : Engine) : e.unraced.status = e.status := rfl

theorem foldl_contend_unraced (ps : List Engine) (e : Engine) : (ps.foldl Engine.contend e).unraced = e.unraced := by
  obtain ⟨rs, h⟩ := Engine.foldl_contend_eq ps e
  rw [h]
  rfl

theorem State.begun_eng_unraced (s : State) (i : Instr) : (s.begun i).eng.unraced = s.eng.started (firstRun s.eng i) :=
  foldl_contend_unraced s.peers _

theorem raceWrite_unraced (r : Range) (e : Engine) : (e.raceWrite r).unraced = e.unraced := by
  obtain ⟨rs, h⟩ := Engine.raceWrite_eq r e
  rw [h]
  rfl

theorem storeByte_engines (s : State) (a : Nat) (b : Byte) :
    (storeByte s a b).engines.map Engine.unraced = s.engines.map Engine.unraced := by
  simp only [storeByte, State.engines, State.withMem_eng, State.withMem_peers, State.raceWrite_eng,
    State.raceWrite_peers, List.map_cons, List.map_map, Function.comp_def, raceWrite_unraced]

theorem cleanBytes_engines (r : Range) (s : State) (cs : List CacheByte) :
    (cleanBytes r s cs).engines.map Engine.unraced = s.engines.map Engine.unraced := by
  induction cs generalizing s with
  | nil => rfl
  | cons c cs ih =>
    rw [cleanBytes, ih]
    split
    · exact storeByte_engines s c.addr c.value
    · rfl

/-! TPL_VALID -/

/-- An instance with these parameters has its template built. -/
def State.HasTemplate (c : EngineConfig) (s : State) : Prop :=
  ∃ e ∈ s.engines, e.cfg = c ∧ e.status.tplValid = true

theorem Engine.writeOffset_tplValid (e : Engine) (off : Nat) (v : Word) :
    (e.writeOffset off v).status.tplValid = e.status.tplValid := by
  cases h : registerAt off with
  | none => rw [Engine.writeOffset_none h]
  | some r =>
    rw [Engine.writeOffset, h]
    cases r <;> rfl

theorem turn_tplValid {s : State} (h : s.eng.status.tplValid = true) : (turn s).eng.status.tplValid = true := by
  unfold turn
  split
  · exact h
  · next p _ =>
    cases p with
    | hashInit | deriveFast => exact h
    | finish => rfl
  · next g _ =>
    obtain ⟨-, -, htpl, -⟩ := genTurn_registers g s
    exact htpl.trans h
  · next r _ =>
    obtain ⟨-, htpl, -⟩ := scanTurn_registers r s
    exact htpl.trans h
  · exact h

section
variable {c : EngineConfig} {s t : State} (h : s.HasTemplate c)
include h

theorem State.HasTemplate.of_engines (he : t.engines.map Engine.unraced = s.engines.map Engine.unraced) :
    t.HasTemplate c := by
  obtain ⟨e, hmem, hcfg, htpl⟩ := h
  obtain ⟨e', hmem', hsame⟩ := exists_unraced_eq he hmem
  refine ⟨e', hmem', ?_, ?_⟩
  · rw [← e'.unraced_cfg, hsame, e.unraced_cfg, hcfg]
  · rw [← e'.unraced_status, hsame, e.unraced_status, htpl]

/-- An event on the addressed instance that builds its template or leaves it. -/
theorem State.HasTemplate.of_eng (hcfg : t.eng.cfg = s.eng.cfg)
    (htpl : s.eng.status.tplValid = true → t.eng.status.tplValid = true) (hpeers : t.peers = s.peers) :
    t.HasTemplate c := by
  obtain ⟨e, hmem, hec, het⟩ := h
  rcases List.mem_cons.mp hmem with rfl | hmem
  · exact ⟨t.eng, List.mem_cons_self .., hcfg.trans hec, htpl het⟩
  · exact ⟨e, List.mem_cons_of_mem _ (hpeers ▸ hmem), hec, het⟩

theorem State.HasTemplate.withEng {e : Engine} (hcfg : e.cfg = s.eng.cfg)
    (htpl : s.eng.status.tplValid = true → e.status.tplValid = true) : (s.withEng e).HasTemplate c :=
  h.of_eng hcfg htpl rfl

theorem State.HasTemplate.focusOn {p : Engine → Bool} (hf : s.focusOn p = some t) : t.HasTemplate c := by
  obtain ⟨e, hmem, hec, het⟩ := h
  obtain ⟨hperm, -⟩ := State.focusOn_spec hf
  exact ⟨e, hperm.mem_iff.mpr hmem, hec, het⟩

theorem State.HasTemplate.begun (i : Instr) : (s.begun i).HasTemplate c := by
  refine (h.withEng (e := s.eng.started (firstRun s.eng i)) rfl id).of_engines ?_
  simp only [State.engines, List.map_cons, State.begun_eng_unraced, State.begun_peers_unraced]
  rfl

/-- An event on the addressed instance, which has other parameters, and whatever it does to it. -/
theorem State.HasTemplate.of_peers (hne : s.eng.cfg ≠ c) (hpeers : t.peers = s.peers) : t.HasTemplate c := by
  obtain ⟨e, hmem, hec, het⟩ := h
  rcases List.mem_cons.mp hmem with rfl | hmem
  · exact absurd hec hne
  · exact ⟨e, List.mem_cons_of_mem _ (hpeers ▸ hmem), hec, het⟩

end

theorem hasTemplate_keptByEvents (c : EngineConfig) : KeptByEvents (State.HasTemplate c) where
  turn {s} h := h.of_eng (turn_frame s).cfg turn_tplValid (turn_frame s).peers
  writeOffset {s} off v h :=
    h.withEng (s.eng.writeOffset_cfg off v) (s.eng.writeOffset_tplValid off v).trans
  refuse h := h.withEng rfl id
  failed h _ _ := h.withEng rfl id
  begun h _ _ := h.begun _
  take _ _ h := h
  focusOn h hf := h.focusOn hf
  withAnswer _ h := h
  hostStore a bs h := h.of_engines (hostStore_engines _ a bs)
  hostLoad a n h := h.of_engines (congrArg (List.map Engine.unraced) (hostLoad_engines _ a n))
  cacheClean r h := h.of_engines (cleanBytes_engines r _ _)
  cacheInvalidate _ h := h

/-! Instances that a register write does not address -/

theorem hasPeer_keptByRegisterWrites (e : Engine) :
    KeptByRegisterWrites fun s => ∃ e' ∈ s.peers, e'.unraced = e.unraced where
  turn {s} h := by rwa [(turn_frame s).peers]
  writeOffset _ _ h := h
  refuse h := h
  failed h _ _ := h
  begun {s i} h _ _ := by
    obtain ⟨p, hp, hpe⟩ := h
    obtain ⟨p', hp', hpp⟩ := exists_unraced_eq (s.begun_peers_unraced i) hp
    exact ⟨p', hp', hpp.trans hpe⟩

/-- An instance of the machine is a peer of another that is addressed. -/
theorem mem_peers_of_focus {s t : State} {a : Nat} (h : s.focus a = some t) {e : Engine} (he : e ∈ s.engines)
    (hw : e.windowHolds a = false) : e ∈ t.peers := by
  obtain ⟨hperm, hholds, -⟩ := State.focusOn_spec h
  rcases List.mem_cons.mp (hperm.mem_iff.mpr he) with rfl | hmem
  · rw [hw] at hholds
    cases hholds
  · exact hmem

theorem windowHolds_congr {e e' : Engine} (h : e.cfg = e'.cfg) (a : Nat) : e.windowHolds a = e'.windowHolds a := by
  rw [Engine.windowHolds, Engine.windowHolds, h]

end Sys2Proof.Machine

namespace Sys2Proof.Proofs

open Sys2Proof.Machine

/-- Settles O58: the earlier family's invariant of the parameters is this statement. -/
theorem configurationNeverChanges : Obligations.ConfigurationNeverChanges := by
  intro s t h
  obtain ⟨hcfgs, hplat⟩ := step_keepsParameters s t h
  exact ⟨hcfgs, hplat⟩

/-- Settles O59: every event keeps a built template, and a reset or loss of power is of an instance with another window. -/
theorem onlyResetClearsTheTemplate : Obligations.OnlyResetClearsTheTemplate := by
  intro s t hstep e he htpl hother
  have hne : ∀ x rest a u, s.inputs = x :: rest → x.access = .reset a ∨ x.access = .powerLoss a →
      (s.take x rest).focus a = some u → u.eng.cfg ≠ e.cfg := by
    intro x rest a u hx ha hu hcfg
    obtain ⟨-, hholds, -⟩ := State.focusOn_spec hu
    rw [windowHolds_congr hcfg, hother x rest a hx ha] at hholds
    cases hholds
  exact (hasTemplate_keptByEvents e.cfg).step ⟨e, he, rfl, htpl⟩
    (fun x rest a u hx ha hu h => h.of_peers (hne x rest a u hx (.inl ha) hu) u.resetEngine_peers)
    (fun x rest a u hx ha hu h => h.of_peers (hne x rest a u hx (.inr ha) hu) u.losePower_peers) t hstep

/-- Settles O52: the instance is a peer while the write is done, and no event of a register write changes more of a peer
than its races. -/
theorem otherInstancesKeepTheirState : Obligations.OtherInstancesKeepTheirState := by
  intro s t a size v p rest hinputs hstep e he hw
  obtain ⟨e', he', hsame⟩ := (hasPeer_keptByRegisterWrites e).registerWrite (s := s.take _ rest)
    (fun u hu => ⟨e, mem_peers_of_focus hu he hw, rfl⟩) size v t ((step_access hinputs).symm.trans hstep)
  exact ⟨e', List.mem_cons_of_mem _ he', hsame⟩

end Sys2Proof.Proofs
end

section
/-! The encoding family: the decoder answers a command on its one word and on no other (R95 to R97, R100). -/

namespace Sys2Proof.Machine

theorem opcodeCommand_ok {op : BitVec 8} {i : Instr} (h : opcodeCommand op = .ok i) : op = opcodeOf i := by
  unfold opcodeCommand at h
  split at h
  · cases h; assumption
  · split at h
    · cases h; assumption
    · split at h
      · cases h; assumption
      · cases h

theorem decode_encode (i : Instr) : decode (encode i) = .ok i := by
  cases i <;> decide

theorem decode_ok_iff {v : Word} {i : Instr} : decode v = .ok i ↔ v = encode i := by
  refine ⟨fun h => ?_, fun h => h ▸ decode_encode i⟩
  by_cases hres : reservedField v = 0#56
  · have hop : opcodeField v = opcodeOf i := opcodeCommand_ok ((if_pos hres).symm.trans h)
    exact (word_eq_low.mpr hres).trans (congrArg (0#56 ++ ·) hop)
  · rw [decode_reservedField hres] at h
    cases h

end Sys2Proof.Machine

namespace Sys2Proof.Proofs

open Sys2Proof.Machine

/-- Settles O1: a word is refused exactly when it is the word of no command. -/
theorem everyWordIsOneCommand : Obligations.EveryWordIsOneCommand := by
  intro v
  have hinit : decode v = .ok .init ↔ v = 0x01#64 := decode_ok_iff
  have hgen : decode v = .ok .gen ↔ v = 0x02#64 := decode_ok_iff
  have hscan : decode v = .ok .scan ↔ v = 0x03#64 := decode_ok_iff
  refine ⟨hinit, hgen, hscan, ?_⟩
  rw [Ne, Ne, Ne, ← hinit, ← hgen, ← hscan]
  cases decode v with
  | error why => simp
  | ok i => cases i <;> simp

/-- Settles O2, by decoding each of the eight words. -/
theorem opcodeMapWordsDecode : Obligations.OpcodeMapWordsDecode := by
  unfold Obligations.OpcodeMapWordsDecode
  decide

/-- Settles O3: the decoder answers a command on the word the encoder gives it and on no other. -/
theorem encodeAndDecodeAgree : Obligations.EncodeAndDecodeAgree := by
  intro i _
  have hwf : wordWf (encode i) = true := by cases i <;> decide
  exact ⟨decode_encode i, hwf, fun v hv => decode_ok_iff.mp hv⟩

end Sys2Proof.Proofs
end

section
/-! The register family: STATUS field by field (R36), and what a host read returns after a write (R44, R47, R48). -/

namespace Sys2Proof.Machine

/-! The fields of STATUS -/

section
variable (e : Engine)

theorem statusWord_busy : e.statusWord.getLsbD 0 = e.busy := by
  simp (disch := decide) only [Engine.statusWord, bit_low]
  cases e.busy <;> rfl

theorem statusWord_tplValid : e.statusWord.getLsbD 1 = e.status.tplValid := by
  simp (disch := decide) only [Engine.statusWord, bit_high, bit_low]
  cases e.status.tplValid <;> rfl

theorem statusWord_done : e.statusWord.getLsbD 2 = e.status.done := by
  simp (disch := decide) only [Engine.statusWord, bit_high, bit_low]
  cases e.status.done <;> rfl

theorem statusWord_err : e.statusWord.getLsbD 3 = e.status.err := by
  simp (disch := decide) only [Engine.statusWord, bit_high, bit_low]
  cases e.status.err <;> rfl

theorem statusWord_errcode : e.statusWord.extractLsb' 8 8 = e.status.errcode := by
  simp (disch := decide) only [Engine.statusWord, extract_high, extract_low]
  exact extract_self _

theorem statusWord_reject : e.statusWord.getLsbD 16 = e.status.reject := by
  simp (disch := decide) only [Engine.statusWord, bit_high, bit_low]
  cases e.status.reject <;> rfl

end

/-! Operand registers -/

/-- The operand registers, GENSIG0 to GENSIG3 among them (R44, R45). -/
def Register.holdsOperand : Register → Bool
  | .caps | .cmd | .status | .irqEn | .bestDeadline | .bestOffset => false
  | .bufAddr | .accountId | .startNonce | .count | .scoop | .gensig0 | .gensig1 | .gensig2 | .gensig3 => true

/-- The offset of a register (R32). -/
def Register.offset : Register → Nat
  | .caps => 0x00
  | .cmd => 0x08
  | .status => 0x10
  | .irqEn => 0x18
  | .bufAddr => 0x20
  | .accountId => 0x28
  | .startNonce => 0x30
  | .count => 0x38
  | .scoop => 0x40
  | .bestDeadline => 0x50
  | .bestOffset => 0x58
  | .gensig0 => 0x60
  | .gensig1 => 0x68
  | .gensig2 => 0x70
  | .gensig3 => 0x78

theorem offset_of_registerAt {off : Nat} {r : Register} (h : registerAt off = some r) : off = r.offset := by
  unfold registerAt at h
  split at h <;> cases h <;> rfl

theorem registerAt_operand {off : Nat} (h : off ∈ [0x20, 0x28, 0x30, 0x38, 0x40, 0x60, 0x68, 0x70, 0x78]) :
    ∃ r, registerAt off = some r ∧ r.holdsOperand = true := by
  have hall : ∀ off ∈ [0x20, 0x28, 0x30, 0x38, 0x40, 0x60, 0x68, 0x70, 0x78],
      (registerAt off).any Register.holdsOperand = true := by decide
  exact (Option.any_eq_true ..).mp (hall off h)

theorem Engine.readOffset_of_registerAt {off : Nat} {r : Register} (h : registerAt off = some r) (e : Engine) :
    e.readOffset off = e.readRegister r := by
  simp only [Engine.readOffset, h]

/-- A read at an offset, from the reads of the registers. -/
theorem Engine.readOffset_congr {e e' : Engine} {off : Nat}
    (h : ∀ r, registerAt off = some r → e'.readRegister r = e.readRegister r) : e'.readOffset off = e.readOffset off := by
  cases hr : registerAt off with
  | none => rw [readOffset_none hr, readOffset_none hr]
  | some r => rw [readOffset_of_registerAt hr, readOffset_of_registerAt hr, h r hr]

theorem Engine.writeOffset_operand {off : Nat} {r : Register} (h : registerAt off = some r) (hr : r.holdsOperand = true)
    (e : Engine) (v : Word) : e.writeOffset off v = { e with operands := e.operands.write r v } := by
  rw [writeOffset, h]
  cases r with
  | status | irqEn => cases hr
  | caps | cmd | bufAddr | accountId | startNonce | count | scoop | bestDeadline | bestOffset | gensig0 | gensig1
  | gensig2 | gensig3 => rfl

theorem Engine.readRegister_writeOperand (e : Engine) (v : Word) {r : Register} (hr : r.holdsOperand = true)
    (q : Register) :
    Engine.readRegister { e with operands := e.operands.write r v } q = if q = r then v else e.readRegister q := by
  cases r with
  | caps | cmd | status | irqEn | bestDeadline | bestOffset => cases hr
  | bufAddr | accountId | startNonce | count | scoop | gensig0 | gensig1 | gensig2 | gensig3 => cases q <;> rfl

theorem Engine.readRegister_doneIe (e : Engine) (b : Bool) {q : Register} (hq : q ≠ .irqEn) :
    Engine.readRegister { e with doneIe := b } q = e.readRegister q := by
  cases q with
  | irqEn => exact absurd rfl hq
  | caps | cmd | status | bufAddr | accountId | startNonce | count | scoop | bestDeadline | bestOffset | gensig0
  | gensig1 | gensig2 | gensig3 => rfl

theorem irqEnWord_eq (e : Engine) : e.irqEnWord = if e.doneIe = true then 1#64 else 0#64 := by
  rw [Engine.irqEnWord]
  cases e.doneIe <;> rfl

/-- Of the parameters, a reset instance shows CAPS only, so that any configuration stands for every other. -/
theorem reset_readRegister (c : EngineConfig) {r : Register} (hr : r ≠ .caps) :
    (Engine.reset c).readRegister r = 0#64 := by
  have hdoc : (Engine.reset c).readRegister r = (Engine.reset .doc).readRegister r := by
    cases r with
    | caps => exact absurd rfl hr
    | cmd | status | irqEn | bufAddr | accountId | startNonce | count | scoop | bestDeadline | bestOffset | gensig0
    | gensig1 | gensig2 | gensig3 => rfl
  rw [hdoc]
  revert hr
  cases r <;> decide

theorem reset_readOffset (c : EngineConfig) {off : Nat} (hoff : off ≠ 0x00) : (Engine.reset c).readOffset off = 0#64 := by
  cases hr : registerAt off with
  | none => exact Engine.readOffset_none hr _
  | some r =>
    rw [Engine.readOffset_of_registerAt hr]
    exact reset_readRegister c (by rintro rfl; exact hoff (offset_of_registerAt hr))

end Sys2Proof.Machine

namespace Sys2Proof.Proofs

open Sys2Proof.Machine

/-- Settles O6: the word is read field by field, and the write is that of the STATUS rule. -/
theorem statusFieldsAndWriteOneToClear : Obligations.StatusFieldsAndWriteOneToClear := by
  intro e v
  refine ⟨⟨statusWord_busy e, statusWord_tplValid e, statusWord_done e, statusWord_err e, statusWord_reserved_low e,
    statusWord_errcode e, statusWord_reject e, statusWord_reserved_high e⟩, ?_⟩
  rw [e.writeOffset_status]
  simp only [Status.writeOneToClear, Bool.and_eq_true, Bool.not_eq_true', true_and]
  exact ⟨rfl, reset_readOffset e.cfg (by decide)⟩

/-- Settles O7: a read at another offset is of another register. -/
theorem writtenRegisterReadsBack : Obligations.WrittenRegisterReadsBack := by
  intro e v off other
  refine ⟨fun hoff => ?_, ?_, fun hother => ?_⟩
  · obtain ⟨r, hr, hoperand⟩ := registerAt_operand hoff
    rw [Engine.writeOffset_operand hr hoperand]
    refine ⟨?_, fun hother => Engine.readOffset_congr fun q hq => ?_⟩
    · rw [Engine.readOffset_of_registerAt hr, e.readRegister_writeOperand v hoperand, if_pos rfl]
    · have hne : q ≠ r := by
        rintro rfl
        exact hother ((offset_of_registerAt hq).trans (offset_of_registerAt hr).symm)
      rw [e.readRegister_writeOperand v hoperand, if_neg hne]
  · rw [e.writeOffset_irqEn, Engine.readOffset_irqEn, irqEnWord_eq]
  · rw [e.writeOffset_irqEn]
    refine Engine.readOffset_congr fun q hq => e.readRegister_doneIe _ ?_
    rintro rfl
    exact hother (offset_of_registerAt hq)

end Sys2Proof.Proofs
end

section
/-! The reset family: what reset and loss of power leave of memory (R206), the free values of an instance that lost its
state (U28), and the state of the machine right after reset (R205). -/

namespace Sys2Proof.Machine

/-! An abandoned GEN -/

section
variable {s : State} (hm : s.mem.wf) (hg : s.eng.generates = true)
include hm hg

theorem abandon_read_inside {i : Nat} (hi : i < s.eng.latched.count.toNat * 262144)
    (ha : s.answersAt (s.eng.latched.buf.toNat + i) = true) :
    s.abandon.mem.read (s.eng.latched.buf.toNat + i) = Config.freeByte (s.draws + i) := by
  rw [State.abandon_gen hg, State.freeRange_mem]
  exact Memory.read_fillFree_inside hm hi ha

theorem abandon_read_outside {a : Nat} (ha : Range.holds s.eng.region a = false) :
    s.abandon.mem.read a = s.mem.read a := by
  rw [State.abandon_gen hg, State.freeRange_mem]
  exact Memory.read_fillFree_outside hm (Range.holds_false.mp ha)

end

theorem atWindow_of_focus {s t : State} {a : Nat} (h : s.focus a = some t)
    (k : Nat → State → Host.Outcome State Fault Refusal) : s.atWindow a k = k (a - t.eng.cfg.mmioBase) t := by
  rw [State.atWindow, h]

theorem grant_fixed {s : State} (h : turn s = s) : grant s = .next s := by
  have hall (n : Nat) : runTurns n s = s := by
    induction n with
    | zero => rfl
    | succ n ih =>
      cases hb : s.eng.busy with
      | false => exact runTurns_idle hb _
      | true => rw [runTurns_busy hb, h, ih]
  rw [grant, hall]

/-! An instance that lost its state -/

/-- STATUS has no other field: words that agree on each field of it are the same. -/
theorem eq_of_statusFields {v w : Word} (hbits : ∀ i ∈ [0, 1, 2, 3, 16], v.getLsbD i = w.getLsbD i)
    (hlow : v.extractLsb' 4 4 = w.extractLsb' 4 4) (hcode : v.extractLsb' 8 8 = w.extractLsb' 8 8)
    (hhigh : v.extractLsb' 17 47 = w.extractLsb' 17 47) : v = w := by
  have hfield {start len : Nat} (h : v.extractLsb' start len = w.extractLsb' start len) {i : Nat}
      (hi : start ≤ i ∧ i < start + len) : v.getLsbD i = w.getLsbD i := by
    have hbit := congrArg (fun x => x.getLsbD (i - start)) h
    have hlt : i - start < len := by omega
    simpa [BitVec.getLsbD_extractLsb', hlt, Nat.add_sub_cancel' hi.1] using hbit
  refine BitVec.eq_of_getLsbD_eq fun i hi => ?_
  by_cases hone : i ∈ [0, 1, 2, 3, 16]
  · exact hbits i hone
  · simp only [List.mem_cons, List.not_mem_nil] at hone
    rcases (by omega : 4 ≤ i ∧ i < 4 + 4 ∨ 8 ≤ i ∧ i < 8 + 8 ∨ 17 ≤ i ∧ i < 17 + 47) with h | h | h
    · exact hfield hlow h
    · exact hfield hcode h
    · exact hfield hhigh h

/-- A STATUS taken from a word shows the word's defined bits. -/
theorem statusWord_ofWord {e : Engine} {v : Word} (hstatus : e.status = Status.ofWord v) (hbusy : e.busy = v.getLsbD 0) :
    e.statusWord = v &&& 0x1FF0F#64 := by
  have hmask : ∀ i ∈ [0, 1, 2, 3, 16], (0x1FF0F#64).getLsbD i = true := by decide
  apply eq_of_statusFields
  · intro i hi
    rw [BitVec.getLsbD_and, hmask i hi, Bool.and_true]
    simp only [List.mem_cons, List.not_mem_nil, or_false] at hi
    rcases hi with rfl | rfl | rfl | rfl | rfl
    · rw [statusWord_busy, hbusy]
    · rw [statusWord_tplValid, hstatus, Status.ofWord_tplValid]
    · rw [statusWord_done, hstatus, Status.ofWord_done]
    · rw [statusWord_err, hstatus, Status.ofWord_err]
    · rw [statusWord_reject, hstatus, Status.ofWord_reject]
  · rw [statusWord_reserved_low, BitVec.extractLsb'_and, show (0x1FF0F#64).extractLsb' 4 4 = 0#4 by decide,
      BitVec.and_zero]
  · rw [statusWord_errcode, hstatus, Status.ofWord_errcode, BitVec.extractLsb'_and,
      show (0x1FF0F#64).extractLsb' 8 8 = BitVec.allOnes 8 by decide, BitVec.and_allOnes]
  · rw [statusWord_reserved_high, BitVec.extractLsb'_and, show (0x1FF0F#64).extractLsb' 17 47 = 0#47 by decide,
      BitVec.and_zero]

theorem irqEnWord_mask {e : Engine} {v : Word} (h : e.doneIe = v.getLsbD 0) : e.irqEnWord = v &&& 0x1#64 := by
  refine BitVec.eq_of_getLsbD_eq fun i hi => ?_
  rw [BitVec.getLsbD_and]
  rcases Nat.eq_zero_or_pos i with rfl | hpos
  · rw [Engine.irqEnWord, bit_low _ _ (by decide), h]
    cases v.getLsbD 0 <;> rfl
  · have hone : (0x1#64).getLsbD i = false := by simp [Nat.ne_of_gt hpos]
    rw [Engine.irqEnWord, bit_high _ _ hpos, hone, BitVec.getLsbD_zero, Bool.and_false]

theorem unretained_busy (e : Engine) (d : Nat) : (e.unretained d).busy = (Config.freeWord d).getLsbD 0 := by
  rw [Engine.busy, Engine.unretained_run]
  cases (Config.freeWord d).getLsbD 0 <;> rfl

theorem unretained_generates (e : Engine) (d : Nat) : (e.unretained d).generates = false := by
  rw [Engine.generates, Engine.unretained_run]
  cases (Config.freeWord d).getLsbD 0 <;> rfl

/-- The registers stored as free words, in the order in which they are drawn. -/
theorem unretained_readOffset (e : Engine) (d k off : Nat)
    (h : ([0x20, 0x28, 0x30, 0x38, 0x40, 0x60, 0x68, 0x70, 0x78, 0x50, 0x58] : List Nat)[k]? = some off) :
    (e.unretained d).readOffset off = Config.freeWord (d + 2 + k) := by
  have hk : k < 11 := (List.getElem?_eq_some_iff.mp h).1
  interval_cases k <;> cases h <;> rfl

/-- No turn does anything to what an instance without its state runs. -/
theorem turn_losePower (s : State) : turn s.losePower = s.losePower := by
  rw [turn, State.losePower_eng, Engine.unretained_run]
  cases (Config.freeWord s.abandon.draws).getLsbD 0 <;> rfl

end Sys2Proof.Machine

namespace Sys2Proof.Proofs

open Sys2Proof.Machine

/-- Settles O53: the instance is the reset one, and memory that of the abandoned command. -/
theorem resetEventClearsTheInstance : Obligations.ResetEventClearsTheInstance := by
  intro s hm
  refine ⟨rfl, rfl, rfl, rfl, fun off hoff => reset_readOffset s.eng.cfg hoff, s.resetEngine_peers, ?_, ?_, ?_⟩
  · intro u a p rest hinputs hfocus
    rw [step_access hinputs, performAccess, atWindow_of_focus hfocus]
    exact grant_idle rfl
  · intro hg
    rw [s.resetEngine_mem, State.abandon_other hg]
  · exact fun hg => ⟨fun i hi => abandon_read_inside hm hg hi, fun a => abandon_read_outside hm hg⟩

/-- Settles O54: every register of the instance is one of the free values drawn, from the first on. -/
theorem powerLossFreesEveryRegister : Obligations.PowerLossFreesEveryRegister := by
  intro s hm
  rw [State.losePower_eng, State.losePower_mem]
  refine ⟨⟨s.abandon.draws, ?_, ?_, fun k off => unretained_readOffset s.eng s.abandon.draws k off⟩, rfl, rfl,
    turn_losePower s, s.losePower_peers, ?_, ?_, ?_, ?_, ?_⟩
  · exact statusWord_ofWord rfl (unretained_busy s.eng _)
  · exact irqEnWord_mask rfl
  · intro u a p rest hinputs hfocus
    rw [step_access hinputs, performAccess, atWindow_of_focus hfocus]
    exact grant_fixed (turn_losePower s)
  · intro hg
    rw [State.abandon_other hg]
  · exact fun hg => ⟨fun i hi => abandon_read_inside hm hg hi, fun a => abandon_read_outside hm hg⟩
  · rw [State.resetEngine_eng, State.losePower_eng, Engine.unretained_cfg]
  · have hlost : s.losePower.eng.generates = false := by rw [State.losePower_eng, unretained_generates]
    rw [State.resetEngine_mem, State.abandon_other hlost, State.losePower_mem]

/-- Settles O55: the reset state is one concrete state. -/
theorem resetStateRegisters : Obligations.ResetStateRegisters :=
  ⟨by decide, fun _ _ => reset_readOffset .doc (by omega), rfl⟩

/-- Settles O56: its one instance is a reset one, with legal parameters. -/
theorem resetStateMeetsTheInvariant : Obligations.ResetStateMeetsTheInvariant := by
  have hlegal : EngineConfig.doc.Legal := by decide
  refine ⟨⟨Memory.wf_nil, ?_, List.nodup_singleton _, List.nodup_nil⟩, ?_⟩
  · exact List.forall_mem_singleton.mpr hlegal
  · exact List.forall_mem_singleton.mpr (Engine.reset_ok hlegal)

end Sys2Proof.Proofs
end

section
/-! The hash messages: Pad and the blocks of a padded message (R19), the block schedule of the rounds and of the final hash
(R139, R141), and its work in 64-byte compressions (R220). -/

namespace Sys2Proof.Machine

/-! Pad -/

theorem pad_least {m : List Byte} {y : Nat} (h : (m.length + 1 + y) % 64 = 0) : 63 - m.length % 64 ≤ y := by
  omega

theorem pad_aligned {m : List Byte} (h : m.length % 64 = 0) : pad m = m ++ term32.toList ++ zero32.toList := by
  rw [pad, h, term32_toList, zero32_toList, List.append_assoc, List.cons_append, List.replicate_append_replicate]

/-! The calls of the block schedule -/

theorem roundShape_odd {cb k : Nat} (hk : k ≤ cb) (hodd : k % 2 = 1) : roundShape cb k = .t1 := by
  rw [roundShape, if_neg (Nat.not_lt.mpr hk), if_pos hodd]

theorem roundShape_even {cb k : Nat} (hk : k ≤ cb) (heven : k % 2 = 0) : roundShape cb k = .t2 := by
  rw [roundShape, if_neg (Nat.not_lt.mpr hk), if_neg (by omega)]

theorem roundShape_capped {cb k : Nat} (hk : cb < k) : roundShape cb k = .t3 := by
  rw [roundShape, if_pos hk]

theorem roundData_odd {cb k : Nat} (hk : k ≤ cb) (hodd : k % 2 = 1) (above : List HashBlock) :
    roundData cb k above = pairBlocks above := by
  rw [roundData, roundShape_odd hk hodd]

theorem roundData_even {cb k : Nat} (hk : k ≤ cb) (heven : k % 2 = 0) (above : List HashBlock) :
    roundData cb k above = pairBlocks above.dropLast := by
  rw [roundData, roundShape_even hk heven]

theorem roundData_capped {cb k : Nat} (hk : cb < k) (above : List HashBlock) :
    roundData cb k above = pairBlocks (above.take cb) := by
  rw [roundData, roundShape_capped hk]

/-- The data blocks of every round are as many as the schedule says, K(k). -/
theorem roundData_length {cb k : Nat} {above : List HashBlock} (h : above.length = k - 1) :
    (roundData cb k above).length = roundBlocks cb k := by
  rw [roundBlocks]
  rcases Nat.lt_or_ge cb k with hk | hk
  · rw [roundData_capped hk, pairBlocks_length, List.length_take, if_pos hk]
    omega
  · rw [if_neg (Nat.not_lt.mpr hk)]
    rcases Nat.mod_two_eq_zero_or_one k with hpar | hpar
    · rw [roundData_even hk hpar, pairBlocks_length, List.length_dropLast]
      omega
    · rw [roundData_odd hk hpar, pairBlocks_length, h]

theorem hash_round (bh : List Block → HashBlock) {cb k : Nat} (a v : Word) {above : List HashBlock} (hk : 1 ≤ k)
    (hcb : cb % 2 = 0) (hl : above.length = k - 1) :
    hashFast bh (roundData cb k above) (finalBlock (roundShape cb k) a v above) =
      hash bh (roundMessage cb k above (s16 a v)) := by
  rw [hash, paddedBlocks_round cb k a v above hk hcb hl, hashFast]

theorem finalCall_eq_hash (bh : List Block → HashBlock) (tail : Bool) (a v : Word) {chain : List HashBlock}
    (h : chain.length % 2 = 0) : finalCall bh tail a v chain = hash bh (finalMessage tail chain (s16 a v)) := by
  rw [hash, paddedBlocks_final tail a v chain h, finalCall, hashFast]

/-! Work -/

theorem nonceCompressions_eq (bh : List Block → HashBlock) {m : Nat} (hm : m ≤ 4096) (a v : Word) :
    nonceCompressions bh (2 * m) a v = m * m + m + (8192 - 2 * m) * (m + 1) + 4097 := by
  have hround (k : Nat) : (roundData (2 * m) (k + 1) (chainAfter bh (2 * m) (s16 a v) k)).length + 1 =
      roundBlocks (2 * m) (k + 1) + 1 := by
    rw [roundData_length (chainAfter_length bh (2 * m) (s16 a v) k)]
  have hrange : blocksPerNonce = 2 * m + (8192 - 2 * m) := by rw [blocksPerNonce]; omega
  have hrounds := sum_capped m (8192 - 2 * m)
  rw [← hrange] at hrounds
  have hfinal : blocksPerNonce / 2 + 1 = 4097 := by decide
  simp only [nonceCompressions, hround, hrounds, pairBlocks_length, chainAfter_length, hfinal]

end Sys2Proof.Machine

namespace Sys2Proof.Proofs

open Sys2Proof.Machine

/-- Settles O14: the padded length is a multiple of 64, and the blocks cut from it are its bytes. -/
theorem hashPadsToWholeBlocks : Obligations.HashPadsToWholeBlocks := by
  refine ⟨rfl, fun bh m => ⟨⟨63 - m.length % 64, rfl, ?_, fun y => pad_least⟩, pad_aligned, paddedBlocks m, rfl,
    paddedBlocks_flatMap m⟩⟩
  rw [pad_length, Nat.mul_mod_right]

/-- Settles O15: the data blocks and the final block are the blocks of the padded message, and the round index selects both. -/
theorem roundCallIsTheHashOfItsMessage : Obligations.RoundCallIsTheHashOfItsMessage := by
  intro bh cb k a v above hcb _ hk _ hl
  have hpadded := paddedBlocks_round cb k a v above hk hcb hl
  have hlength := congrArg List.length hpadded
  rw [paddedBlocks_length, List.length_append, List.length_singleton] at hlength
  refine ⟨roundData cb k above, finalBlock (roundShape cb k) a v above, rfl, hash_round bh a v hk hcb hl, by omega, ?_,
    fun hle hodd => ?_, fun hle heven => ?_, fun hlt => ?_⟩
  · rw [← hpadded, paddedBlocks_flatMap]
  · rw [roundData_odd hle hodd, roundShape_odd hle hodd, pairBlocks_length, hl, pairBlocks_flatMap _ (by omega)]
    exact ⟨rfl, rfl, rfl⟩
  · have hdrop : above.dropLast.length = k - 2 := by rw [List.length_dropLast, hl]; omega
    rw [roundData_even hle heven, roundShape_even hle heven, pairBlocks_length, hdrop, pairBlocks_flatMap _ (by omega)]
    exact ⟨rfl, rfl, rfl⟩
  · have htake : (above.take cb).length = cb := List.length_take_of_le (by omega)
    rw [roundData_capped hlt, roundShape_capped hlt, pairBlocks_length, htake, pairBlocks_flatMap _ (by omega)]
    exact ⟨rfl, rfl, rfl⟩

/-- Settles O16: 8192 HashBlocks are a whole number of data blocks, so that the tail alone selects the final block. -/
theorem finalCallIsTheHashOfTheChain : Obligations.FinalCallIsTheHashOfTheChain := by
  intro bh a v chain hl
  have heven : chain.length % 2 = 0 := by rw [hl]
  refine ⟨⟨?_, rfl⟩, ⟨finalCall_eq_hash bh true a v heven, rfl⟩, ?_⟩
  · rw [finalCall_eq_hash bh false a v heven, finalMessage, if_neg Bool.false_ne_true, List.append_nil]
  · rw [pairBlocks_length, hl]

/-- Settles O19: the data blocks of a capped round are its window, and its final block is a constant. -/
theorem cappedRoundReadsOnlyItsWindow : Obligations.CappedRoundReadsOnlyItsWindow := by
  intro bh cb k a a' v v' above above' hk hwindow
  rw [roundCall, roundCall, roundData_capped hk, roundData_capped hk, roundShape_capped hk, hwindow]
  rfl

/-- Settles O20: the two configurations are those of 2048 and of 64 pairs in the window. -/
theorem compressionsPerNonce : Obligations.CompressionsPerNonce := by
  intro bh a v
  refine ⟨fun m _ hm => ⟨nonceCompressions_eq bh hm a v, fun k _ _ => ?_⟩, ?_, ?_, fun _ _ _ => ⟨_, rfl⟩,
    fun _ _ => ⟨_, rfl⟩⟩
  · exact roundData_length (chainAfter_length bh (2 * m) (s16 a v) (k - 1))
  · exact nonceCompressions_eq bh (m := 2048) (by omega) a v
  · exact nonceCompressions_eq bh (m := 64) (by omega) a v

end Sys2Proof.Proofs
end

section
/-! SCAN's reduction: the running pair is the least deadline at the least index that has it (R167, R168), and the call of the
scoop digest (R164). -/

namespace Sys2Proof.Machine

/-- The pair is the least of the first `n` deadlines, at the least index that has it. -/
structure Best.LeastOf (p : Best) (f : Nat → Word) (n : Nat) : Prop where
  bound : p.index < n
  value : p.value = f p.index
  least : ∀ i < n, p.value ≤ f i
  first : ∀ i < p.index, p.value < f i

theorem Best.LeastOf.update {p : Best} {f : Nat → Word} {n : Nat} (h : p.LeastOf f n) :
    (p.update n (f n)).LeastOf f (n + 1) := by
  rw [Best.update]
  split
  · next hless =>
    have hbelow : ∀ i < n, f n < f i := fun i hi => Std.lt_of_lt_of_le hless (h.least i hi)
    refine ⟨Nat.lt_succ_self n, rfl, fun i hi => ?_, hbelow⟩
    rcases Nat.lt_succ_iff_lt_or_eq.mp hi with hi | rfl
    · exact BitVec.le_of_lt (hbelow i hi)
    · exact BitVec.le_refl _
  · next hmore =>
    refine ⟨Nat.lt_succ_of_lt h.bound, h.value, fun i hi => ?_, h.first⟩
    rcases Nat.lt_succ_iff_lt_or_eq.mp hi with hi | rfl
    · exact h.least i hi
    · exact BitVec.not_lt.mp hmore

/-- No deadline is above the initial pair's value, so the first buffer is a result whatever its deadline. -/
theorem Best.LeastOf.initial (f : Nat → Word) : (Best.initial.update 0 (f 0)).LeastOf f 1 := by
  have hvalue : Best.initial.update 0 (f 0) = { value := f 0, index := 0 } := by
    rw [Best.update]
    split
    · rfl
    · next hmore =>
      have htop : f 0 = BitVec.allOnes 64 := by
        have hmax : BitVec.allOnes 64 = 0xFFFFFFFFFFFFFFFF#64 := by decide
        rw [Best.initial, hmax] at hmore
        rw [hmax]
        bv_omega
      rw [htop]
      rfl
  rw [hvalue]
  refine ⟨Nat.zero_lt_one, rfl, fun i hi => ?_, fun i hi => absurd hi (Nat.not_lt_zero i)⟩
  rw [Nat.lt_one_iff.mp hi]
  exact BitVec.le_refl _

theorem bestAfter_succ (cfg : EngineConfig) (l : Latched) (m : Memory) (n : Nat) :
    bestAfter cfg l m (n + 1) = (bestAfter cfg l m n).update n (deadlineOf cfg l m n) :=
  bestAfter_add cfg l m n 1

theorem bestAfter_leastOf (cfg : EngineConfig) (l : Latched) (m : Memory) (n : Nat) :
    (bestAfter cfg l m (n + 1)).LeastOf (deadlineOf cfg l m) (n + 1) := by
  induction n with
  | zero => rw [bestAfter_succ]; exact Best.LeastOf.initial _
  | succ n ih => rw [bestAfter_succ]; exact ih.update

theorem scanResult_leastOf (cfg : EngineConfig) {l : Latched} (m : Memory) (h : 1 ≤ l.count.toNat) :
    (scanResult cfg l m).LeastOf (deadlineOf cfg l m) l.count.toNat := by
  have hleast := bestAfter_leastOf cfg l m (l.count.toNat - 1)
  rwa [Nat.sub_add_cancel h] at hleast

theorem scoopCall_eq_hash (bh : List Block → HashBlock) (g a b : HashBlock) :
    scoopCall bh g a b = hash bh (g.toList ++ a.toList ++ b.toList) := by
  rw [hash, paddedBlocks_scoop]
  rfl

end Sys2Proof.Machine

namespace Sys2Proof.Proofs

open Sys2Proof.Machine

/-- Settles O33: each buffer that is reduced keeps the running pair the least so far, at its least index. -/
theorem scanResultIsTheLeastDeadline : Obligations.ScanResultIsTheLeastDeadline := by
  intro cfg l m hcount
  obtain ⟨hbound, hvalue, hleast, hfirst⟩ := scanResult_leastOf cfg m hcount
  exact ⟨hbound, hvalue, hleast, hfirst⟩

/-- Settles O34: `G ‖ A` and T4 are the two blocks of the padded message. -/
theorem scoopCallIsTheHashOfGensigAndScoop : Obligations.ScoopCallIsTheHashOfGensigAndScoop :=
  fun bh g a b => ⟨scoopCall_eq_hash bh g a b, rfl, rfl⟩

end Sys2Proof.Proofs
end

section
/-! The launch family: the checks in their order (R182), a launch whose checks pass (R113), a REGION over a device (R78), and
commands without a nonce buffer (R153, R170). -/

namespace Sys2Proof.Machine

/-! ADDR_RANGE -/

section
variable {l : Latched} {n : Nat}

theorem Latched.fits_iff : l.fits n = true ↔ l.buf.toNat + l.count.toNat * 262144 ≤ 2 ^ n := by
  rw [Latched.fits, decide_eq_true_iff]

theorem Latched.fits_false (h : 2 ^ n < l.buf.toNat + l.count.toNat * 262144) : l.fits n = false := by
  rw [Bool.eq_false_iff, Ne, Latched.fits_iff]
  exact Nat.not_le.mpr h

theorem Latched.genFits_false (h : 2 ^ n < l.buf.toNat + l.count.toNat * 262144) (hcount : l.count ≠ 0#64) :
    l.genFits n = false := by
  rw [Latched.genFits, Latched.fits_false h, Bool.or_false]
  exact beq_eq_false_iff_ne.mpr hcount

theorem Latched.genFits_empty (h : l.count = 0#64) : l.genFits n = true := by
  rw [Latched.genFits, h]
  rfl

end

/-! Commands over no nonce buffer -/

theorem Range.overlaps_nothing {r q : Range} (h : q.len = 0) : Range.overlaps q r = false := by
  rw [Range.overlaps_comm, Range.overlaps_empty h]

theorem Latched.region_empty {l : Latched} (h : l.count = 0#64) : l.region.len = 0 := by
  rw [Latched.region, h]
  exact Nat.zero_mul _

theorem State.touchesDevice_empty (s : State) {r : Range} (h : r.len = 0) : s.touchesDevice r = false := by
  rw [State.touchesDevice, List.any_eq_false]
  exact fun d _ => Bool.eq_false_iff.mp (Range.overlaps_empty h)

theorem Latched.scanReads_empty (l : Latched) {r : Range} (h : r.len = 0) : l.scanReads r = false := by
  rw [Latched.scanReads, List.any_eq_false]
  intro n _
  rw [Range.overlaps_nothing h, Range.overlaps_nothing h]
  decide

theorem Latched.scanReads_no_buffer {l : Latched} (h : l.count = 0#64) (r : Range) : l.scanReads r = false := by
  rw [Latched.scanReads, h]
  rfl

section
variable {e : Engine} (h : e.latched.count = 0#64) (o : Engine)
include h

/-- A command over no nonce buffer races with nothing beside it. -/
theorem Engine.contend_of_empty : e.contend o = e := by
  have hregion : Range.overlaps e.region o.region = false := Range.overlaps_nothing (Latched.region_empty h)
  unfold Engine.contend
  split
  · exact if_neg (Bool.eq_false_iff.mp hregion)
  · exact if_neg (Bool.eq_false_iff.mp hregion)
  · exact if_neg (Bool.eq_false_iff.mp (Latched.scanReads_no_buffer h _))
  · rfl

/-- Nothing races with a command over no nonce buffer beside it. -/
theorem Engine.contend_with_empty : o.contend e = o := by
  have hregion : Range.overlaps o.region e.region = false := Range.overlaps_empty (Latched.region_empty h)
  unfold Engine.contend
  split
  · exact if_neg (Bool.eq_false_iff.mp hregion)
  · exact if_neg (Bool.eq_false_iff.mp hregion)
  · exact if_neg (Bool.eq_false_iff.mp (o.latched.scanReads_empty (Latched.region_empty h)))
  · rfl

end

theorem State.begun_empty {s : State} (h : s.eng.operands.count = 0#64) (i : Instr) :
    s.begun i = s.withEng (s.eng.started (firstRun s.eng i)) :=
  State.contend_same fun p _ => ⟨Engine.contend_of_empty h p, Engine.contend_with_empty h p⟩

theorem turn_gen {s : State} {g : GenRun} (h : s.eng.run = some (.gen g)) : turn s = genTurn g s := by
  rw [turn, h]

theorem turn_scan {s : State} {r : ScanRun} (h : s.eng.run = some (.scan r)) : turn s = scanTurn r s := by
  rw [turn, h]

/-- A command that its next turn ends. -/
theorem finish_last_turn {s : State} (hb : s.eng.busy = true) (hleft : 0 < turnsLeft s.eng)
    (hidle : (turn s).eng.busy = false) : finish s = turn s := by
  obtain ⟨n, hn⟩ := Nat.exists_eq_succ_of_ne_zero (Nat.ne_of_gt hleft)
  rw [finish, hn, Nat.succ_eq_add_one, runTurns_busy hb, runTurns_idle hidle]

theorem finish_gen_empty {s : State} {g : GenRun} (hrun : s.eng.run = some (.gen g)) (h : s.eng.latched.count = 0#64) :
    finish s = genComplete s := by
  have hdone : s.eng.latched.count.toNat ≤ g.first := by rw [h]; exact Nat.zero_le _
  have hturn : turn s = genComplete s := (turn_gen hrun).trans (genTurn_done hdone)
  rw [← hturn]
  refine finish_last_turn (by rw [Engine.busy, hrun]; rfl) ?_ (by rw [hturn]; rfl)
  rw [turnsLeft, hrun]
  simp only [genTurnsLeft, if_neg (Nat.not_lt.mpr hdone), Nat.zero_lt_one]

theorem finish_scan_empty {s : State} {r : ScanRun} (hrun : s.eng.run = some (.scan r)) (hfetch : r.pos = .fetch)
    (h : s.eng.latched.count = 0#64) : finish s = scanComplete r.best s := by
  have hdone : s.eng.latched.count.toNat ≤ r.first := by rw [h]; exact Nat.zero_le _
  have hturn : turn s = scanComplete r.best s := (turn_scan hrun).trans (scanTurn_done hdone)
  rw [← hturn]
  refine finish_last_turn (by rw [Engine.busy, hrun]; rfl) ?_ ?_
  · rw [turnsLeft, hrun]
    simp only [scanTurnsLeft, hfetch, Nat.zero_lt_succ]
  · rw [hturn, scanComplete]
    split <;> rfl

/-- An empty command goes on as if it ran alone over ordinary memory. -/
theorem exec_empty {s : State} {i : Instr} (hidle : s.eng.busy = false) (hcode : s.launchCode i = .none)
    (hcount : s.eng.operands.count = 0#64) (hpace : s.pace = .untilDone) :
    exec i s = .next (finish (s.withEng (s.eng.started (firstRun s.eng i)))) := by
  have hdevice : s.touchesDevice (latch s.eng.operands).region = false :=
    s.touchesDevice_empty (Latched.region_empty hcount)
  rw [exec_begins hidle hcode fun _ => hdevice, State.begun_empty hcount, grant_untilDone hpace]

end Sys2Proof.Machine

namespace Sys2Proof.Proofs

open Sys2Proof.Machine

/-- Settles O22: each failing check gives its code, and a failed launch leaves the failed instance. -/
theorem launchChecksInOrder : Obligations.LaunchChecksInOrder := by
  intro s hidle
  refine ⟨fun htpl => ⟨?_, ?_⟩, fun htpl hscoop => ?_, fun htpl hrange => ⟨fun hcount => ?_, fun hscoop => ?_⟩⟩
  · exact exec_failed hidle (State.launchCode_noTemplate htpl (by decide)) (by decide)
  · exact exec_failed hidle (State.launchCode_noTemplate htpl (by decide)) (by decide)
  · refine exec_failed hidle ?_ (by decide)
    rw [State.launchCode_scan htpl, if_pos hscoop]
  · refine exec_failed hidle ?_ (by decide)
    rw [State.launchCode_gen htpl, Latched.genFits_false hrange hcount]
    rfl
  · refine exec_failed hidle ?_ (by decide)
    rw [State.launchCode_scan htpl, if_neg (Nat.not_lt.mpr hscoop), Latched.fits_false hrange]
    rfl

/-- Settles O23: no race is marked, and no turn is granted. -/
theorem passedLaunchStartsTheCommand : Obligations.PassedLaunchStartsTheCommand := by
  intro s hpace
  refine ⟨fun hidle => ?_, fun hstarts => ?_, fun hstarts => ?_⟩
  · rw [exec, execInit_starts hidle, grant_none hpace]
  · rw [exec, execGen_starts hstarts, grant_none hpace]
  · rw [exec, execScan_starts hstarts, grant_none hpace]

/-- Settles O42: the checks pass, and the REGION is looked at next. -/
theorem deviceRegionIsRefused : Obligations.DeviceRegionIsRefused := by
  intro s hidle htpl hfits hdevice
  refine ⟨?_, fun hscoop => ?_⟩
  · exact exec_refused hidle (State.launchCode_gen_passes htpl (Latched.genFits_of_fits hfits)) (by decide) hdevice
  · exact exec_refused hidle (State.launchCode_scan_passes htpl hscoop hfits) (by decide) hdevice

/-- Settles O37: the first turn of an empty command finds no buffer left. -/
theorem emptyCommandsComplete : Obligations.EmptyCommandsComplete := by
  intro s hidle htpl hcount hpace
  refine ⟨?_, fun hscoop hbuf => ?_⟩
  · have hcode : s.launchCode .gen = .none := State.launchCode_gen_passes htpl (Latched.genFits_empty hcount)
    rw [exec_empty hidle hcode hcount hpace, finish_gen_empty rfl hcount]
    rfl
  · have hfits : (latch s.eng.operands).fits s.eng.cfg.addrBits = true := by
      have hzero : (latch s.eng.operands).count = 0#64 := hcount
      rw [Latched.fits_iff, hzero]
      exact hbuf
    have hcode : s.launchCode .scan = .none := State.launchCode_scan_passes htpl hscoop hfits
    rw [exec_empty hidle hcode hcount hpace, finish_scan_empty rfl rfl hcount]
    rfl

end Sys2Proof.Proofs
end

section
/-! The frame of each command from its launch on, however many turns follow (R92, R117, R125, R173, R197). -/

namespace Sys2Proof.Machine

/-- What the launch of any command leaves, and the turns after it: of the other instances all but the record of races. -/
structure LaunchFrame (s t : State) : Prop where
  cfg : t.eng.cfg = s.eng.cfg
  doneIe : t.eng.doneIe = s.eng.doneIe
  operands : t.eng.operands = s.eng.operands
  reject : t.eng.status.reject = s.eng.status.reject
  latched : t.eng.latched = latch s.eng.operands
  peers : t.peers.map Engine.unraced = s.peers.map Engine.unraced
  rest : t.plat = s.plat ∧ t.hostCache = s.hostCache ∧ t.answer = s.answer ∧ t.inputs = s.inputs ∧ t.pace = s.pace

theorem LaunchFrame.failed (s : State) (code : ErrCode) : LaunchFrame s (s.withEng (s.eng.failed code)) :=
  ⟨rfl, rfl, rfl, rfl, rfl, rfl, ⟨rfl, rfl, rfl, rfl, rfl⟩⟩

theorem LaunchFrame.begun (s : State) (i : Instr) : LaunchFrame s (s.begun i) := by
  obtain ⟨rs, heng⟩ := s.begun_eng i
  refine ⟨?_, ?_, ?_, ?_, ?_, s.begun_peers_unraced i, ⟨rfl, rfl, rfl, rfl, rfl⟩⟩ <;> rw [heng] <;> rfl

theorem LaunchFrame.turns {s t u : State} (h : LaunchFrame s t) (k : TurnFrame t u) : LaunchFrame s u where
  cfg := k.cfg.trans h.cfg
  doneIe := k.doneIe.trans h.doneIe
  operands := k.operands.trans h.operands
  reject := k.reject.trans h.reject
  latched := k.latched.trans h.latched
  peers := by rw [k.peers, h.peers]
  rest := by rw [k.plat, k.hostCache, k.answer, k.inputs, k.pace]; exact h.rest

theorem exec_frame {s t : State} {i : Instr} (hidle : s.eng.busy = false) (h : exec i s = .next t) : LaunchFrame s t := by
  rcases exec_idle_cases hidle h with ⟨code, -, rfl⟩ | ⟨-, n, rfl⟩
  · exact .failed s code
  · exact (LaunchFrame.begun s i).turns (runTurns_frame n _)

/-! What a begun command has not changed -/

theorem State.begun_run (s : State) (i : Instr) : (s.begun i).eng.run = some (firstRun s.eng i) := by
  obtain ⟨rs, heng⟩ := s.begun_eng i
  rw [heng]
  rfl

theorem State.begun_registers (s : State) (i : Instr) :
    (s.begun i).eng.bestDeadline = s.eng.bestDeadline ∧ (s.begun i).eng.bestOffset = s.eng.bestOffset ∧
      (s.begun i).eng.status.tplValid = s.eng.status.tplValid ∧ (s.begun i).eng.status.err = false := by
  obtain ⟨rs, heng⟩ := s.begun_eng i
  rw [heng]
  exact ⟨rfl, rfl, rfl, rfl⟩

theorem State.begun_region (s : State) (i : Instr) : (s.begun i).eng.region = (latch s.eng.operands).region :=
  congrArg Latched.region (LaunchFrame.begun s i).latched

end Sys2Proof.Machine

namespace Sys2Proof.Proofs

open Sys2Proof.Machine

/-- Settles O31: the frame of every launch, that of a GEN's turns, and memory outside the REGION of an instance in order. -/
theorem genChangesNothingElse : Obligations.GenChangesNothingElse := by
  intro s t hok hidle hexec
  obtain ⟨hcfg, hie, hops, hreject, hlatched, hpeers, hrest⟩ := exec_frame hidle hexec
  suffices h : t.eng.bestDeadline = s.eng.bestDeadline ∧ t.eng.bestOffset = s.eng.bestOffset ∧
      t.eng.status.tplValid = s.eng.status.tplValid ∧
      ∀ a, Range.holds (latch s.eng.operands).region a = false → t.mem.read a = s.mem.read a by
    obtain ⟨hdeadline, hoffset, htpl, hmem⟩ := h
    exact ⟨⟨hcfg, hie, hops, hdeadline, hoffset, htpl, hreject, hlatched⟩, hpeers, hrest, hmem⟩
  rcases exec_idle_cases hidle hexec with ⟨code, -, rfl⟩ | ⟨hcode, n, rfl⟩
  · exact ⟨rfl, rfl, rfl, fun _ _ => rfl⟩
  · obtain ⟨hdeadline, hoffset, htpl⟩ := runTurns_gen n (.inr ⟨_, s.begun_run .gen⟩)
    obtain ⟨hdeadline', hoffset', htpl', -⟩ := s.begun_registers .gen
    obtain ⟨-, hmem⟩ := runTurns_mem n (hok.begun hcode).eng hok.mem
    rw [s.begun_region] at hmem
    exact ⟨hdeadline.trans hdeadline', hoffset.trans hoffset', htpl.trans htpl', hmem⟩

/-- Settles O38: the frame of every launch, and that of a SCAN's turns. -/
theorem scanChangesNothingElse : Obligations.ScanChangesNothingElse := by
  intro s t hidle hexec
  obtain ⟨hcfg, hie, hops, hreject, hlatched, hpeers, hrest⟩ := exec_frame hidle hexec
  suffices h : t.eng.status.tplValid = s.eng.status.tplValid ∧ t.mem = s.mem ∧
      (t.eng.bestDeadline = s.eng.bestDeadline ∧ t.eng.bestOffset = s.eng.bestOffset ∨
        t.eng.busy = false ∧ t.eng.status.err = false) by
    obtain ⟨htpl, hmem, hbest⟩ := h
    exact ⟨⟨hcfg, hie, hops, htpl, hreject, hlatched⟩, hbest, hpeers, hrest, hmem⟩
  rcases exec_idle_cases hidle hexec with ⟨code, -, rfl⟩ | ⟨-, n, rfl⟩
  · exact ⟨rfl, rfl, .inl ⟨rfl, rfl⟩⟩
  · obtain ⟨hmem, htpl, hbest⟩ := runTurns_scan n (.inr ⟨_, s.begun_run .scan⟩)
    obtain ⟨hdeadline', hoffset', htpl', herr'⟩ := s.begun_registers .scan
    refine ⟨htpl.trans htpl', hmem, ?_⟩
    rcases hbest with ⟨hdeadline, hoffset⟩ | ⟨hrun, herr⟩
    · exact .inl ⟨hdeadline.trans hdeadline', hoffset.trans hoffset'⟩
    · exact .inr ⟨by rw [Engine.busy, hrun]; rfl, herr.trans herr'⟩

/-- Settles O39: the frame of every launch, and that of an INIT's turns; INIT has no REGION and marks no race. -/
theorem initChangesNothingElse : Obligations.InitChangesNothingElse := by
  intro s t hidle hexec
  obtain ⟨hcfg, hie, hops, hreject, hlatched, -, hrest⟩ := exec_frame hidle hexec
  suffices h : t.eng.bestDeadline = s.eng.bestDeadline ∧ t.eng.bestOffset = s.eng.bestOffset ∧ t.peers = s.peers ∧
      t.mem = s.mem ∧ t.draws = s.draws by
    obtain ⟨hdeadline, hoffset, hpeers, hmem, hdraws⟩ := h
    exact ⟨⟨hcfg, hie, hops, hdeadline, hoffset, hreject, hlatched⟩, hpeers, hrest, hmem, hdraws⟩
  rcases exec_idle_cases hidle hexec with ⟨code, -, rfl⟩ | ⟨-, n, rfl⟩
  · exact ⟨rfl, rfl, rfl, rfl, rfl⟩
  · obtain ⟨hmem, hdraws, hdeadline, hoffset⟩ := runTurns_init n (.inr ⟨_, s.begun_run .init⟩)
    obtain ⟨hdeadline', hoffset', -⟩ := s.begun_registers .init
    have hpeers : (s.begun .init).peers = s.peers := by rw [s.begun_init]; rfl
    exact ⟨hdeadline.trans hdeadline', hoffset.trans hoffset', (runTurns_frame n _).peers.trans hpeers, hmem, hdraws⟩

end Sys2Proof.Proofs
end

section
/-! Running commands: that each ends (R118), what its sequence depends on (R115), and that an operand write leaves it
(R217). -/

namespace Sys2Proof.Machine

/-! The end of a command -/

theorem finish_not_busy {s : State} (h : s.eng.Ok) : (finish s).eng.busy = false := by
  generalize hn : turnsLeft s.eng = n
  induction n generalizing s with
  | zero =>
    cases hb : s.eng.busy with
    | false => rwa [finish_idle hb]
    | true => exact absurd hn (Nat.ne_of_gt (turnsLeft_pos h hb))
  | succ n ih =>
    cases hb : s.eng.busy with
    | false => rwa [finish_idle hb]
    | true =>
      rw [finish_turn h hb]
      rcases turnsLeft_turn h hb with hleft | hidle
      · exact ih (turn_ok h) (by omega)
      · rwa [finish_idle hidle]

/-! The command at a position -/

section
variable {e : Engine}

theorem position_eq_idle (h : e.position = .idle) : e.run = none := by
  unfold Engine.position at h
  split at h <;> cases h
  assumption

theorem position_eq_init {p : InitPos} (h : e.position = .init p) : e.run = some (.init p) := by
  unfold Engine.position at h
  split at h <;> cases h
  assumption

theorem position_eq_gen {first : Nat} {pos : GenPos} (h : e.position = .gen first pos) :
    ∃ g, e.run = some (.gen g) ∧ g.first = first ∧ g.pos = pos := by
  unfold Engine.position at h
  split at h <;> cases h
  exact ⟨_, by assumption, rfl, rfl⟩

theorem position_eq_scan {first : Nat} {pos : ScanPos} (h : e.position = .scan first pos) :
    ∃ r, e.run = some (.scan r) ∧ r.first = first ∧ r.pos = pos := by
  unfold Engine.position at h
  split at h <;> cases h
  exact ⟨_, by assumption, rfl, rfl⟩

theorem position_eq_lost (h : e.position = .lost) : e.run = some .lost := by
  unfold Engine.position at h
  split at h <;> cases h
  assumption

end

/-! The position after a turn -/

section
variable {s s' : State} (hcfg : s.eng.cfg = s'.eng.cfg) (hbuf : s.eng.latched.buf = s'.eng.latched.buf)
  (hcount : s.eng.latched.count = s'.eng.latched.count)

section
include hcfg hcount

theorem batchLanes_congr (first : Nat) :
    batchLanes s.eng.cfg s.eng.latched first = batchLanes s'.eng.cfg s'.eng.latched first := by
  rw [batchLanes, batchLanes, hcfg, hcount]

theorem genAfterWrite_congr {g g' : GenRun} (hfirst : g.first = g'.first) (i j : Nat) :
    (genAfterWrite s.eng.cfg s.eng.latched g i j).first = (genAfterWrite s'.eng.cfg s'.eng.latched g' i j).first ∧
      (genAfterWrite s.eng.cfg s.eng.latched g i j).pos = (genAfterWrite s'.eng.cfg s'.eng.latched g' i j).pos := by
  rw [genAfterWrite, genAfterWrite, ← hfirst, ← batchLanes_congr hcfg hcount]
  split
  · exact ⟨rfl, rfl⟩
  · split <;> exact ⟨rfl, rfl⟩

end

theorem admitsBlock_congr (habsent : s.plat.absent = s'.plat.absent) (a : Nat) :
    s.admitsBlock a = s'.admitsBlock a := by
  rw [State.admitsBlock, State.admitsBlock, habsent]

section
include hbuf

theorem blockAddr_congr (n j : Nat) : s.eng.latched.blockAddr n j = s'.eng.latched.blockAddr n j := by
  rw [Latched.blockAddr, Latched.blockAddr, Latched.nonceBase, Latched.nonceBase, hbuf]

theorem admitsScoop_congr (hscoop : s.eng.latched.scoop = s'.eng.latched.scoop)
    (habsent : s.plat.absent = s'.plat.absent) (n : Nat) : s.admitsScoop n = s'.admitsScoop n := by
  simp only [State.admitsScoop, Latched.scoopAddrA, Latched.scoopAddrB, Latched.nonceBase, hbuf, hscoop,
    admitsBlock_congr habsent]

end

include hcfg hbuf hcount

theorem genTurn_position (habsent : s.plat.absent = s'.plat.absent) {g g' : GenRun} (hfirst : g.first = g'.first)
    (hpos : g.pos = g'.pos) : (genTurn g s).eng.position = (genTurn g' s').eng.position := by
  by_cases hf : g.first < s.eng.latched.count.toNat
  · have hf' : g'.first < s'.eng.latched.count.toNat := by rwa [← hcount, ← hfirst]
    cases hp : g.pos with
    | round k =>
      rw [genTurn_round hf hp, genTurn_round hf' (hpos ▸ hp)]
      simp only [Engine.position, State.withEng_eng, Engine.moveTo_run, hfirst]
    | final =>
      rw [genTurn_final hf hp, genTurn_final hf' (hpos ▸ hp)]
      simp only [Engine.position, State.withEng_eng, Engine.moveTo_run, hfirst]
    | write i j =>
      have hadmits : s.admitsBlock (s.eng.latched.blockAddr (g.first + i) j) =
          s'.admitsBlock (s'.eng.latched.blockAddr (g'.first + i) j) := by
        rw [admitsBlock_congr habsent, blockAddr_congr hbuf, hfirst]
      cases ha : s.admitsBlock (s.eng.latched.blockAddr (g.first + i) j) with
      | false =>
        rw [genTurn_refused hf hp ha, genTurn_refused hf' (hpos ▸ hp) (hadmits ▸ ha), genBusError_eq, genBusError_eq]
        rfl
      | true =>
        obtain ⟨hnext, hnextPos⟩ := genAfterWrite_congr hcfg hcount hfirst i j
        rw [genTurn_write hf hp ha, genTurn_write hf' (hpos ▸ hp) (hadmits ▸ ha)]
        simp only [Engine.position, State.withEng_eng, Engine.moveTo_run, hnext, hnextPos]
  · have hf' : ¬ g'.first < s'.eng.latched.count.toNat := by rwa [← hcount, ← hfirst]
    rw [genTurn_done (Nat.not_lt.mp hf), genTurn_done (Nat.not_lt.mp hf')]
    rfl

theorem scanTurn_position (hscoop : s.eng.latched.scoop = s'.eng.latched.scoop)
    (habsent : s.plat.absent = s'.plat.absent) {r r' : ScanRun} (hfirst : r.first = r'.first) (hpos : r.pos = r'.pos) :
    (scanTurn r s).eng.position = (scanTurn r' s').eng.position := by
  by_cases hf : r.first < s.eng.latched.count.toNat
  · have hf' : r'.first < s'.eng.latched.count.toNat := by rwa [← hcount, ← hfirst]
    cases hp : r.pos with
    | fetch =>
      have hadmits : ((List.range (batchLanes s.eng.cfg s.eng.latched r.first)).all fun i => s.admitsScoop (r.first + i)) =
          ((List.range (batchLanes s'.eng.cfg s'.eng.latched r'.first)).all fun i => s'.admitsScoop (r'.first + i)) := by
        simp only [batchLanes_congr hcfg hcount, admitsScoop_congr hbuf hscoop habsent, hfirst]
      cases ha : (List.range (batchLanes s.eng.cfg s.eng.latched r.first)).all fun i => s.admitsScoop (r.first + i) with
      | false =>
        rw [scanTurn_refused hf hp ha, scanTurn_refused hf' (hpos ▸ hp) (hadmits ▸ ha)]
        rfl
      | true =>
        rw [scanTurn_fetch hf hp ha, scanTurn_fetch hf' (hpos ▸ hp) (hadmits ▸ ha)]
        simp only [Engine.position, State.withEng_eng, Engine.moveTo_run, hfirst]
    | reduce =>
      rw [scanTurn_reduce hf hp, scanTurn_reduce hf' (hpos ▸ hp)]
      simp only [Engine.position, State.withEng_eng, Engine.moveTo_run, scanBatch, batchLanes_congr hcfg hcount, hfirst]
  · have hf' : ¬ r'.first < s'.eng.latched.count.toNat := by rwa [← hcount, ← hfirst]
    have hend (best : Best) (u : State) : (scanComplete best u).eng.position = .idle := by
      rw [scanComplete]
      split <;> rfl
    rw [scanTurn_done (Nat.not_lt.mp hf), scanTurn_done (Nat.not_lt.mp hf'), hend, hend]

theorem turn_position (hscoop : s.eng.latched.scoop = s'.eng.latched.scoop) (habsent : s.plat.absent = s'.plat.absent)
    (hposition : s.eng.position = s'.eng.position) : (turn s).eng.position = (turn s').eng.position := by
  cases hr : s.eng.run with
  | none =>
    have hr' : s'.eng.run = none := position_eq_idle (hposition.symm.trans (by rw [Engine.position, hr]))
    rw [turn, turn, hr, hr']
    exact hposition
  | some x =>
    cases x with
    | init p =>
      have hr' := position_eq_init (hposition.symm.trans (by rw [Engine.position, hr]))
      rw [turn_init hr, turn_init hr']
      cases p <;> rfl
    | gen g =>
      obtain ⟨g', hr', hfirst, hpos⟩ := position_eq_gen (hposition.symm.trans (by rw [Engine.position, hr]))
      rw [turn_gen hr, turn_gen hr']
      exact genTurn_position hcfg hbuf hcount habsent hfirst.symm hpos.symm
    | scan r =>
      obtain ⟨r', hr', hfirst, hpos⟩ := position_eq_scan (hposition.symm.trans (by rw [Engine.position, hr]))
      rw [turn_scan hr, turn_scan hr']
      exact scanTurn_position hcfg hbuf hcount hscoop habsent hfirst.symm hpos.symm
    | lost =>
      have hr' : s'.eng.run = some .lost := position_eq_lost (hposition.symm.trans (by rw [Engine.position, hr]))
      rw [turn, turn, hr, hr']
      exact hposition

end

/-! Operand writes -/

theorem turn_writeOperand (s : State) (r : Register) (v : Word) :
    turn (s.withEng { s.eng with operands := s.eng.operands.write r v }) =
      (turn s).withEng { (turn s).eng with operands := (turn s).eng.operands.write r v } :=
  turn_update (fun e => { e with operands := e.operands.write r v }) s (fun _ => rfl) (fun _ => rfl) (fun _ => rfl)
    (fun _ => rfl) (fun _ _ => rfl) (fun _ => rfl) (fun _ => rfl) (fun _ _ => rfl) (fun _ _ _ => rfl)

end Sys2Proof.Machine

namespace Sys2Proof.Proofs

open Sys2Proof.Machine

/-- Settles O24: a turn uses one of the turns left, and turns beyond them find the instance idle. -/
theorem everyCommandEnds : Obligations.EveryCommandEnds := by
  intro s n hok
  refine ⟨turnsLeft_turn hok, fun hn => ?_⟩
  have hend := finish_not_busy hok
  rw [runTurns_eq_finish hend hn]
  exact ⟨hend, rfl⟩

/-- Settles O25: each branch of a turn is chosen by the position, BUF, COUNT, SCOOP and the memory map. -/
theorem sequenceDependsOnNoData : Obligations.SequenceDependsOnNoData :=
  fun _ _ hcfg habsent hbuf hcount hscoop hposition => turn_position hcfg hbuf hcount hscoop habsent hposition

/-- Settles O26: a turn reads no operand register and writes none. -/
theorem operandWriteLeavesTheRunningCommand : Obligations.OperandWriteLeavesTheRunningCommand := by
  intro s off v _ hoff
  obtain ⟨r, hr, hoperand⟩ := registerAt_operand hoff
  rw [Engine.writeOffset_operand hr hoperand, Engine.writeOffset_operand hr hoperand]
  exact turn_writeOperand s r v

end Sys2Proof.Proofs
end

section
/-! How a command ends: by its completion, or at the first access that the memory system refuses (R117, R125, R183). -/

namespace Sys2Proof.Machine

/-- The induction over the turns a command has left: a running state that meets `Q` goes on to one that does, until a turn
ends the command in a state that meets `R`. -/
theorem finish_leads {Q R : State → Prop} (hbusy : ∀ {s}, Q s → s.eng.busy = true)
    (hturn : ∀ {s}, Q s → Q (turn s) ∨ ((turn s).eng.busy = false ∧ R (turn s))) {s : State} (h : s.eng.Ok) (hs : Q s) :
    R (finish s) := by
  generalize hn : turnsLeft s.eng = n
  induction n generalizing s with
  | zero => exact absurd hn (Nat.ne_of_gt (turnsLeft_pos h (hbusy hs)))
  | succ n ih =>
    rw [finish_turn h (hbusy hs)]
    rcases hturn hs with hnext | ⟨hidle, hR⟩
    · refine ih (turn_ok h) hnext ?_
      rcases turnsLeft_turn h (hbusy hs) with hleft | hidle
      · omega
      · rw [hbusy hnext] at hidle
        cases hidle
    · rwa [finish_idle hidle]

/-! A refused write of a GEN -/

/-- HashBlock `j` of buffer `n` is still to be written. -/
def GenRun.toWrite (g : GenRun) (n j : Nat) : Prop :=
  match g.pos with
  | .round _ | .final => g.first ≤ n
  | .write i k => g.first + i < n ∨ n = g.first + i ∧ k ≤ j

theorem GenRun.toWrite_write {g : GenRun} {i k : Nat} (hp : g.pos = .write i k) (n j : Nat) :
    g.toWrite n j ↔ g.first + i < n ∨ n = g.first + i ∧ k ≤ j := by
  rw [toWrite, hp]

theorem GenRun.toWrite_genBatch (cfg : EngineConfig) (l : Latched) (first n j : Nat) :
    (genBatch cfg l first).toWrite n j ↔ first ≤ n := .rfl

theorem GenRun.first_le_of_toWrite {g : GenRun} {n j : Nat} (h : g.toWrite n j) : g.first ≤ n := by
  unfold toWrite at h
  split at h <;> omega

/-- A write takes one HashBlock off those still to be written. -/
theorem GenRun.toWrite_genAfterWrite (cfg : EngineConfig) (l : Latched) {g : GenRun} {i k n j : Nat}
    (hp : g.pos = .write i k) (h : g.toWrite n j) (hj : j < blocksPerNonce) (hne : ¬ (n = g.first + i ∧ j = k)) :
    (genAfterWrite cfg l g i k).toWrite n j := by
  rw [toWrite_write hp] at h
  unfold genAfterWrite
  split
  · rw [toWrite_write rfl]
    dsimp only
    omega
  · split
    · rw [toWrite_write rfl]
      dsimp only
      omega
    · rw [toWrite_genBatch]
      omega

/-- A turn writes the HashBlock, leaves it to be written, or ends the GEN with an error. -/
theorem genTurn_toWrite {s : State} {g : GenRun} {n j : Nat} (hn : n < s.eng.latched.count.toNat) (hj : j < blocksPerNonce)
    (hto : g.toWrite n j) (hrefused : s.admitsBlock (s.eng.latched.blockAddr n j) = false) :
    (∃ g', (genTurn g s).eng.run = some (.gen g') ∧ g'.toWrite n j) ∨
      ((genTurn g s).eng.busy = false ∧ (genTurn g s).eng.status.err = true) := by
  have hf : g.first < s.eng.latched.count.toNat := Nat.lt_of_le_of_lt (GenRun.first_le_of_toWrite hto) hn
  cases hp : g.pos with
  | round k =>
    have hfirst := GenRun.first_le_of_toWrite hto
    rw [genTurn_round hf hp]
    refine .inl ⟨_, rfl, ?_⟩
    unfold GenRun.toWrite
    split
    · exact hfirst
    · exact hfirst
    · next hpos => dsimp only at hpos; split at hpos <;> cases hpos
  | final =>
    have hfirst := GenRun.first_le_of_toWrite hto
    rw [genTurn_final hf hp]
    refine .inl ⟨_, rfl, ?_⟩
    rw [GenRun.toWrite_write rfl]
    dsimp only
    omega
  | write i k =>
    cases ha : s.admitsBlock (s.eng.latched.blockAddr (g.first + i) k) with
    | false =>
      rw [genTurn_refused hf hp ha, genBusError_eq]
      exact .inr ⟨rfl, rfl⟩
    | true =>
      rw [genTurn_write hf hp ha]
      refine .inl ⟨_, rfl, GenRun.toWrite_genAfterWrite _ _ hp hto hj ?_⟩
      rintro ⟨rfl, rfl⟩
      rw [ha] at hrefused
      cases hrefused

/-- A GEN with a write ahead that the memory system refuses ends with BUS_ERROR, its REGION freed and nothing else of
memory changed. -/
theorem finish_gen_refused {s : State} (h : s.eng.Ok) (hm : s.mem.wf) {g : GenRun} (hr : s.eng.run = some (.gen g))
    {n j : Nat} (hn : n < s.eng.latched.count.toNat) (hj : j < blocksPerNonce) (hto : g.toWrite n j)
    (hrefused : s.admitsBlock (s.eng.latched.blockAddr n j) = false) :
    (finish s).eng = s.eng.raise .busError ∧
      (∀ i < s.eng.region.len, s.answersAt (s.eng.region.base + i) = true →
        (finish s).mem.read (s.eng.region.base + i) = Config.freeByte (s.draws + i)) ∧
      ∀ a, Range.holds s.eng.region a = false → (finish s).mem.read a = s.mem.read a := by
  have herr : (finish s).eng.status.err = true := by
    refine finish_leads (Q := fun u => ∃ g, u.eng.run = some (.gen g) ∧ g.toWrite n j ∧ TurnFrame s u)
      (R := fun u => u.eng.status.err = true) ?_ ?_ h ⟨g, hr, hto, .refl s⟩
    · rintro u ⟨g, hr, -⟩
      rw [Engine.busy, hr]
      rfl
    · rintro u ⟨g, hr, hto, hframe⟩
      have hadmits : u.admitsBlock (u.eng.latched.blockAddr n j) = false := by
        rwa [admitsBlock_congr (congrArg Platform.absent hframe.plat), hframe.latched]
      rw [turn_gen hr]
      rcases genTurn_toWrite (by rwa [hframe.latched]) hj hto hadmits with ⟨g', hr', hto'⟩ | hend
      · exact .inl ⟨g', hr', hto', hframe.trans (genTurn_frame g u)⟩
      · exact .inr hend
  obtain ⟨m, g', hw, hcomplete | hbus⟩ := finish_gen_ends h hm hr
  · have hclear : s.eng.status.err = false := (h.busy (by rw [Engine.busy, hr]; rfl)).2
    rw [hcomplete, genComplete, State.freeRanges_eng] at herr
    cases hclear.symm.trans herr
  · refine ⟨by rw [hbus, genBusError_eq]; rfl, fun i hi ha => ?_, (runTurns_mem _ h hm).2⟩
    rw [hbus, genBusError_eq]
    exact Memory.read_fillFree_inside hw hi ha

/-! A refused read of a SCAN -/

/-- Buffer `n` is still to be read. -/
def ScanRun.toRead (cfg : EngineConfig) (l : Latched) (r : ScanRun) (n : Nat) : Prop :=
  match r.pos with
  | .fetch => r.first ≤ n
  | .reduce => r.first + batchLanes cfg l r.first ≤ n

theorem ScanRun.first_le_of_toRead {cfg : EngineConfig} {l : Latched} {r : ScanRun} {n : Nat} (h : r.toRead cfg l n) :
    r.first ≤ n := by
  unfold toRead at h
  split at h <;> omega

/-- A turn reads the buffer, leaves it to be read, or ends the SCAN with an error and nothing else changed. -/
theorem scanTurn_toRead {s : State} {r : ScanRun} {n : Nat} (hn : n < s.eng.latched.count.toNat)
    (hto : r.toRead s.eng.cfg s.eng.latched n) (hrefused : s.admitsScoop n = false) :
    (∃ r', scanTurn r (scanAt s r) = scanAt s r' ∧ r'.toRead s.eng.cfg s.eng.latched n) ∨
      scanTurn r (scanAt s r) = s.withEng (s.eng.raise .busError) := by
  have hf : r.first < s.eng.latched.count.toNat := Nat.lt_of_le_of_lt (ScanRun.first_le_of_toRead hto) hn
  cases hp : r.pos with
  | fetch =>
    cases ha : (List.range (batchLanes s.eng.cfg s.eng.latched r.first)).all fun i => s.admitsScoop (r.first + i) with
    | false => exact .inr (scanTurn_refused (s := scanAt s r) hf hp ha)
    | true =>
      refine .inl ⟨_, scanTurn_fetch (s := scanAt s r) hf hp ha, ?_⟩
      have hfirst := ScanRun.first_le_of_toRead hto
      change r.first + batchLanes s.eng.cfg s.eng.latched r.first ≤ n
      by_contra hread
      have hhere : n - r.first ∈ List.range (batchLanes s.eng.cfg s.eng.latched r.first) :=
        List.mem_range.mpr (by omega)
      have hadmitted := List.all_eq_true.mp ha _ hhere
      rw [Nat.add_sub_cancel' hfirst, hrefused] at hadmitted
      cases hadmitted
  | reduce =>
    rw [ScanRun.toRead, hp] at hto
    exact .inl ⟨_, scanTurn_reduce (s := scanAt s r) hf hp, hto⟩

/-- A SCAN with a read ahead that the memory system refuses ends with BUS_ERROR and nothing else changed. -/
theorem finish_scan_refused {s : State} {r : ScanRun} (h : (scanAt s r).eng.Ok) {n : Nat}
    (hn : n < s.eng.latched.count.toNat) (hto : r.toRead s.eng.cfg s.eng.latched n) (hrefused : s.admitsScoop n = false) :
    finish (scanAt s r) = s.withEng (s.eng.raise .busError) := by
  refine finish_leads (Q := fun u => ∃ r, u = scanAt s r ∧ r.toRead s.eng.cfg s.eng.latched n)
    (R := fun u => u = s.withEng (s.eng.raise .busError)) ?_ ?_ h ⟨r, rfl, hto⟩
  · rintro u ⟨r, rfl, -⟩
    rfl
  · rintro u ⟨r, rfl, hto⟩
    rw [turn_scanAt]
    rcases scanTurn_toRead hn hto hrefused with hnext | hend
    · exact .inl hnext
    · rw [hend]
      exact .inr ⟨rfl, rfl⟩

/-! The template -/

/-- The one turn that writes TPL_VALID is the completion of an INIT. -/
theorem run_of_template_built {s : State} (h : s.eng.status.tplValid = false)
    (h' : (turn s).eng.status.tplValid = true) : s.eng.run = some (.init .finish) := by
  have hkept (hsame : (turn s).eng.status.tplValid = s.eng.status.tplValid) : False := by
    rw [hsame, h] at h'
    cases h'
  cases hr : s.eng.run with
  | none => exact (hkept (by rw [turn, hr])).elim
  | some x =>
    cases x with
    | init p =>
      cases p with
      | finish => rfl
      | hashInit | deriveFast => exact (hkept (by rw [turn_init hr]; rfl)).elim
    | gen g =>
      obtain ⟨-, -, htpl, -⟩ := genTurn_registers g s
      exact (hkept (by rw [turn_gen hr, htpl])).elim
    | scan r =>
      obtain ⟨-, htpl, -⟩ := scanTurn_registers r s
      exact (hkept (by rw [turn_scan hr, htpl])).elim
    | lost => exact (hkept (by rw [turn, hr])).elim

end Sys2Proof.Machine

namespace Sys2Proof.Proofs

open Sys2Proof.Machine

/-- Settles O28: the rounds, final hashes and writes of the batches, taken in order, are the sequential pseudocode. -/
theorem genWritesEveryNonceBuffer : Obligations.GenWritesEveryNonceBuffer :=
  fun _ hstarts hadmits hpace => exec_gen_completes hstarts hadmits hpace

/-- Settles O32: the reductions of the batches, taken in order, are one reduction over all buffers. -/
theorem scanFindsTheBestDeadline : Obligations.ScanFindsTheBestDeadline :=
  fun _ hstarts hadmits hpace => exec_scan_completes hstarts hadmits hpace

/-- Settles O35: the two addresses are those of HashBlocks `2 s` and `8191 - 2 s` of the buffer. -/
theorem scanReadsTheMirroredBlocksOfGen : Obligations.ScanReadsTheMirroredBlocksOfGen := by
  intro s t hstarts hadmits hpace hexec l hbuf hscoop n hn
  cases (exec_gen_completes hstarts hadmits hpace).symm.trans hexec
  obtain ⟨-, hinside, -⟩ :=
    writeNonces_read s.eng.cfg (latch s.eng.operands) s.mem hstarts.ok.mem s.eng.operands.count.toNat
  have hbase : l.nonceBase n = (latch s.eng.operands).nonceBase n := by
    rw [Latched.nonceBase, Latched.nonceBase, hbuf, latch]
  have hA : l.scoopAddrA n = (latch s.eng.operands).blockAddr n (2 * l.scoop.toNat) := by
    rw [Latched.scoopAddrA, Latched.blockAddr, hbase]
    omega
  have hB : l.scoopAddrB n = (latch s.eng.operands).blockAddr n (8191 - 2 * l.scoop.toNat) := by
    rw [Latched.scoopAddrB, Latched.blockAddr, hbase]
  rw [hA, hB]
  exact ⟨hinside n hn _ (by rw [blocksPerNonce]; omega), hinside n hn _ (by rw [blocksPerNonce]; omega)⟩

/-- Settles O40: the started SCAN has the refused read ahead. -/
theorem refusedReadEndsTheScan : Obligations.RefusedReadEndsTheScan := by
  rintro s hstarts hpace ⟨n, hn, hrefused⟩
  have hok : (s.eng.started (.scan (scanBatch 0 Best.initial))).Ok :=
    started_scan_ok hstarts.ok.eng hstarts.template hstarts.scoop hstarts.fits ⟨Nat.zero_le _, .inl rfl, trivial⟩
  have hread : (s.withEng (s.eng.started (.scan (scanBatch 0 Best.initial)))).admitsScoop n = false :=
    Bool.and_eq_false_iff.mpr hrefused
  rw [exec, execScan_starts hstarts, grant_untilDone hpace]
  exact congrArg _ (finish_scan_refused (s := s.withEng (s.eng.started (.scan (scanBatch 0 Best.initial)))) hok hn
    (Nat.zero_le n) hread)

/-- Settles O41: the started GEN has the refused write ahead, and the bus error frees its REGION. -/
theorem refusedWriteEndsTheGen : Obligations.RefusedWriteEndsTheGen := by
  rintro s hstarts hpace ⟨n, hn, j, hj, hrefused⟩
  have hok : (s.eng.started (.gen (genBatch s.eng.cfg (latch s.eng.operands) 0))).Ok :=
    started_gen_ok hstarts.ok.eng hstarts.template hstarts.fits (genBatch_ok _ _ (Nat.zero_le _))
  obtain ⟨heng, hinside, houtside⟩ := finish_gen_refused
    (s := s.withEng (s.eng.started (.gen (genBatch s.eng.cfg (latch s.eng.operands) 0)))) hok hstarts.ok.mem rfl hn hj
    ((GenRun.toWrite_genBatch _ _ 0 n j).mpr (Nat.zero_le n)) hrefused
  exact ⟨_, by rw [exec, execGen_starts hstarts, grant_untilDone hpace], heng, hinside, houtside⟩

/-- Settles O60: no other turn writes TPL_VALID, and the completion sets DONE. -/
theorem onlyInitBuildsTheTemplate : Obligations.OnlyInitBuildsTheTemplate := by
  intro s hclear hbuilt
  have hrun := run_of_template_built hclear hbuilt
  rw [turn_init hrun]
  exact ⟨hrun, rfl, rfl⟩

end Sys2Proof.Proofs
end

section
/-! The step family: what a step does with each access, and without one (R35, R47 to R50, R118). -/

namespace Sys2Proof.Machine

theorem registerAccessWf_iff {a size : Nat} : registerAccessWf a size = true ↔ size = 8 ∧ a % 8 = 0 := by
  rw [registerAccessWf, Bool.and_eq_true, beq_iff_eq, beq_iff_eq]

theorem registerAccessWf_false {a size : Nat} (h : size ≠ 8 ∨ a % 8 ≠ 0) : registerAccessWf a size = false := by
  rw [Bool.eq_false_iff, Ne, registerAccessWf_iff]
  omega

/-! Register accesses to the instance whose window holds the address -/

section
variable {s t : State} {a : Nat} (hfocus : s.focus a = some t)
include hfocus

theorem registerWrite_form {size : Nat} (h : size ≠ 8 ∨ a % 8 ≠ 0) (v : Word) :
    registerWrite a size v s = .refused .registerAccessForm := by
  rw [registerWrite, atWindow_of_focus hfocus, registerAccessWf_false h, if_neg Bool.false_ne_true]

theorem registerRead_form {size : Nat} (h : size ≠ 8 ∨ a % 8 ≠ 0) :
    registerRead a size s = .refused .registerAccessForm := by
  rw [registerRead, atWindow_of_focus hfocus, registerAccessWf_false h, if_neg Bool.false_ne_true]

variable (ha : a % 8 = 0)
include ha

theorem registerWrite_command (hoff : a - t.eng.cfg.mmioBase = cmdOffset) (v : Word) :
    registerWrite a 8 v s = commandWrite v t := by
  rw [registerWrite, atWindow_of_focus hfocus, if_pos (registerAccessWf_iff.mpr ⟨rfl, ha⟩), if_pos hoff]

theorem registerWrite_other (hoff : a - t.eng.cfg.mmioBase ≠ cmdOffset) (v : Word) :
    registerWrite a 8 v s = grant (t.withEng (t.eng.writeOffset (a - t.eng.cfg.mmioBase) v)) := by
  rw [registerWrite, atWindow_of_focus hfocus, if_pos (registerAccessWf_iff.mpr ⟨rfl, ha⟩), if_neg hoff]

theorem registerRead_answer :
    registerRead a 8 s = grant (t.withAnswer (.register (t.eng.readOffset (a - t.eng.cfg.mmioBase)))) := by
  rw [registerRead, atWindow_of_focus hfocus, if_pos (registerAccessWf_iff.mpr ⟨rfl, ha⟩)]

end

theorem atWindow_none {s : State} {a : Nat} (h : ∀ e ∈ s.engines, e.windowHolds a = false)
    (k : Nat → State → Host.Outcome State Fault Refusal) : s.atWindow a k = .refused .noSuchWindow := by
  rw [State.atWindow, State.focus_none h]

/-! No access pending -/

theorem runAlone_of_focusOn {s t : State} (h : s.focusOn Engine.advances = some t) : runAlone s = turn t := by
  rw [runAlone, h]

theorem focusOn_self {p : Engine → Bool} {s : State} (h : p s.eng = true) : s.focusOn p = some s := by
  rw [State.focusOn, if_pos h]

theorem focusOn_peer {p : Engine → Bool} {s : State} (h : p s.eng = false) (hp : ∃ e ∈ s.peers, p e = true) :
    ∃ t, s.focusOn p = some t ∧ t.eng ∈ s.peers := by
  obtain ⟨x, hx⟩ := swapIn_some s.eng hp
  refine ⟨{ s with eng := x.1, peers := x.2 }, ?_, swapIn_mem hx⟩
  rw [State.focusOn, if_neg (Bool.eq_false_iff.mp h), hx]
  rfl

theorem focusOn_none {p : Engine → Bool} {s : State} (h : ∀ e ∈ s.engines, p e = false) : s.focusOn p = none := by
  cases hf : s.focusOn p with
  | none => rfl
  | some t =>
    obtain ⟨hperm, hp, -⟩ := State.focusOn_spec hf
    rw [h t.eng (hperm.mem_iff.mp (List.mem_cons_self ..))] at hp
    cases hp

theorem Engine.not_advances_of_idle {e : Engine} (h : e.busy = false) : e.advances = false := by
  have hnone : e.run = none := Option.isNone_iff_eq_none.mp (Option.isSome_eq_false_iff.mp h)
  rw [Engine.advances, hnone]

/-- In an instance in order no command is lost. -/
theorem Engine.Ok.advances {e : Engine} (h : e.Ok) (hb : e.busy = true) : e.advances = true := by
  have hrun := h.run
  rw [Engine.busy] at hb
  unfold Engine.RunOk at hrun
  unfold Engine.advances
  split at hrun
  · next hr => rw [hr] at hb; cases hb
  · next hr => rw [hr]
  · exact hrun.elim
  · next hr => rw [hr]
  · next hr => rw [hr]

end Sys2Proof.Machine

namespace Sys2Proof.Proofs

open Sys2Proof.Machine

/-- Settles O43: the access is the CMD write of the word to the addressed instance. -/
theorem stepRunsTheDecodedCommand : Obligations.StepRunsTheDecodedCommand := by
  intro s t a v p rest hinputs hfocus ha hoff
  have hstep : step s = commandWrite v t := (step_access hinputs).trans (registerWrite_command hfocus ha hoff v)
  exact ⟨fun i hi => hstep.trans (commandWrite_of_ok hi t), fun why hwhy => hstep.trans (commandWrite_of_error hwhy t)⟩

/-- Settles O44: the addressed instance's register rule, or the reason for which the access has no meaning. -/
theorem stepAccessesRegisters : Obligations.StepAccessesRegisters := by
  refine ⟨fun s t a size v p rest hfocus => ⟨fun hinputs => ⟨?_, fun hform => ?_⟩, fun hinputs => ⟨?_, fun hform => ?_⟩,
    fun hinputs => ?_⟩, ?_⟩
  · rintro rfl ha hoff
    exact (step_access hinputs).trans (registerWrite_other hfocus ha hoff v)
  · exact (step_access hinputs).trans (registerWrite_form hfocus hform v)
  · rintro rfl ha
    exact (step_access hinputs).trans (registerRead_answer hfocus ha)
  · exact (step_access hinputs).trans (registerRead_form hfocus hform)
  · rw [step_access hinputs, performAccess]
    exact atWindow_of_focus hfocus _
  · rintro s x a p rest hinputs hx hwindows
    have hnone (k : Nat → State → Host.Outcome State Fault Refusal) :
        (s.take { access := x, pace := p } rest).atWindow a k = .refused .noSuchWindow :=
      atWindow_none (s := s.take _ rest) hwindows k
    rw [step_access hinputs]
    rcases hx with ⟨size, v, rfl⟩ | ⟨size, rfl⟩ | rfl | rfl | rfl
    · rw [performAccess, registerWrite, hnone]
    · rw [performAccess, registerRead, hnone]
    · rw [performAccess, hnone]
    · rw [performAccess, hnone]
    · rw [performAccess, hnone]

/-- Settles O45: the instance that advances is found first among all, or there is none. -/
theorem stepWithoutAccess : Obligations.StepWithoutAccess := by
  intro s hinputs
  rw [step_alone hinputs]
  refine ⟨fun hself => ?_, fun hself hpeer => ?_, fun hnone => ?_, fun e => ⟨Engine.not_advances_of_idle, Engine.Ok.advances⟩⟩
  · rw [runAlone_of_focusOn (focusOn_self hself)]
  · obtain ⟨u, hu, hmem⟩ := focusOn_peer hself hpeer
    obtain ⟨hperm, hadvances, hrest⟩ := State.focusOn_spec hu
    exact ⟨u, hu, hmem, hadvances, hperm, hrest, by rw [runAlone_of_focusOn hu]⟩
  · rw [runAlone, focusOn_none hnone]

end Sys2Proof.Proofs
end

section
/-! The host's memory accesses: what a write leaves for later reads on a coherent platform, and the host's cache where it is
not (R70, R82, R83, R89). -/

namespace Sys2Proof.Machine

/-! A host memory access and the memory map -/

section
variable (s : State) (a n : Nat) (k : State → Host.Outcome State Fault Refusal)

theorem atMemory_device (hdevice : s.touchesDevice { base := a, len := n } = true) :
    s.atMemory { base := a, len := n } k = .refused .hostDeviceAccess := by
  rw [State.atMemory, if_pos hdevice]

/-- Where no device is touched, the end of memory and the absent ranges decide. -/
theorem atMemory_no_device (hdevice : s.touchesDevice { base := a, len := n } = false) :
    ((∀ e ∈ s.engines, 2 ^ e.cfg.addrBits < a + n) ∨
        (∃ d ∈ s.plat.absent, Range.overlaps d { base := a, len := n } = true) →
      s.atMemory { base := a, len := n } k = .fault .hostMemoryAbsent) ∧
    ((∃ e ∈ s.engines, a + n ≤ 2 ^ e.cfg.addrBits) →
      (∀ d ∈ s.plat.absent, Range.overlaps d { base := a, len := n } = false) →
      s.atMemory { base := a, len := n } k = k s) := by
  have hstop : (decide (s.memoryEnd < a + n) || s.plat.absent.any fun d => Range.overlaps d { base := a, len := n }) = true ↔
      s.memoryEnd < a + n ∨ ∃ d ∈ s.plat.absent, Range.overlaps d { base := a, len := n } = true := by
    rw [Bool.or_eq_true, decide_eq_true_iff, List.any_eq_true]
  rw [State.atMemory, if_neg (Bool.eq_false_iff.mp hdevice)]
  refine ⟨fun habsent => if_pos <| hstop.mpr (habsent.imp (fun hbeyond => Nat.lt_of_not_le fun hle => ?_) id),
    fun hin hpresent => if_neg <| hstop.not.mpr (not_or.mpr ⟨?_, ?_⟩)⟩
  · rcases (s.le_memoryEnd (a + n)).mp hle with hzero | ⟨e, he, hin⟩
    · exact Nat.not_lt_zero _ (hzero ▸ hbeyond s.eng (List.mem_cons_self ..))
    · exact absurd hin (Nat.not_le.mpr (hbeyond e he))
  · exact Nat.not_lt.mpr ((s.le_memoryEnd (a + n)).mpr (.inr hin))
  · rintro ⟨d, hd, hover⟩
    rw [hpresent d hd] at hover
    cases hover

end

/-! Host reads -/

section
variable {s : State} {a : Nat}

theorem cached_of_coherent (hc : s.plat.dmaCoherent = true) : s.cached a = none := by
  rw [State.cached, if_pos hc]

theorem cached_of_not_coherent (hc : s.plat.dmaCoherent = false) : s.cached a = cacheLookup a s.hostCache := by
  rw [State.cached, if_neg (Bool.eq_false_iff.mp hc)]

theorem cacheFill_of_coherent (hc : s.plat.dmaCoherent = true) (b : Byte) : s.cacheFill a b = s := by
  rw [State.cacheFill, hc, Bool.true_or, if_pos rfl]

theorem cacheFill_of_cached (hc : s.plat.dmaCoherent = false) {c : CacheByte} (h : s.cached a = some c) (b : Byte) :
    s.cacheFill a b = s := by
  rw [cached_of_not_coherent hc] at h
  rw [State.cacheFill, h, Option.isSome_some, Bool.or_true, if_pos rfl]

theorem cacheFill_of_uncached (hc : s.plat.dmaCoherent = false) (h : s.cached a = none) (b : Byte) :
    s.cacheFill a b = { s with hostCache := cachePut { addr := a, value := b, dirty := false } s.hostCache } := by
  rw [cached_of_not_coherent hc] at h
  rw [State.cacheFill, h, hc, if_neg (by decide)]

theorem cacheFill_plat (b : Byte) : (s.cacheFill a b).plat = s.plat := by
  rw [State.cacheFill]
  split <;> rfl

theorem cacheLookup_cacheFill (hc : s.plat.dmaCoherent = false) (h : s.cached a = none) (b : Byte) :
    cacheLookup a (s.cacheFill a b).hostCache = some { addr := a, value := b, dirty := false } := by
  rw [cacheFill_of_uncached hc h]
  exact (cacheLookup_put _ _ _).trans (if_pos rfl)

theorem cacheFill_cached (hc : s.plat.dmaCoherent = false) (h : s.cached a = none) (b : Byte) :
    (s.cacheFill a b).cached a = some { addr := a, value := b, dirty := false } := by
  rw [cached_of_not_coherent (by rw [cacheFill_plat, hc]), cacheLookup_cacheFill hc h]

theorem hostLoadByte_owned (h : s.genOwned a = true) :
    hostLoadByte s a = (Config.freeByte s.draws, (s.cacheFill a (Config.freeByte s.draws)).drawn 1) := by
  rw [hostLoadByte, if_pos h]

theorem hostLoadByte_cached (h : s.genOwned a = false) {c : CacheByte} (hc : s.cached a = some c) :
    hostLoadByte s a = (c.value, s) := by
  rw [hostLoadByte, if_neg (Bool.eq_false_iff.mp h), hc]

theorem hostLoadByte_uncached (h : s.genOwned a = false) (hc : s.cached a = none) :
    hostLoadByte s a = (s.mem.read a, s.cacheFill a (s.mem.read a)) := by
  rw [hostLoadByte, if_neg (Bool.eq_false_iff.mp h), hc]

theorem hostLoadByte_coherent (h : s.genOwned a = false) (hc : s.plat.dmaCoherent = true) :
    hostLoadByte s a = (s.mem.read a, s) := by
  rw [hostLoadByte_uncached h (cached_of_coherent hc), cacheFill_of_coherent hc]

end

theorem hostLoad_bytes {s : State} (hbyte : ∀ a, hostLoadByte s a = (s.mem.read a, s)) (a : Nat) (bs : List Byte)
    (h : ∀ i, (hi : i < bs.length) → s.mem.read (a + i) = bs[i]) : hostLoad s a bs.length = (bs, s) := by
  induction bs generalizing a with
  | nil => rfl
  | cons b bs ih =>
    have hhead : s.mem.read a = b := h 0 (Nat.zero_lt_succ _)
    have htail := ih (a + 1) fun i hi => by
      rw [Nat.add_assoc, Nat.add_comm 1 i]
      exact h (i + 1) (Nat.succ_lt_succ hi)
    simp only [List.length_cons, hostLoad, hbyte, hhead, htail]

theorem hostStore_genOwned {s : State} (hidle : ∀ e ∈ s.engines, e.busy = false) (a : Nat) (bs : List Byte) (x : Nat) :
    (hostStore s a bs).genOwned x = false := by
  refine State.genOwned_idle (fun e he => ?_) x
  obtain ⟨e', he', hsame⟩ := exists_unraced_eq (hostStore_engines s a bs).symm he
  have hrun : e.run = none := by
    have hnone := Option.isNone_iff_eq_none.mp (Option.isSome_eq_false_iff.mp (hidle e' he'))
    exact (congrArg Engine.run hsame).symm.trans hnone
  rw [Engine.generates, hrun]

/-! Cleaning and invalidating the host's cache -/

theorem cacheLookup_map {f : CacheByte → CacheByte} (hf : ∀ c, (f c).addr = c.addr) (x : Nat) (cache : List CacheByte) :
    cacheLookup x (cache.map f) = (cacheLookup x cache).map f := by
  rw [cacheLookup, cacheLookup, List.find?_map]
  simp only [Function.comp_def, hf]

theorem cacheLookup_invalidate (r : Range) (x : Nat) (cache : List CacheByte) :
    cacheLookup x (cache.filter fun c => !Range.holds r c.addr) =
      if Range.holds r x then none else cacheLookup x cache := by
  have hpred (c : CacheByte) :
      decide ((!Range.holds r c.addr) = true ∧ (c.addr == x) = true) = (!Range.holds r x && c.addr == x) := by
    by_cases hx : c.addr = x <;> simp [hx]
  rw [cacheLookup, cacheLookup, List.find?_filter]
  simp only [hpred]
  cases Range.holds r x <;> simp

section
variable {s : State} (hs : s.Formed) (r : Range) (x : Nat)
include hs

theorem cacheClean_plat : (cacheClean s r).plat = s.plat :=
  (cleanBytes_mem hs.mem r s.hostCache hs.cache 0).2.1

variable (hc : s.plat.dmaCoherent = false)
include hc

theorem cacheClean_read_dirty {c : CacheByte} (hcached : s.cached x = some c) (hdirty : c.dirty = true)
    (hx : Range.holds r x = true) : (cacheClean s r).mem.read x = c.value := by
  obtain ⟨-, -, -, hclean, -⟩ := cleanBytes_mem hs.mem r s.hostCache hs.cache x
  obtain ⟨hmem, haddr⟩ := (cacheLookup_iff hs.cache).mp ((cached_of_not_coherent hc).symm.trans hcached)
  exact hclean c hmem haddr hdirty hx

theorem cacheClean_read_other
    (h : (∀ c, s.cached x = some c → c.dirty = false) ∨ Range.holds r x = false) :
    (cacheClean s r).mem.read x = s.mem.read x := by
  obtain ⟨-, -, -, -, hother⟩ := cleanBytes_mem hs.mem r s.hostCache hs.cache x
  refine hother (h.imp (fun hclean c hmem haddr => hclean c ?_) id)
  exact (cached_of_not_coherent hc).trans ((cacheLookup_iff hs.cache).mpr ⟨hmem, haddr⟩)

theorem cacheClean_cached :
    (cacheClean s r).cached x =
      (s.cached x).map fun c => if Range.holds r x then { c with dirty := false } else c := by
  obtain ⟨-, -, hcache, -⟩ := cleanBytes_mem hs.mem r s.hostCache hs.cache x
  rw [cached_of_not_coherent hc, cached_of_not_coherent (by rw [cacheClean_plat hs, hc]), cacheClean, hcache,
    cacheLookup_map fun c => by split <;> rfl]
  refine Option.map_congr fun c hmem => ?_
  rw [cacheLookup_addr (Option.mem_def.mp hmem)]

end

theorem cacheInvalidate_cached {s : State} (hc : s.plat.dmaCoherent = false) (r : Range) (x : Nat) :
    (cacheInvalidate s r).cached x = if Range.holds r x then none else s.cached x := by
  rw [cached_of_not_coherent hc, cached_of_not_coherent (s := cacheInvalidate s r) hc, cacheInvalidate,
    cacheLookup_invalidate]

end Sys2Proof.Machine

namespace Sys2Proof.Proofs

open Sys2Proof.Machine

/-- Settles O46: a coherent write is a write to memory, and the memory map alone decides what a step does with the access. -/
theorem hostWriteReachesMemory : Obligations.HostWriteReachesMemory := by
  refine ⟨fun s a bs hm hc => ?_, fun s a n bs x p rest hinputs hx => ?_⟩
  · obtain ⟨hmem, hplat⟩ := hostStore_coherent hc a bs
    have hread : ∀ i, (h : i < bs.length) → (hostStore s a bs).mem.read (a + i) = bs[i] := by
      intro i hi
      rw [hmem, Memory.read_writeBytes_inside hm a bs hi]
    refine ⟨hread, fun y hy => ?_, fun y hy => ?_, fun hidle => ?_⟩
    · rw [hmem, Memory.read_writeBytes_outside hm hy]
    · rw [hmem, hy, Memory.readBlock_writeBytes hm]
    · have hbyte (y : Nat) := hostLoadByte_coherent (hostStore_genOwned hidle a bs y) (hplat ▸ hc)
      rw [hostLoad_bytes hbyte a bs hread]
  · dsimp only
    rw [step_access hinputs]
    rcases hx with ⟨rfl, rfl⟩ | rfl
    · rw [if_neg (by simp), performAccess]
      exact ⟨atMemory_device (s.take _ rest) a _ _, atMemory_no_device (s.take _ rest) a _ _⟩
    · rw [if_pos rfl, performAccess]
      exact ⟨atMemory_device (s.take _ rest) a n _, atMemory_no_device (s.take _ rest) a n _⟩

/-- Settles O47: each address is cached at most once, so that its byte alone says what a clean, an invalidate or a read
does. -/
theorem uncleanedWriteStaysInTheCache : Obligations.UncleanedWriteStaysInTheCache := by
  refine ⟨fun s hs hc => ⟨fun a bs => ?_, fun r x => ?_, fun x howned => ?_⟩, fun s a n p rest => ?_⟩
  · obtain ⟨hmem, hplat, hinside, houtside⟩ := hostStore_uncached hc a bs
    refine ⟨hmem, hinside, houtside, fun r hr i hi => ?_⟩
    have hholds : Range.holds r (a + i) = true := by
      obtain ⟨hbase, hend⟩ := hr
      rw [Range.holds_iff]
      dsimp only at hbase hend
      omega
    exact cacheClean_read_dirty (hs.hostStore a bs) r (a + i) (hplat ▸ hc) (hinside i hi) rfl hholds
  · exact ⟨fun c hcached hdirty => cacheClean_read_dirty hs r x hc hcached hdirty, cacheClean_read_other hs r x hc,
      cacheClean_cached hs r x hc, rfl, cacheInvalidate_cached hc r x⟩
  · refine ⟨fun c hcached => hostLoadByte_cached howned hcached, fun hcached => ?_⟩
    rw [hostLoadByte_uncached howned hcached]
    refine ⟨rfl, ?_, cacheFill_cached hc hcached _⟩
    rw [cacheFill_of_uncached hc hcached]
  · exact ⟨fun hinputs => step_access hinputs, fun hinputs => step_access hinputs⟩

/-- Settles O48: inside such a REGION the read draws a free value, and what it leaves in the cache is `cacheFill`'s. -/
theorem hostReadInsideARunningGenIsFree : Obligations.HostReadInsideARunningGenIsFree := by
  intro s a
  refine ⟨fun howned => ?_, fun hfree hc => ?_⟩
  · rw [hostLoadByte_owned ((s.genOwned_iff a).mpr howned)]
    refine ⟨rfl, ?_, fun hc => ?_, fun hc => ⟨fun c hcached => ?_, fun hcached t hplat hcache hown => ?_⟩⟩
    · rcases s.cacheFill_eq a (Config.freeByte s.draws) with hfill | hfill
      · exact ⟨s.hostCache, by rw [hfill]; rfl⟩
      · exact ⟨_, by rw [hfill]; rfl⟩
    · rw [cacheFill_of_coherent hc]
      rfl
    · rw [cacheFill_of_cached hc hcached]
      rfl
    · have ht : t.cached a = some { addr := a, value := Config.freeByte s.draws, dirty := false } := by
        rw [cached_of_not_coherent (hplat ▸ hc), hcache]
        exact cacheLookup_cacheFill hc hcached _
      exact hostLoadByte_cached hown ht
  · have hnot : s.genOwned a = false := by
      rw [Bool.eq_false_iff, Ne, s.genOwned_iff]
      rintro ⟨e, he, hgen, hholds⟩
      rw [hfree e he hgen] at hholds
      cases hholds
    exact hostLoadByte_coherent hnot hc

end Sys2Proof.Proofs
end

section
/-! Races: how each is marked (R83, R91), and what the end of a raced command leaves (R83). -/

namespace Sys2Proof.Machine

/-! The command that runs on an instance -/

theorem generates_iff {e : Engine} : e.generates = true ↔ ∃ g, e.run = some (.gen g) := by
  unfold Engine.generates
  split
  · next g hr => exact ⟨fun _ => ⟨g, hr⟩, fun _ => rfl⟩
  all_goals
    next hr =>
      refine ⟨fun h => absurd h Bool.false_ne_true, ?_⟩
      rintro ⟨g, hg⟩
      cases hr.symm.trans hg

theorem usesRegion_iff {e : Engine} :
    e.usesRegion = true ↔ (∃ g, e.run = some (.gen g)) ∨ ∃ r, e.run = some (.scan r) := by
  unfold Engine.usesRegion
  split
  · next g hr => exact ⟨fun _ => .inl ⟨g, hr⟩, fun _ => rfl⟩
  · next r hr => exact ⟨fun _ => .inr ⟨r, hr⟩, fun _ => rfl⟩
  all_goals
    next hr =>
      refine ⟨fun h => absurd h Bool.false_ne_true, ?_⟩
      rintro (⟨g, hg⟩ | ⟨g, hg⟩) <;> cases hr.symm.trans hg

/-! Races with a host write -/

theorem raceWrite_gen {e : Engine} {g : GenRun} (hr : e.run = some (.gen g)) {r : Range}
    (h : Range.overlaps r e.region = true) : e.raceWrite r = { e with raced := e.region :: e.raced } := by
  rw [Engine.raceWrite, hr]
  exact if_pos h

theorem raceWrite_scan {e : Engine} {q : ScanRun} (hr : e.run = some (.scan q)) (r : Range) :
    e.raceWrite r = if e.latched.scanReads r then { e with raced := r :: e.raced } else e := by
  rw [Engine.raceWrite, hr]

/-- A host write of one byte, to memory or to the host's cache, as the addressed instance sees it. -/
theorem hostWrite_spec {s t : State} {a : Nat} {b : Byte} (ht : t = storeByte s a b ∨ t = hostStore s a [b]) :
    t.eng = s.eng.raceWrite { base := a, len := 1 } ∧ t.draws = s.draws ∧ t.plat = s.plat := by
  rcases ht with rfl | rfl
  · exact ⟨rfl, rfl, rfl⟩
  · rw [hostStore_cons, hostStore]
    split <;> exact ⟨rfl, rfl, rfl⟩

theorem hostWrite_ok {s t : State} {a : Nat} {b : Byte} (ht : t = storeByte s a b ∨ t = hostStore s a [b]) (h : s.Ok) :
    t.Ok := by
  rcases ht with rfl | rfl
  · exact h.storeByte a b
  · exact h.hostStore a [b]

/-! Races with a command beside it -/

section
variable {e o : Engine}

theorem contend_gen (he : e.generates = true) (ho : o.usesRegion = true) :
    e.contend o = if Range.overlaps e.region o.region then { e with raced := e.latched.buffersOver o.region :: e.raced }
      else e := by
  obtain ⟨g, hg⟩ := generates_iff.mp he
  rw [Engine.contend, hg]
  rcases usesRegion_iff.mp ho with ⟨q, hq⟩ | ⟨q, hq⟩
  · rw [hq]
  · rw [hq]

theorem contend_scan_gen {r : ScanRun} (he : e.run = some (.scan r)) (ho : o.generates = true) :
    e.contend o = if e.latched.scanReads o.region then { e with raced := o.region :: e.raced } else e := by
  obtain ⟨g, hg⟩ := generates_iff.mp ho
  rw [Engine.contend, he, hg]

theorem contend_scan_other {r : ScanRun} (he : e.run = some (.scan r)) (ho : o.generates = false) : e.contend o = e := by
  rw [Engine.contend, he]
  split
  · next hr _ => cases hr
  · next hr _ => cases hr
  · next g _ hg =>
    rw [generates_iff.mpr ⟨g, hg⟩] at ho
    cases ho
  · rfl

end

theorem buffer_inside {l : Latched} {n : Nat} (hn : n < l.count.toNat) : Range.inside (l.buffer n) l.region := by
  simp only [Range.inside, Latched.buffer, Latched.region, Latched.nonceBase, nonceSize]
  omega

theorem overlaps_of_inside {r q x : Range} (h : Range.inside r q) (hr : Range.overlaps r x = true) :
    Range.overlaps q x = true := by
  rw [Range.overlaps_iff] at *
  unfold Range.inside at h
  omega

/-- The raced bytes of a GEN that one command beside it races with: those of the nonce buffers the other REGION meets. -/
theorem contend_gen_holds {e o : Engine} (hraced : e.raced = []) (he : e.generates = true) (ho : o.usesRegion = true)
    (x : Nat) :
    (∃ r ∈ (e.contend o).raced, Range.holds r x = true) ↔
      ∃ n < e.latched.count.toNat, Range.overlaps (e.latched.buffer n) o.region = true ∧
        Range.holds (e.latched.buffer n) x = true := by
  rw [contend_gen he ho]
  split
  · next hover =>
    simp only [hraced, List.mem_singleton, exists_eq_left]
    exact holds_buffersOver hover x
  · next hover =>
    rw [hraced]
    refine ⟨fun ⟨r, hr, _⟩ => absurd hr List.not_mem_nil, ?_⟩
    rintro ⟨n, hn, hmeet, -⟩
    exact absurd (overlaps_of_inside (buffer_inside hn) hmeet) hover

theorem raced_cons_iff {e : Engine} (hraced : e.raced = []) (p : Prop) [Decidable p] (r : Range) :
    (if p then { e with raced := r :: e.raced } else e).raced ≠ [] ↔ p := by
  split
  · next hp => exact ⟨fun _ => hp, fun _ => List.cons_ne_nil _ _⟩
  · next hp => exact ⟨fun h => absurd hraced h, fun h => absurd h hp⟩

theorem exec_begins_no_turns {s : State} {i : Instr} (hidle : s.eng.busy = false) (hcode : s.launchCode i = .none)
    (hdevice : s.touchesDevice (latch s.eng.operands).region = false) (hpace : s.pace = .turns 0) :
    exec i s = .next (s.begun i) := by
  rw [exec_begins hidle hcode fun _ => hdevice]
  exact grant_none (s := s.begun i) hpace (s.begun i).eng

/-! The end of a raced command -/

section
variable {s : State} (h : s.eng.Ok) (hm : s.mem.wf) {g : GenRun} (hr : s.eng.run = some (.gen g))
include h hm hr

/-- A raced byte is free whether the GEN completes or ends with BUS_ERROR, which frees the whole REGION. -/
theorem finish_gen_raced {x : Nat} (hx : ∃ r ∈ s.eng.raced, Range.holds r x = true) (ha : s.answersAt x = true) :
    ∃ d, (finish s).mem.read x = Config.freeByte d := by
  obtain ⟨m, g', hw, hcomplete | hbus⟩ := finish_gen_ends h hm hr
  · rw [hcomplete]
    exact (genAt s g' m).freeRanges_inside hw s.eng.raced ha hx
  · obtain ⟨-, -, -, hinside⟩ := h.gen hr
    obtain ⟨r, hmem, hholds⟩ := hx
    have hregion : ∃ q ∈ [s.eng.region], Range.holds q x = true := by
      refine ⟨_, List.mem_singleton_self _, ?_⟩
      by_contra hout
      rw [inside_outside (hinside r hmem) (Bool.eq_false_iff.mpr hout)] at hholds
      cases hholds
    rw [hbus]
    exact (genAt s g' m).freeRanges_inside hw [s.eng.region] ha hregion

/-- A GEN raced over its whole REGION alone leaves the next free values there, in order. -/
theorem finish_gen_raced_region (hraced : s.eng.raced = [s.eng.region]) {i : Nat} (hi : i < s.eng.region.len)
    (ha : s.answersAt (s.eng.region.base + i) = true) :
    (finish s).mem.read (s.eng.region.base + i) = Config.freeByte (s.draws + i) := by
  obtain ⟨m, g', hw, hcomplete | hbus⟩ := finish_gen_ends h hm hr
  · have hfreed : genComplete (genAt s g' m) =
        ((genAt s g' m).freeRange s.eng.region).withEng (genAt s g' m).eng.complete := by
      have hraced' : (genAt s g' m).eng.raced = [s.eng.region] := hraced
      rw [genComplete, State.freeRanges_eng, hraced']
      rfl
    rw [hcomplete, hfreed]
    exact Memory.read_fillFree_inside hw hi ha
  · rw [hbus, genBusError_eq]
    exact Memory.read_fillFree_inside hw hi ha

end

/-- A GEN at its start whose writes are admitted leaves every byte outside its races as the pseudocode does. -/
theorem finish_gen_read_unraced {s : State} (h : s.eng.Ok) (hm : s.mem.wf)
    (hr : s.eng.run = some (.gen (genBatch s.eng.cfg s.eng.latched 0))) (hadmits : s.AdmitsGen s.eng.latched) {x : Nat}
    (hx : ∀ r ∈ s.eng.raced, Range.holds r x = false) :
    (finish s).mem.read x = (writeNonces s.eng.cfg s.eng.latched s.mem s.eng.latched.count.toNat).read x := by
  have hself : s.withEng (s.eng.moveTo (.gen (genBatch s.eng.cfg s.eng.latched 0))) = s := by
    rw [Engine.moveTo, ← hr]
    rfl
  have hend := finish_gen_complete s h.legal (fun _ => h.moveGen hr) hadmits
  rw [hself] at hend
  obtain ⟨hw, -⟩ := writeNonces_read s.eng.cfg s.eng.latched s.mem hm s.eng.latched.count.toNat
  obtain ⟨m, d, hfreed, -, houtside⟩ := (genAt s (genBatch s.eng.cfg s.eng.latched s.eng.latched.count.toNat)
    (writeNonces s.eng.cfg s.eng.latched s.mem s.eng.latched.count.toNat)).freeRanges_frame s.eng.raced
  have hmem : (finish s).mem = m := by
    rw [hend, genComplete]
    exact congrArg State.mem hfreed
  rw [hmem]
  exact houtside hw x hx

/-- A raced SCAN, its reads admitted, ends without an error and with the next two free values in its result registers. -/
theorem finish_scan_raced {s : State} (h : s.eng.Ok) (hadmits : s.AdmitsScan s.eng.latched) {r : ScanRun}
    (hr : s.eng.run = some (.scan r)) (hraced : s.eng.raced ≠ []) :
    (finish s).eng = (s.eng.withBest (Config.freeWord s.draws) (Config.freeWord (s.draws + 1))).complete := by
  obtain ⟨best, r', hend⟩ := finish_scan_ends h hadmits hr
  have hnonempty : ¬ (scanAt s r').eng.raced.isEmpty = true := fun hempty => hraced (List.isEmpty_iff.mp hempty)
  rw [hend, scanComplete, if_neg hnonempty]
  rfl

end Sys2Proof.Machine

namespace Sys2Proof.Proofs

open Sys2Proof.Machine

/-- Settles O49: the write marks the whole REGION, and the GEN it leaves has the same turns to go. -/
theorem hostWriteIntoARunningGenFreesItsRegion : Obligations.HostWriteIntoARunningGenFreesItsRegion := by
  intro s t a b hok hgen hholds ht
  obtain ⟨g, hg⟩ := generates_iff.mp hgen
  have htok := hostWrite_ok ht hok
  obtain ⟨heng, hdraws, hplat⟩ := hostWrite_spec ht
  have hover : Range.overlaps { base := a, len := 1 } s.eng.region = true := by
    rw [Range.holds_iff] at hholds
    rw [Range.overlaps_iff]
    dsimp only
    omega
  rw [raceWrite_gen hg hover] at heng
  have hleft : turnsLeft s.eng = turnsLeft t.eng := by rw [heng]; rfl
  have hrun : t.eng.run = some (.gen g) := by rw [heng]; exact hg
  have hregion : t.eng.region = s.eng.region := by rw [heng]; rfl
  have hraced : t.eng.raced = s.eng.region :: s.eng.raced := by rw [heng]
  rw [hleft]
  refine ⟨finish_not_busy htok.eng, fun i hi ha => ?_⟩
  have ha' : t.answersAt (s.eng.region.base + i) = true := by
    rw [State.answersAt, hplat]
    exact ha
  refine ⟨finish_gen_raced htok.eng htok.mem hrun ⟨s.eng.region, ?_, ?_⟩ ha', fun hnone => ?_⟩
  · rw [hraced]
    exact List.mem_cons_self ..
  · exact Range.holds_iff.mpr ⟨Nat.le_add_right _ _, Nat.add_lt_add_left hi _⟩
  · rw [hnone, ← hregion] at hraced
    have hfree := finish_gen_raced_region htok.eng htok.mem hrun hraced (i := i)
    rw [hregion, hdraws] at hfree
    exact hfree hi ha'

/-- Settles O50: the write marks a race exactly when the SCAN reads the byte. -/
theorem hostWriteIntoARunningScanFreesItsResult : Obligations.HostWriteIntoARunningScanFreesItsResult := by
  intro s t a b r hr ht
  obtain ⟨heng, hdraws, hplat⟩ := hostWrite_spec ht
  rw [raceWrite_scan hr] at heng
  refine ⟨fun hreads hok hadmits => ?_, fun hother => ?_⟩
  · have htok := hostWrite_ok ht hok
    rw [if_pos hreads] at heng
    have hleft : turnsLeft s.eng = turnsLeft t.eng := by rw [heng]; rfl
    have hrun : t.eng.run = some (.scan r) := by rw [heng]; exact hr
    have hadmits' : t.AdmitsScan t.eng.latched := by
      intro n hn
      rw [admitsBlock_congr (congrArg Platform.absent hplat), admitsBlock_congr (congrArg Platform.absent hplat)]
      rw [heng] at hn ⊢
      exact hadmits n hn
    have hend := finish_scan_raced htok.eng hadmits' hrun (by rw [heng]; exact List.cons_ne_nil _ _)
    rw [hdraws] at hend
    have hclear : t.eng.status.err = false := (htok.eng.busy (by rw [Engine.busy, hrun]; rfl)).2
    rw [hleft]
    exact ⟨congrArg Engine.busy hend, (congrArg (fun e : Engine => e.status.err) hend).trans hclear,
      congrArg Engine.bestDeadline hend, congrArg Engine.bestOffset hend⟩
  · rw [heng, if_neg (Bool.eq_false_iff.mp hother)]

/-- Settles O51: one command beside another by the cases of both, a launch by folding over the peers, and the end of a raced
command by the way it ends. -/
theorem overlappingCommandsRace : Obligations.OverlappingCommandsRace := by
  refine ⟨fun e o hraced => ⟨fun he ho => ⟨?_, contend_gen_holds hraced he ho⟩, fun r hr => ⟨fun ho => ?_, ?_⟩⟩,
    fun s hidle htpl hpace hdevice => ⟨fun hfits => ?_, fun hscoop hfits => ?_⟩,
    fun s hok => ⟨fun r hmem hgen x hx ha => ?_, fun hr hadmits x hx => ?_, fun r hr hraced hadmits => ?_⟩⟩
  · rw [contend_gen he ho]
    exact raced_cons_iff hraced _ _
  · rw [contend_scan_gen hr ho]
    exact raced_cons_iff hraced _ _
  · exact contend_scan_other hr
  · have hcode := State.launchCode_gen_passes htpl hfits
    refine ⟨_, _, exec_begins_no_turns hidle hcode hdevice hpace, rfl, s.begun_eng_unraced .gen, rfl, ?_⟩
    exact (Engine.foldl_contend_gen ⟨_, rfl⟩).trans (or_iff_right (not_not_intro rfl))
  · have hcode := State.launchCode_scan_passes htpl hscoop hfits
    refine ⟨_, _, exec_begins_no_turns hidle hcode hdevice hpace, rfl, s.begun_eng_unraced .scan, rfl, ?_⟩
    exact (Engine.foldl_contend_scan ⟨_, rfl⟩).trans (or_iff_right (not_not_intro rfl))
  · obtain ⟨g, hg⟩ := generates_iff.mp hgen
    exact finish_gen_raced hok.eng hok.mem hg ⟨r, hmem, hx⟩ ha
  · exact finish_gen_read_unraced hok.eng hok.mem hr hadmits hx
  · have hend := finish_scan_raced hok.eng hadmits hr hraced
    exact ⟨congrArg Engine.bestDeadline hend, congrArg Engine.bestOffset hend⟩

end Sys2Proof.Proofs
end
